-- ==== Sys2Proof/Word.lean ====
section
/-! DEFINITION. The atoms of the block: the Byte (R4) and the bit sequence (R5). -/

namespace Sys2Proof

/-- A Byte is a value in [0,255], unsigned; bit 7 is the most significant (R4, `00_scope.md` 6.1). -/
abbrev Byte := BitVec 8

/-- A bit sequence: a finite ordered list of bits, element 0 first (R5). `true` is the bit 1. -/
abbrev Bits := List Bool

end Sys2Proof
end

