-- ==== Sys2Proof/Config.lean ====
section
/-! DEFINITION. The implementation parameters of R6 and the free values of R34: what an instance of the block
fixes, and what the spec leaves to be any value. -/

namespace Sys2Proof

/-- The parameters R6 marks OPEN, each an argument of the model. An instance fixes them once: `State` carries
them, and no step changes them. `REG_MAP` is not modelled (log 4). -/
structure Params where
  /-- `LENW`: the width in bits of every length and count register. -/
  lenw : Nat
  /-- `SRC_CAP`: the capacity of SRC in Bytes. -/
  srcCap : Nat
  /-- `DST_CAP`: the capacity of DST in Bytes. -/
  dstCap : Nat
  /-- `BIT_CAP`: the capacity of BBUF in bits. -/
  bitCap : Nat
deriving DecidableEq, Repr

namespace Config

/-- `CT_ENTRIES` (R6): one code table entry per Byte value. -/
abbrev ctEntries : Nat := 256

/-- `MAXLEN` (R6): the longest code, in bits. -/
abbrev maxLen : Nat := 255

/-- `RUN_MAX` (R6): the largest run count of an RLE pair a correct encoder writes. -/
abbrev runMax : Nat := 255

/-- `CMD_SET_VERSION` (R6, R61): the version of the command encoding. No register holds it. -/
abbrev cmdSetVersion : Nat := 1

/-- The instance `State.reset` belongs to. `LENW` = 32 is R6's default; the capacities are the largest R6 allows
with it. DESIGN CHOICE, safe: log 1 (every statement is about every `Params`). -/
def defaultParams : Params :=
  { lenw := 32, srcCap := 2 ^ 29, dstCap := 2 ^ 32 - 1, bitCap := 2 ^ 32 - 1 }

/-! Free values. Each is applied to a counter of `State` that advances, and to the element's index where the
value is per element. Nothing constrains them beyond what is written where they are used. -/

/-- What the block reads in command number `draw` from element `i` of SRC when it holds no value (R33, U9). -/
opaque freeByte : Nat → Nat → Byte

/-- What the block reads in command number `draw` from element `i` of BBUF when it holds no value (R33, U9). -/
opaque freeBit : Nat → Nat → Bool

/-- The draw behind PROGRESS after the fault of command number `draw` (R19, R193). -/
opaque freeProgress : Nat → Nat

/-- The draw behind the `k`-th host read of PROGRESS while busy (R19, R146). -/
opaque busyProgress : Nat → Nat

/-- The draw behind the `k`-th host read of another register while busy (R146). -/
opaque hostWord : Nat → Nat

/-- The Byte of the `k`-th host read that returns any value (R143, R146). -/
opaque hostByte : Nat → Byte

/-- The bit of the `k`-th host read that returns any value (R143, R146). -/
opaque hostBit : Nat → Bool

/-- The `LEN` field of the `k`-th host read of an entry whose `LEN` is any value (R32, R143, R146). -/
opaque hostLen : Nat → BitVec 8

/-- The `CODE` field of the `k`-th host read of an entry whose `CODE` is any value (R32, R143, R146). -/
opaque hostCode : Nat → BitVec 255

end Config
end Sys2Proof
end

