-- ==== Sys2Proof/Syntax.lean ====
section
/-! DEFINITION. The five commands (R61), the two fields of a command word (R60), and the two ways a word is
reserved (R62). -/

namespace Sys2Proof

/-- The commands, one constructor per row of `spec/opcode_table.json`. A command has no explicit operand: its
operands are the registers and memories of R63. -/
inductive Instr where
  | pack
  | unpack
  | hwalk
  | hdec
  | rled
deriving DecidableEq, Repr

/-- The fields of a command word (R60): `RSV` is bits [7:3], `OP` bits [2:0]. -/
structure CmdFields where
  rsv : BitVec 5
  op  : BitVec 3
deriving DecidableEq, Repr

/-- Why a command word is reserved (R62). -/
inductive Reserved where
  /-- `RSV` is not 0: 248 words. -/
  | rsvNotZero
  /-- `RSV` is 0 and `OP` is 000, 110 or 111: 3 words. -/
  | opUnused
deriving DecidableEq, Repr

/-- What a command word stands for: a command, or nothing (R62). -/
inductive Decoded where
  | command (i : Instr)
  | reserved (r : Reserved)
deriving DecidableEq, Repr

end Sys2Proof
end

