-- ==== Sys2Proof/WellFormed.lean ====
section
/-! DEFINITION. The checks on syntax and on parameters: a command word's fields (R60, R61) and R6's constraints. -/

namespace Sys2Proof

/-- Every command is well formed: it carries no field that could be wrong (R60: "A command has no explicit
operands"). -/
def Instr.wellFormed : Instr → Bool
  | .pack => true
  | .unpack => true
  | .hwalk => true
  | .hdec => true
  | .rled => true

/-- `RSV` "must be 0" (R60) and `OP` is one of the five codes of R61. -/
def CmdFields.wellFormed (f : CmdFields) : Bool :=
  f.rsv == 0#5 && (1 ≤ f.op.toNat && f.op.toNat ≤ 5)

/-- The constraints of R6's table and of `92_eei_decisions.md` ("Open parameters"): `LENW >= 8`, `1 <= SRC_CAP`,
`8*(SRC_CAP-1) < 2^LENW`, `1 <= DST_CAP < 2^LENW`, `BIT_CAP < 2^LENW`. -/
def Params.wellFormed (p : Params) : Bool :=
  decide (8 ≤ p.lenw ∧ 1 ≤ p.srcCap ∧ 8 * (p.srcCap - 1) < 2 ^ p.lenw ∧
    1 ≤ p.dstCap ∧ p.dstCap < 2 ^ p.lenw ∧ p.bitCap < 2 ^ p.lenw)

end Sys2Proof
end

