-- ==== Sys2Proof/Decode.lean ====
section
/-! DEFINITION. The command word: its fields (R60), the decoder, total on all 256 words (R61, R62), and the encoder. -/

namespace Sys2Proof

/-- `RSV` is `w[7:3]` and `OP` is `w[2:0]` (R60). -/
def fieldsOf (w : BitVec 8) : CmdFields :=
  { rsv := w.extractLsb' 3 5, op := w.extractLsb' 0 3 }

/-- The word whose fields are `f` (R60). -/
def wordOf (f : CmdFields) : BitVec 8 :=
  f.rsv ++ f.op

/-- The table of R61; every other word is reserved (R62). -/
def decode (w : BitVec 8) : Decoded :=
  let f := fieldsOf w
  if f.rsv ≠ 0#5 then .reserved .rsvNotZero
  else match f.op.toNat with
    | 1 => .command .pack
    | 2 => .command .unpack
    | 3 => .command .hwalk
    | 4 => .command .hdec
    | 5 => .command .rled
    | _ => .reserved .opUnused

/-- The `OP` column of R61. -/
def opOf : Instr → BitVec 3
  | .pack => 0b001#3
  | .unpack => 0b010#3
  | .hwalk => 0b011#3
  | .hdec => 0b100#3
  | .rled => 0b101#3

/-- The command word of a command: `RSV` 00000 and the `OP` of R61. -/
def encode (i : Instr) : BitVec 8 :=
  wordOf { rsv := 0#5, op := opOf i }

/-- The command of a decoded word, where there is one. -/
def Decoded.toOption : Decoded → Option Instr
  | .command i => some i
  | .reserved _ => none

/-- The host's form of the decoder. A command is one 8-bit word (R60: "There is no other length"), so a word of any
other length, or with a bit above bit 7, is no command. -/
def decodeTableWord (nbits w : Nat) : Option Instr :=
  if nbits = 8 ∧ w < 256 then (decode (BitVec.ofNat 8 w)).toOption else none

end Sys2Proof
end

