-- ==== Sys2Proof/Machine/State.lean ====
section
/-! DEFINITION. The state of one instance of the block (R10) and of the outside world it talks to (R140, R220), as
plain data, and the state after reset (R32). -/

namespace Sys2Proof.Machine

/-- A memory of elements `α`: the elements something has written, by strictly rising index. An unlisted index holds
no value (R33). -/
abbrev Memory (α : Type) := List (Nat × α)

/-- An element of BBUF: the bit it physically holds, and whether that bit is still its value in the sense of R33
(UNPACK and HDEC make every earlier bit stale at their start; the next write of the element makes it live again). -/
structure BitCell where
  bit  : Bool
  live : Bool
deriving DecidableEq, Repr

/-- A code table entry `(V, LEN, CODE)` (R24, R68). `CODE[k]` is bit `k` of `code`. -/
structure CtEntry where
  v    : Bool
  len  : BitVec 8
  code : BitVec 255
deriving DecidableEq, Repr

/-- The nine host-visible registers (R10 to R19). The `LENW`-bit ones are numbers; they stay below `2^LENW` (R9). -/
structure Regs where
  cmd      : BitVec 8
  status   : BitVec 8
  errcode  : BitVec 8
  srcLen   : Nat
  dstLen   : Nat
  bitLen   : Nat
  nsym     : Nat
  pad      : BitVec 8
  progress : Nat
deriving DecidableEq, Repr

/-- The four memories (R21 to R24). `src` and `dst` are lists of `Host.Cell`. -/
structure Mems where
  src  : List Host.Cell
  dst  : List Host.Cell
  bbuf : Memory BitCell
  ct   : Memory CtEntry
deriving DecidableEq, Repr

/-- The nine working registers (`10_state.md` section 4, R25, R26). -/
structure Work where
  sh   : Byte
  bc   : Nat
  si   : Nat
  di   : Nat
  bi   : Nat
  nb   : Nat
  node : Bits
  rv   : Byte
  rc   : Byte
deriving DecidableEq, Repr

/-- The names of the four memories. -/
inductive MemName where
  | src | dst | bbuf | ct
deriving DecidableEq, Repr

/-- What the outside world does to the block: the four host operations (R141 to R144), the pseudo-operation `wait`
(R72, R147), and the reset input (R220). -/
inductive Event where
  /-- `hrd REG` (R141). -/
  | hrd (reg : Nat)
  /-- `hwr REG, v` (R142; R145 for register 0). -/
  | hwr (reg v : Nat)
  /-- `mrd MEM[i]` (R143). -/
  | mrd (m : MemName) (i : Nat)
  /-- `mwr SRC[i], v` (R144). -/
  | mwrSrc (i : Nat) (v : Byte)
  /-- `mwr DST[i], v`, which changes nothing (R144). -/
  | mwrDst (i : Nat) (v : Byte)
  /-- `mwr BBUF[i], v` (R144). -/
  | mwrBbuf (i : Nat) (v : Bool)
  /-- `mwr CT[i], (V, LEN, CODE)` (R144). -/
  | mwrCt (i : Nat) (e : CtEntry)
  /-- `wait`: `hrd STATUS` until the value read has `BUSY = 0` (R72, R147). -/
  | wait
  /-- The reset input (R220, R221). -/
  | reset
deriving DecidableEq, Repr

/-- What one host read returned. -/
inductive Seen where
  | reg (r v : Nat)
  | byte (v : Byte)
  | bit (v : Bool)
  | entry (e : CtEntry)
deriving DecidableEq, Repr

/-- The host's side (R140): what it will do, what it has read (latest first), the `BUSY_TIME` of the commands to
come, counted in turns of the host (empty means zero, the spec's default), the number of reads that may
have returned any value (the argument of the host-side free values), and the last value read of `PROGRESS` while
the command in the block runs (0 before the first such read), below which R19 lets no later read of it fall. -/
structure HostSide where
  events       : List Event
  seen         : List Seen
  busyTime     : List Nat
  reads        : Nat
  lastProgress : Nat
deriving DecidableEq, Repr

/-- One instance of the block and its host. `draws` counts completed commands: it is the argument of the free
values a command meets, so each is fixed for the duration of one command (U9). `draws` and all of `host` but the
read values are the model's own fields, not the spec's (log 3, 6, 7, 13). -/
structure State where
  params : Params
  regs   : Regs
  mems   : Mems
  work   : Work
  draws  : Nat
  host   : HostSide
deriving DecidableEq, Repr

/-- The machine never stops with a fault: "Nothing in the block is stuck: every command ends" (`93` section 1, R206,
R231). A *fault* of the spec is a completed command with `STATUS.ERR = 1`, a next state (R190, R193). -/
inductive Fault where
deriving DecidableEq, Repr

/-- The only refusal: a command whose meaning is not written. -/
inductive Refusal where
  /-- Raised by an arm of `exec` that has no meaning yet; none is left. Safe. -/
  | notModelled (mnemonic : String)
deriving DecidableEq, Repr

/-- The registers after reset (R32). -/
def Regs.reset : Regs :=
  { cmd := 0x00#8, status := 0x00#8, errcode := 0x00#8, srcLen := 0, dstLen := 0, bitLen := 0, nsym := 0,
    pad := 0x00#8, progress := 0 }

/-- No element of any memory holds a value after reset, and every `CT[b].V` is 0 (R32). -/
def Mems.reset : Mems :=
  { src := [], dst := [], bbuf := [], ct := [] }

/-- The working registers after reset: unspecified and never observed (R25, R32). Zero is a DESIGN CHOICE: log 2. -/
def Work.reset : Work :=
  { sh := 0#8, bc := 0, si := 0, di := 0, bi := 0, nb := 0, node := [], rv := 0#8, rc := 0#8 }

/-- The machine right after reset (R32), with a host that has done nothing and plans nothing. -/
def State.reset : State :=
  { params := Config.defaultParams, regs := Regs.reset, mems := Mems.reset, work := Work.reset, draws := 0,
    host := { events := [], seen := [], busyTime := [], reads := 0, lastProgress := 0 } }

end Sys2Proof.Machine
end

