-- ==== Sys2Proof/Machine/Flags.lean ====
section
/-! DEFINITION. STATUS, its three flags and its four values (R12), and the causes and kinds of a fault (R191, R192). -/

namespace Sys2Proof.Machine

/-- No command since reset. -/
def statusNone : BitVec 8 := 0x00#8
/-- Busy. -/
def statusBusy : BitVec 8 := 0x01#8
/-- Completed with success. -/
def statusOk : BitVec 8 := 0x02#8
/-- Completed with a fault. -/
def statusFault : BitVec 8 := 0x06#8

/-- `STATUS.BUSY`, bit 0 (R12). -/
def State.busy (s : State) : Bool := s.regs.status.getLsbD 0
/-- `STATUS.DONE`, bit 1 (R12). -/
def State.done (s : State) : Bool := s.regs.status.getLsbD 1
/-- `STATUS.ERR`, bit 2 (R12). -/
def State.err (s : State) : Bool := s.regs.status.getLsbD 2

/-- The causes of R192 that a command can raise; `E_NONE` is no fault. -/
inductive Cause where
  | unsupported
  | emptyBuffer
  | padExceeds
  | oddLength
  | badTable
  | corruptStream
  | capacity
deriving DecidableEq, Repr

/-- The error kinds of R191 that the block raises. `EmptyInput`, `IOFailure` and `EmptyArchive` are the
environment's. -/
inductive Kind where
  | unsupportedScheme
  | malformedArchive
  | corruptStream
  | bufferOverflow
deriving DecidableEq, Repr

/-- The ERRCODE value of a cause (R192). -/
def Cause.code : Cause → BitVec 8
  | .unsupported => 1#8
  | .emptyBuffer => 2#8
  | .padExceeds => 3#8
  | .oddLength => 4#8
  | .badTable => 5#8
  | .corruptStream => 6#8
  | .capacity => 7#8

/-- The kind of a cause (R192). -/
def Cause.kind : Cause → Kind
  | .unsupported => .unsupportedScheme
  | .emptyBuffer => .malformedArchive
  | .padExceeds => .malformedArchive
  | .oddLength => .malformedArchive
  | .badTable => .malformedArchive
  | .corruptStream => .corruptStream
  | .capacity => .bufferOverflow

/-- The padding count of `n` bits: `(8 - (n mod 8)) mod 8`, 0 to 7 (R35, R65, R80). -/
def padOf (n : Nat) : Nat := (8 - n % 8) % 8

end Sys2Proof.Machine
end

