-- ==== Sys2Proof/Machine/Ops.lean ====
section
/-! DEFINITION. The shared operations: memory, the updates of the state's parts, running pseudocode with `raise`
and `for`, the two writes `DstWrite` and `BitWrite` (R55), and a command's start (R29) and its two completions
(R30, R193). -/

namespace Sys2Proof.Machine

/-! ## Memories -/

/-- The element at index `a`, where one has been written. -/
def Memory.read {α : Type} : Memory α → Nat → Option α
  | [], _ => none
  | (k, v) :: t, a => if k = a then some v else Memory.read t a

/-- Element `a` set to `v`, the list kept rising. -/
def Memory.write {α : Type} : Memory α → Nat → α → Memory α
  | [], a, v => [(a, v)]
  | (k, w) :: t, a, v =>
    if a < k then (a, v) :: (k, w) :: t
    else if a = k then (a, v) :: t
    else (k, w) :: Memory.write t a v

/-- The canonical form: indices strictly rising. -/
abbrev Memory.wf {α : Type} (m : Memory α) : Prop := m.Pairwise (fun x y => x.1 < y.1)

/-- Every index lies below `cap`. -/
abbrev Memory.below {α : Type} (m : Memory α) (cap : Nat) : Prop := ∀ x ∈ m, x.1 < cap

/-- Every element of BBUF loses its value, and keeps the bit it physically holds (R33; R29: "Memory contents are not
cleared"). -/
def markStale (m : Memory BitCell) : Memory BitCell :=
  m.map fun x => (x.1, { x.2 with live := false })

/-! ## The updates of the state's parts -/

abbrev State.updRegs (s : State) (f : Regs → Regs) : State := { s with regs := f s.regs }
abbrev State.updMems (s : State) (f : Mems → Mems) : State := { s with mems := f s.mems }
abbrev State.updWork (s : State) (f : Work → Work) : State := { s with work := f s.work }
abbrev State.updHost (s : State) (f : HostSide → HostSide) : State := { s with host := f s.host }

/-! ## Running pseudocode -/

/-- Where a piece of pseudocode leaves the block: at its end, or at a `raise`, with everything written before it
(R193). -/
inductive Run where
  | done (s : State)
  | raised (c : Cause) (s : State)
deriving DecidableEq, Repr

/-- "Nothing after a `raise` runs" (`00_scope.md` 6.2). -/
def Run.andThen (r : Run) (f : State → Run) : Run :=
  match r with
  | .done s => f s
  | .raised c s => .raised c s

/-- The state a piece of pseudocode leaves. -/
def Run.state : Run → State
  | .done s => s
  | .raised _ s => s

/-- `if p: raise c`. -/
def raiseIf (p : Prop) [Decidable p] (c : Cause) (s : State) : Run :=
  if p then .raised c s else .done s

/-- `for i in k .. k+n-1`: `n` rounds, the index counting up from `k`. -/
def forUp (f : Nat → State → Run) : Nat → Nat → State → Run
  | 0, _, s => .done s
  | n + 1, k, s => (f k s).andThen (forUp f n (k + 1))

/-- `for x in xs`, in the list's order. -/
def forEach {α : Type} (f : α → State → Run) : List α → State → Run
  | [], s => .done s
  | x :: xs, s => (f x s).andThen (forEach f xs)

/-! ## The two writes (R55) -/

/-- `DstWrite(i, v)`. -/
def dstWrite (i : Nat) (v : Byte) (s : State) : Run :=
  if s.params.dstCap ≤ i then .raised .capacity s
  else .done ((s.updMems fun m => { m with dst := Memory.write m.dst i v }).updRegs fun r => { r with dstLen := i + 1 })

/-- `BitWrite(i, v)`. -/
def bitWrite (i : Nat) (v : Bool) (s : State) : Run :=
  if s.params.bitCap ≤ i then .raised .capacity s
  else .done ((s.updMems fun m => { m with bbuf := Memory.write m.bbuf i { bit := v, live := true } }).updRegs
    fun r => { r with bitLen := i + 1 })

/-- `DstWrite(DI, v) ; DI <- DI + 1`, as every command but PACK's first write has it. -/
def emitByte (v : Byte) (s : State) : Run :=
  (dstWrite s.work.di v s).andThen fun t => .done (t.updWork fun w => { w with di := w.di + 1 })

/-! ## Start and completion -/

/-- The first four writes of a command start: `CMD`, `STATUS`, `ERRCODE`, `PROGRESS` (R29). -/
def latchWord (w : BitVec 8) (s : State) : State :=
  s.updRegs fun r => { r with cmd := w, status := statusBusy, errcode := 0#8, progress := 0 }

/-- The cleared set of each command (R29). UNPACK and HDEC, which set `BIT_LEN` to 0 here, take their value from all
bits that stood in BBUF (R33). -/
def clearSet : Instr → State → State
  | .pack, s => s.updRegs fun r => { r with dstLen := 0, pad := 0#8 }
  | .unpack, s =>
    (s.updRegs fun r => { r with bitLen := 0, pad := 0#8 }).updMems fun m => { m with bbuf := markStale m.bbuf }
  | .hwalk, s => s.updRegs fun r => { r with dstLen := 0 }
  | .hdec, s =>
    (s.updRegs fun r => { r with bitLen := 0, pad := 0#8, dstLen := 0 }).updMems
      fun m => { m with bbuf := markStale m.bbuf }
  | .rled, s => s.updRegs fun r => { r with dstLen := 0 }

/-- The start of a valid command (R29). -/
def startCommand (i : Instr) (s : State) : State :=
  clearSet i (latchWord (encode i) s)

/-- The number of source elements of a command (R19). PACK and HWALK leave `BIT_LEN`, and no command writes
`SRC_LEN`, so it may be read at any moment of the command. -/
def sourceCount : Instr → State → Nat
  | .pack, s => s.regs.bitLen
  | .unpack, s => s.regs.srcLen
  | .hwalk, s => s.regs.bitLen
  | .hdec, s => s.regs.srcLen
  | .rled, s => s.regs.srcLen

/-- Successful completion (R30); `n` is the number of source elements. -/
def succeed (n : Nat) (s : State) : State :=
  { s.updRegs (fun r => { r with status := statusOk, progress := n }) with draws := s.draws + 1 }

/-- Fault completion (R193), the one way a command reports an error: `STATUS` 0x06, the cause in `ERRCODE`, `PROGRESS`
any value from 0 to `n`. Nothing else changes, and control goes nowhere (R190); there is no return (R205). -/
def takeFault (c : Cause) (n : Nat) (s : State) : State :=
  { s.updRegs (fun r => { r with status := statusFault, errcode := c.code,
                                 progress := Config.freeProgress s.draws % (n + 1) }) with draws := s.draws + 1 }

/-- The completion of a command whose pseudocode ended in `r`. -/
def settle (n : Nat) : Run → State
  | .done s => succeed n s
  | .raised c s => takeFault c n s

/-- A whole command: its start, its body, its completion (R29, R30, R193), one atomic step (R31). -/
def runCommand (i : Instr) (body : State → Run) (s : State) : State :=
  settle (sourceCount i (startCommand i s)) (body (startCommand i s))

/-- A reserved word: the command starts and at once ends in `E_UNSUPPORTED`; nothing is cleared (R62, R203). It has no
source elements, so `PROGRESS` ends at 0 (log 11). -/
def runReserved (w : BitVec 8) (s : State) : State :=
  takeFault .unsupported 0 (latchWord w s)

end Sys2Proof.Machine
end

