-- ==== Sys2Proof/Machine/Operands.lean ====
section
/-! DEFINITION. The implicit operands of the commands (R63): the reads `SrcRead` and `BitRead` (R41), the code table
as a list of codes (`Valid`, `Code`: R24, R68), and the numbers assembled from data (R73). -/

namespace Sys2Proof.Machine

/-- `SrcRead(i)` (R41). An element that holds no value gives any Byte, the same one throughout a command (R33, U9). -/
def srcRead (s : State) (i : Nat) : Byte :=
  (Memory.read s.mems.src i).getD (Config.freeByte s.draws i)

/-- The bit of a BBUF element that holds a value (R33). -/
def liveBit (m : Memory BitCell) (i : Nat) : Option Bool :=
  match Memory.read m i with
  | some c => if c.live then some c.bit else none
  | none => none

/-- `BitRead(i)` (R41). An element that holds no value gives any bit, the same one throughout a command (R33, U9). -/
def bitRead (s : State) (i : Nat) : Bool :=
  (liveBit s.mems.bbuf i).getD (Config.freeBit s.draws i)

/-- The Bytes `SRC[0 .. SRC_LEN)` as a command reads them. -/
def srcBytes (s : State) : List Byte := (List.range s.regs.srcLen).map (srcRead s)

/-- The bits `BBUF[0 .. BIT_LEN)` as a command reads them. -/
def bbufBits (s : State) : Bits := (List.range s.regs.bitLen).map (bitRead s)

/-- The code of an entry: `CODE[0 .. LEN)` (R24). -/
def CtEntry.codeBits (e : CtEntry) : Bits :=
  (List.range e.len.toNat).map e.code.getLsbD

/-- `Valid(b)` and `Code(b)` in one: the code of Byte `b`, where it has one. An entry nothing has written has
`V = 0` (R32). -/
def codeOf (ct : Memory CtEntry) (b : Nat) : Option Bits :=
  match Memory.read ct b with
  | some e => if e.v then some e.codeBits else none
  | none => none

/-- The valid codes of the table by ascending Byte: the set `S` of R100 with `Code`, and the leaves of `TREE` (R27). -/
def codeList (ct : Memory CtEntry) : List (Byte × Bits) :=
  (List.range Config.ctEntries).filterMap fun b => (codeOf ct b).map fun c => (BitVec.ofNat 8 b, c)

/-- A bit as a number of one Byte. -/
def bitByte (x : Bool) : Byte := if x then 1#8 else 0#8

/-- The shift step of R35: `SH <- ((SH * 2) mod 256) + x`. -/
def shiftIn (sh : Byte) (x : Bool) : Byte := sh * 2#8 + bitByte x

end Sys2Proof.Machine
end

