-- ==== Sys2Proof/Machine/BitPacker.lean ====
section
/-! DEFINITION. The BitPacker commands PACK (R80) and UNPACK (R83). -/

namespace Sys2Proof.Machine

/-! ## PACK -/

/-- One round of PACK's loop, with `BI = k` (R80). -/
def packBit (k : Nat) (s : State) : Run :=
  let x := if k < s.work.nb then bitRead s k else false
  let t := s.updWork fun w => { w with bi := k, sh := shiftIn w.sh x, bc := w.bc + 1 }
  if t.work.bc = 8 then
    (emitByte t.work.sh t).andThen fun u => .done (u.updWork fun w => { w with sh := 0#8, bc := 0 })
  else .done t

/-- The pseudocode of PACK (R80). -/
def packBody (s : State) : Run :=
  (raiseIf (s.params.bitCap < s.regs.bitLen) .capacity s).andThen fun s =>
  let n := s.regs.bitLen
  let s := (s.updWork fun w => { w with nb := n }).updRegs fun r => { r with pad := BitVec.ofNat 8 (padOf n) }
  (dstWrite 0 s.regs.pad s).andThen fun s =>
  forUp packBit (n + padOf n) 0 (s.updWork fun w => { w with di := 1, sh := 0#8, bc := 0 })

/-- PACK (R80). -/
def execPack (s : State) : Host.Outcome State Fault Refusal :=
  .next (runCommand .pack packBody s)

/-! ## UNPACK -/

/-- The inner round of UNPACK's loop: bit `k` of `SH` (R83). -/
def unpackBit (k : Nat) (s : State) : Run :=
  if s.work.bi < s.work.nb then
    (bitWrite s.work.bi (s.work.sh.getLsbD k) s).andThen fun t => .done (t.updWork fun w => { w with bi := w.bi + 1 })
  else .done s

/-- The outer round, with `SI = i`: one source Byte, most significant bit first (R42, R83). -/
def unpackByte (i : Nat) (s : State) : Run :=
  forEach unpackBit [7, 6, 5, 4, 3, 2, 1, 0] (s.updWork fun w => { w with si := i, sh := srcRead s i })

/-- The body of UNPACK after the capacity check, which is also the unpack phase of HDEC (R83, R105). -/
def unpackPhase (s : State) : Run :=
  (raiseIf (s.regs.srcLen < 1) .emptyBuffer s).andThen fun s =>
  let s := s.updRegs fun r => { r with pad := srcRead s 0 }
  (raiseIf (8 * (s.regs.srcLen - 1) < s.regs.pad.toNat) .padExceeds s).andThen fun s =>
  let s := s.updWork fun w => { w with nb := 8 * (s.regs.srcLen - 1) - s.regs.pad.toNat, bi := 0 }
  forUp unpackByte (s.regs.srcLen - 1) 1 s

/-- The pseudocode of UNPACK (R83). -/
def unpackBody (s : State) : Run :=
  (raiseIf (s.params.srcCap < s.regs.srcLen) .capacity s).andThen unpackPhase

/-- UNPACK (R83). -/
def execUnpack (s : State) : Host.Outcome State Fault Refusal :=
  .next (runCommand .unpack unpackBody s)

end Sys2Proof.Machine
end

