-- ==== Sys2Proof/Machine/Huffman.lean ====
section
/-! DEFINITION. The Huffman decode commands HWALK (R103) and HDEC (R105): the table check, one step of the walk, the
degenerate walk. -/

namespace Sys2Proof.Machine

/-- The table passes: at least one valid entry, and no valid code a prefix of, or equal to, another (R100). -/
def tablePasses (codes : List (Byte × Bits)) : Bool :=
  !codes.isEmpty && codes.all fun a => codes.all fun b => a.1 == b.1 || !a.2.isPrefixOf b.2

/-- `TableCheck` (R100). -/
def tableCheck (s : State) : Run :=
  raiseIf (tablePasses (codeList s.mems.ct) = false) .badTable s

/-- The one Byte of a degenerate table: exactly one valid entry, with the empty code (R101). -/
def degenerateByte : List (Byte × Bits) → Option Byte
  | [(b, [])] => some b
  | _ => none

/-- The outcome of one step of the walk (R102). -/
inductive StepOutcome where
  | emit (b : Byte)
  | descend
  | dead
deriving DecidableEq, Repr

/-- `Step(p, x)` (R102): a leaf, an internal node, or no node. `descend` is the spec's `Continue`. -/
def treeStep (codes : List (Byte × Bits)) (p : Bits) (x : Bool) : StepOutcome :=
  let q := p ++ [x]
  match codes.find? fun e => e.2 == q with
  | some e => .emit e.1
  | none => if codes.any fun e => q.isPrefixOf e.2 && decide (q.length < e.2.length) then .descend else .dead

/-- One round of the walk, with `BI = k` (R103). -/
def walkBit (codes : List (Byte × Bits)) (k : Nat) (s : State) : Run :=
  let x := bitRead s k
  let s := s.updWork fun w => { w with bi := k }
  match treeStep codes s.work.node x with
  | .emit b => (emitByte b s).andThen fun t => .done (t.updWork fun w => { w with node := [] })
  | .descend => .done (s.updWork fun w => { w with node := w.node ++ [x] })
  | .dead => .raised .corruptStream s

/-- `DegenerateWalk(b0)` (R104). -/
def degenerateWalk (b0 : Byte) (s : State) : Run :=
  (raiseIf (s.regs.bitLen ≠ 0) .corruptStream s).andThen fun s =>
  forUp (fun _ => emitByte b0) s.regs.nsym 1 s

/-- The walk from the root over all of BBUF, and the check that it ends at the root (R103). -/
def treeWalk (codes : List (Byte × Bits)) (s : State) : Run :=
  (forUp (walkBit codes) s.regs.bitLen 0 (s.updWork fun w => { w with node := [] })).andThen fun s =>
  raiseIf (s.work.node ≠ []) .corruptStream s

/-- `Walk` (R103). -/
def walk (s : State) : Run :=
  let codes := codeList s.mems.ct
  let s := s.updWork fun w => { w with di := 0 }
  match degenerateByte codes with
  | some b0 => degenerateWalk b0 s
  | none => treeWalk codes s

/-- The pseudocode of HWALK (R103). -/
def hwalkBody (s : State) : Run :=
  (raiseIf (s.params.bitCap < s.regs.bitLen) .capacity s).andThen fun s =>
  (tableCheck s).andThen walk

/-- HWALK (R103). -/
def execHwalk (s : State) : Host.Outcome State Fault Refusal :=
  .next (runCommand .hwalk hwalkBody s)

/-- The pseudocode of HDEC (R105). -/
def hdecBody (s : State) : Run :=
  (raiseIf (s.params.srcCap < s.regs.srcLen) .capacity s).andThen fun s =>
  (tableCheck s).andThen fun s =>
  (unpackPhase s).andThen walk

/-- HDEC (R105). -/
def execHdec (s : State) : Host.Outcome State Fault Refusal :=
  .next (runCommand .hdec hdecBody s)

end Sys2Proof.Machine
end

