-- ==== Sys2Proof/Machine/Rle.lean ====
section
/-! DEFINITION. The RLE decode command RLED (R130). -/

namespace Sys2Proof.Machine

/-- One pair, number `k`: the value Byte at the even offset, the count at the odd one (R67, R130). -/
def rlePair (k : Nat) (s : State) : Run :=
  let s := s.updWork fun w => { w with si := 2 * k, rv := srcRead s (2 * k), rc := srcRead s (2 * k + 1) }
  forUp (fun _ => emitByte s.work.rv) s.work.rc.toNat 1 s

/-- The pseudocode of RLED (R130). -/
def rledBody (s : State) : Run :=
  (raiseIf (s.params.srcCap < s.regs.srcLen) .capacity s).andThen fun s =>
  (raiseIf (s.regs.srcLen % 2 = 1) .oddLength s).andThen fun s =>
  forUp rlePair (s.regs.srcLen / 2) 0 (s.updWork fun w => { w with di := 0 })

/-- RLED (R130). -/
def execRled (s : State) : Host.Outcome State Fault Refusal :=
  .next (runCommand .rled rledBody s)

end Sys2Proof.Machine
end

