-- ==== Sys2Proof/Machine/Dispatch.lean ====
section
/-! DEFINITION. One arm per command. -/

namespace Sys2Proof.Machine

def exec (i : Instr) (s : State) : Host.Outcome State Fault Refusal :=
  match i with
  | .pack => Sys2Proof.Machine.execPack s
  | .unpack => Sys2Proof.Machine.execUnpack s
  | .hwalk => Sys2Proof.Machine.execHwalk s
  | .hdec => Sys2Proof.Machine.execHdec s
  | .rled => Sys2Proof.Machine.execRled s

end Sys2Proof.Machine
end

