-- ==== Sys2Proof/Machine/Lifecycle.lean ====
section
/-! DEFINITION. A command seen in two moments: its start and its end (R29, R30, R31, R193), for a host that acts
while the block is busy (R146). -/

namespace Sys2Proof.Machine

/-- The pseudocode of each command. -/
def body : Instr → State → Run
  | .pack => packBody
  | .unpack => unpackBody
  | .hwalk => hwalkBody
  | .hdec => hdecBody
  | .rled => rledBody

/-- The end of a command that has started: its body and its completion. -/
def finishCommand (i : Instr) (s : State) : State :=
  settle (sourceCount i s) (body i s)

/-- The end of the command whose word `CMD` holds. No reserved word is ever left running, since it ends at once
(R62). -/
def finishRunning (s : State) : State :=
  match decode s.regs.cmd with
  | .command i => finishCommand i s
  | .reserved _ => takeFault .unsupported 0 s

/-- The number of source elements of the running command (R19). -/
def runningCount (s : State) : Nat :=
  match decode s.regs.cmd with
  | .command i => sourceCount i s
  | .reserved _ => 0

end Sys2Proof.Machine
end

