-- ==== Sys2Proof/Machine/HostOps.lean ====
section
/-! DEFINITION. What the outside world does: the host operations while the block is idle (R141 to R144) and while it
is busy (R146), the reset input (R220, R221), and the notation of host programs (R71, R72). -/

namespace Sys2Proof.Machine

/-! ## Registers by number -/

/-- The value of register `r` as one whole number; 0 for a reserved number (R20, R141). -/
def readReg (r : Nat) (s : State) : Nat :=
  match r with
  | 0 => s.regs.cmd.toNat
  | 1 => s.regs.status.toNat
  | 2 => s.regs.errcode.toNat
  | 3 => s.regs.srcLen
  | 4 => s.regs.dstLen
  | 5 => s.regs.bitLen
  | 6 => s.regs.nsym
  | 7 => s.regs.pad.toNat
  | 8 => s.regs.progress
  | _ => 0

/-- A host write of a register other than `CMD`: `SRC_LEN`, `BIT_LEN` and `NSYM` take `v mod 2^LENW`; a read-only or
reserved one changes nothing (R20, R142). -/
def writeReg (r v : Nat) (s : State) : State :=
  match r with
  | 3 => s.updRegs fun g => { g with srcLen := v % 2 ^ s.params.lenw }
  | 5 => s.updRegs fun g => { g with bitLen := v % 2 ^ s.params.lenw }
  | 6 => s.updRegs fun g => { g with nsym := v % 2 ^ s.params.lenw }
  | _ => s

/-- What a read of register `r` returns where it may return any value: a number of the register's width
(`10_state.md` section 2). A reserved number has no width and any number may come back (log 8). -/
def anyReg (r : Nat) (s : State) : Nat :=
  match r with
  | 0 | 1 | 2 | 7 => Config.hostWord s.host.reads % 2 ^ 8
  | 3 | 4 | 5 | 6 | 8 => Config.hostWord s.host.reads % 2 ^ s.params.lenw
  | _ => Config.hostWord s.host.reads

/-! ## Memories -/

/-- An entry of `CT` as the host reads it: one nothing has written has `V = 0` and any `LEN` and `CODE` (R32). -/
def ctRead (s : State) (i : Nat) : CtEntry :=
  (Memory.read s.mems.ct i).getD
    { v := false, len := Config.hostLen s.host.reads, code := Config.hostCode s.host.reads }

/-- The element of SRC the host reads, where it holds a value (R33, R143). -/
def srcValue (s : State) (i : Nat) : Option Byte :=
  if i < s.params.srcCap then Memory.read s.mems.src i else none

/-- The element of DST the host reads, where it holds a value: none does at or above `DST_LEN` (R33, R143). -/
def dstValue (s : State) (i : Nat) : Option Byte :=
  if i < s.params.dstCap ∧ i < s.regs.dstLen then Memory.read s.mems.dst i else none

/-- The element of BBUF the host reads, where it holds a value (R33, R143). -/
def bbufValue (s : State) (i : Nat) : Option Bool :=
  if i < s.params.bitCap then liveBit s.mems.bbuf i else none

/-- An entry of any value, for a read that returns one (R143, R146). -/
def anyEntry (s : State) : CtEntry :=
  { v := Config.hostBit s.host.reads, len := Config.hostLen s.host.reads, code := Config.hostCode s.host.reads }

/-- What `mrd MEM[i]` returns while the block is idle (R143). An element that holds no value, or an index at or above
the capacity, gives any value. -/
def peek (m : MemName) (i : Nat) (s : State) : Seen :=
  match m with
  | .src => .byte ((srcValue s i).getD (Config.hostByte s.host.reads))
  | .dst => .byte ((dstValue s i).getD (Config.hostByte s.host.reads))
  | .bbuf => .bit ((bbufValue s i).getD (Config.hostBit s.host.reads))
  | .ct => .entry (if i < Config.ctEntries then ctRead s i else anyEntry s)

/-- What `mrd MEM[i]` returns while the block is busy: any value (R146). -/
def peekBusy (m : MemName) (s : State) : Seen :=
  match m with
  | .src => .byte (Config.hostByte s.host.reads)
  | .dst => .byte (Config.hostByte s.host.reads)
  | .bbuf => .bit (Config.hostBit s.host.reads)
  | .ct => .entry (anyEntry s)

/-- `mwr SRC[i], v` (R144). -/
def writeSrc (i : Nat) (v : Byte) (s : State) : State :=
  if i < s.params.srcCap then s.updMems fun m => { m with src := Memory.write m.src i v } else s

/-- `mwr BBUF[i], v`: the element takes the value, whatever `BIT_LEN` holds (R33, R144). -/
def writeBbuf (i : Nat) (v : Bool) (s : State) : State :=
  if i < s.params.bitCap then
    s.updMems fun m => { m with bbuf := Memory.write m.bbuf i { bit := v, live := true } }
  else s

/-- `mwr CT[i], (V, LEN, CODE)`: a whole entry (R144). -/
def writeCt (i : Nat) (e : CtEntry) (s : State) : State :=
  if i < Config.ctEntries then s.updMems fun m => { m with ct := Memory.write m.ct i e } else s

/-! ## The outside world's turns -/

/-- The host has read `v`. -/
def note (v : Seen) (s : State) : State :=
  s.updHost fun h => { h with seen := v :: h.seen, reads := h.reads + 1 }

/-- The reset input (R220, R221): every register as R32 states, no element of any memory with a value, the working
registers as after any reset (log 2). The instance and the host stay. -/
def resetBlock (s : State) : State :=
  { s with regs := Regs.reset, mems := Mems.reset, work := Work.reset }

/-- One event while the block is idle. A write of `CMD` is the command start and is `step`'s (R145). -/
def idleEvent (e : Event) (s : State) : State :=
  match e with
  | .hrd r => note (.reg r (readReg r s)) s
  | .hwr r v => writeReg r v s
  | .mrd m i => note (peek m i s) s
  | .mwrSrc i v => writeSrc i v s
  | .mwrDst _ _ => s
  | .mwrBbuf i v => writeBbuf i v s
  | .mwrCt i v => writeCt i v s
  | .wait => note (.reg 1 (readReg 1 s)) s
  | .reset => resetBlock s

/-- What a read of `PROGRESS` returns while busy: any value from the last one read up to the number of source
elements (R19). It is a parameter, not the register's content (R34), which stays 0 until completion (R29, R30). -/
def busyProgress (s : State) : Nat :=
  s.host.lastProgress + Config.busyProgress s.host.reads % (runningCount s - s.host.lastProgress + 1)

/-- The host has read `v` of `PROGRESS` while busy. -/
def noteProgress (v : Nat) (s : State) : State :=
  (note (.reg 8 v) s).updHost fun h => { h with lastProgress := v }

/-- A command starts: the host has read nothing of its `PROGRESS` yet. -/
def forgetProgress (s : State) : State := s.updHost fun h => { h with lastProgress := 0 }

/-- `hrd REG` while busy (R146): `STATUS` as it is, `PROGRESS` as R19 allows, any value otherwise. The block stays as
it is (R45). -/
def busyReadReg (r : Nat) (s : State) : State :=
  match r with
  | 1 => note (.reg 1 (readReg 1 s)) s
  | 8 => noteProgress (busyProgress s) s
  | _ => note (.reg r (anyReg r s)) s

/-- One event while the block is busy (R146): reads as `busyReadReg` and `peekBusy`, every write ignored, `wait` still
waiting, and `reset` ending the command without a result (R221). -/
def busyEvent (e : Event) (s : State) : State :=
  match e with
  | .hrd r => busyReadReg r s
  | .hwr _ _ => s
  | .mrd m _ => note (peekBusy m s) s
  | .mwrSrc _ _ => s
  | .mwrDst _ _ => s
  | .mwrBbuf _ _ => s
  | .mwrCt _ _ => s
  | .wait => (busyReadReg 1 s).updHost fun h => { h with events := .wait :: h.events }
  | .reset => (resetBlock s).updHost fun h => { h with busyTime := h.busyTime.tail }

/-- The next event is taken from the plan. -/
def popEvent (s : State) : State := s.updHost fun h => { h with events := h.events.tail }

/-- The `BUSY_TIME` of the command that starts or runs (R230, `92` "Open parameters"). -/
def busyFor (s : State) : Nat := s.host.busyTime.headD 0

/-- The `BUSY_TIME` of this command is used up: the next command has the next one. -/
def popBusy (s : State) : State := s.updHost fun h => { h with busyTime := h.busyTime.tail }

/-- One turn of the host passes while the block is busy. -/
def tickBusy (s : State) : State :=
  s.updHost fun h => { h with busyTime := (h.busyTime.headD 0 - 1) :: h.busyTime.tail }

/-- The host's turn while the block is busy: its next event, if it has one. -/
def busyTurn (s : State) : State :=
  match s.host.events with
  | [] => tickBusy s
  | e :: _ => busyEvent e (tickBusy (popEvent s))

/-! ## Host programs (R71, R72) -/

/-- `cmd <mnemonic>`: `hwr CMD, w`. -/
def cmdOf (i : Instr) : List Event := [.hwr 0 (encode i).toNat]

/-- `load SRC = b0 b1 …`. -/
def loadSrc (bs : List Byte) : List Event :=
  (bs.zipIdx.map fun x => Event.mwrSrc x.2 x.1) ++ [.hwr 3 bs.length]

/-- `load BBUF = "x0x1…"`. -/
def loadBbuf (xs : Bits) : List Event :=
  (xs.zipIdx.map fun x => Event.mwrBbuf x.2 x.1) ++ [.hwr 5 xs.length]

/-- The 255 bits of a `CODE` field that starts with `c`, zero after it. -/
def codeWord : Bits → BitVec 255
  | [] => 0#255
  | x :: c => (codeWord c <<< 1) ||| (if x then 1#255 else 0#255)

/-- The entry written `(1, |code|, "code")` (R71). -/
def entryOf (c : Bits) : CtEntry :=
  { v := true, len := BitVec.ofNat 8 c.length, code := codeWord c }

/-- The entry written `(0, -, -)` (R71); what stands for the dashes is the host's choice and means nothing (R68). -/
def noEntry : CtEntry := { v := false, len := 0#8, code := 0#255 }

/-- `table { b: "code", … }`: all 256 entries, a Byte that is not listed getting `V = 0` (R72). -/
def loadTable (codes : List (Byte × Bits)) : List Event :=
  (List.range Config.ctEntries).map fun b =>
    match codes.find? fun e => e.1.toNat == b with
    | some e => Event.mwrCt b (entryOf e.2)
    | none => Event.mwrCt b noEntry

end Sys2Proof.Machine
end

