-- ==== Sys2Proof/Machine/Step.lean ====
section
/-! DEFINITION. One step: the next thing that happens to the block. -/

namespace Sys2Proof.Machine

/-- The write of a word to `CMD` while the block is idle (R29, R145). A reserved word starts and ends at once (R62).
A command with `BUSY_TIME` 0 runs whole (R31); with more, it starts, and its body runs when the time is used up. -/
def startWord (w : BitVec 8) (s : State) : Host.Outcome State Fault Refusal :=
  match decode w with
  | .reserved _ => .next (runReserved w s)
  | .command i =>
    match busyFor s with
    | 0 => exec i (popBusy s)
    | _ + 1 => .next (startCommand i (forgetProgress s))

/-- One step. A busy block lets the host have the turns of `BUSY_TIME` and then ends its command. An idle block does
nothing by itself (R32, R140): the next event of the outside world happens, and a write of `CMD` starts a command. -/
def step (s : State) : Host.Outcome State Fault Refusal :=
  if s.busy then
    match busyFor s with
    | 0 => .next (finishRunning (popBusy s))
    | _ + 1 => .next (busyTurn s)
  else
    match s.host.events with
    | [] => .next s
    | .hwr 0 v :: _ => startWord (BitVec.ofNat 8 v) (popEvent s)
    | e :: _ => .next (idleEvent e (popEvent s))

/-- The host form of "the next instruction": the host's next act is the write of that word to `CMD`, with the block
idle and `BUSY_TIME` 0 for it, so the next step runs exactly that command (log 5). A command is one 8-bit word
whatever `nbits` says. -/
def State.withFetchWord (s : State) (_nbits w : Nat) : State :=
  (s.updRegs fun r => { r with status := r.status &&& 0xFE#8 }).updHost fun h =>
    { h with events := .hwr 0 (w % 256) :: h.events, busyTime := 0 :: h.busyTime }

end Sys2Proof.Machine
end

