-- ==== Sys2Proof/Machine/Environment.lean ====
section
/-! DEFINITION. The functions of the document itself, on sequences, and the software around the block that produces
its inputs (`45_environment.md`). Nothing here is part of the machine (R160); round-trip claims are stated with it. -/

namespace Sys2Proof.Machine

/-! ## The packed payload (R64 to R66, R81, R84) -/

/-- The number whose binary digits are `x`, first bit most significant: the sum over `k` of `x[k] * 2^(|x|-1-k)`. -/
def bitsValue : Bits → Nat
  | [] => 0
  | x :: xs => x.toNat * 2 ^ xs.length + bitsValue xs

/-- A bit sequence extended with zero bits to a multiple of 8 (R42, R81). -/
def padded (bits : Bits) : Bits := bits ++ List.replicate (padOf bits.length) false

/-- Data Byte `m` of the payload of `bits`, from 0: bits `8m` to `8m+7`, first bit in bit 7 (R42, R81). -/
def dataByte (bits : Bits) (m : Nat) : Byte :=
  BitVec.ofNat 8 (bitsValue (((padded bits).drop (8 * m)).take 8))

/-- The document's `pack` (R81): the padding count, then the data Bytes. -/
def packBytes (bits : Bits) : List Byte :=
  BitVec.ofNat 8 (padOf bits.length) :: (List.range ((padded bits).length / 8)).map (dataByte bits)

/-- Bit `j` of all the bits of a payload: `B[1 + j/8][7 - (j mod 8)]` (R66, R84). -/
def payloadBit (B : List Byte) (j : Nat) : Bool := (B.getD (1 + j / 8) 0#8).getLsbD (7 - j % 8)

/-- The bits a payload holds once its padding is dropped (R84): the document's `unpack` where it does not fail. -/
def unpackBits (B : List Byte) : Bits :=
  (List.range (8 * (B.length - 1) - (B.getD 0 0#8).toNat)).map (payloadBit B)

/-! ## Decoding with a code table (R106, R109) -/

/-- `Dec(T, s)` of R109 as a relation: `s` is the concatenation of the codes of the Bytes `out`. -/
inductive Decodes (codes : List (Byte × Bits)) : Bits → List Byte → Prop where
  | nil : Decodes codes [] []
  | cons (b : Byte) (c : Bits) (r : Bits) (out : List Byte) :
      (b, c) ∈ codes → Decodes codes r out → Decodes codes (c ++ r) (b :: out)

/-- The document's greedy match (R106): the Bytes it outputs, and the accumulator at the end of the bits. -/
def greedy (codes : List (Byte × Bits)) : Bits → Bits → List Byte × Bits
  | acc, [] => ([], acc)
  | acc, x :: xs =>
    match codes.find? fun e => e.2 == acc ++ [x] with
    | some e => (e.1 :: (greedy codes [] xs).1, (greedy codes [] xs).2)
    | none => greedy codes (acc ++ [x]) xs

/-! ## RLE (R131, R168) -/

/-- The expansion of a sequence of (Byte, count) pairs (R131); a last Byte without a count is left out. -/
def rleExpand : List Byte → List Byte
  | v :: c :: rest => List.replicate c.toNat v ++ rleExpand rest
  | _ => []

/-- The pairs of a buffer whose current run is `c` copies of `v` (R168). -/
def rleRuns (v : Byte) (c : Nat) : List Byte → List Byte
  | [] => [v, BitVec.ofNat 8 c]
  | x :: xs =>
    if x = v ∧ c < Config.runMax then rleRuns v (c + 1) xs
    else v :: BitVec.ofNat 8 c :: rleRuns x 1 xs

/-- `RLECodec.encode` (R168). -/
def rleEncode : List Byte → List Byte
  | [] => []
  | x :: xs => rleRuns x 1 xs

/-! ## The Huffman encode side (R162, R164, R166) -/

/-- A HuffmanNode without its weight: a leaf owns a Byte, an internal node two children (R162). -/
inductive HuffNode where
  | leaf (b : Byte)
  | node (left right : HuffNode)
deriving DecidableEq, Repr

/-- The Bytes of the leaves. -/
def HuffNode.bytes : HuffNode → List Byte
  | .leaf b => [b]
  | .node l r => l.bytes ++ r.bytes

/-- `derive_codes` (R164): "0" for left, "1" for right, the path string at each leaf. -/
def deriveCodes : HuffNode → List (Byte × Bits)
  | .leaf b => [(b, [])]
  | .node l r =>
    (deriveCodes l).map (fun e => (e.1, false :: e.2)) ++ (deriveCodes r).map (fun e => (e.1, true :: e.2))

/-- `Code(b)` in a list of codes; the empty sequence where there is none. -/
def codeIn (codes : List (Byte × Bits)) (b : Byte) : Bits :=
  ((codes.find? fun e => e.1 == b).map (·.2)).getD []

/-- The concatenation of the codes of the Bytes of `d` (R166). -/
def encodeBits (codes : List (Byte × Bits)) (d : List Byte) : Bits := d.flatMap (codeIn codes)

/-- The payload `HuffmanCodec.encode` gives for `d` with the table `codes` (R166). -/
def huffmanPayload (codes : List (Byte × Bits)) (d : List Byte) : List Byte := packBytes (encodeBits codes d)

end Sys2Proof.Machine
end

