-- ==== Sys2Proof/Safety.lean ====
section
/-! DEFINITION. The terms claims use: the invariant every step keeps, what the block is apart from its host, what a
host must do (R222, R223), and what a command's result depends on (R63). -/

namespace Sys2Proof.Machine

/-- The invariant: R6's constraints, STATUS one of its four values (R12), ERRCODE as R13 says, a running command
valid (R29, R62) with PROGRESS 0 (R29) and read within its bound (R19), every number within its register (R9, R35),
every memory canonical and within its capacity, and every element of DST below DST_LEN written (R15, R22). -/
structure Inv (s : State) : Prop where
  params_ok : s.params.wellFormed = true
  status_four : s.regs.status = statusNone ∨ s.regs.status = statusBusy ∨ s.regs.status = statusOk ∨
    s.regs.status = statusFault
  errcode_fault : s.regs.status = statusFault → 1 ≤ s.regs.errcode.toNat ∧ s.regs.errcode.toNat ≤ 7
  errcode_none : s.regs.status ≠ statusFault → s.regs.errcode = 0#8
  running_valid : s.regs.status = statusBusy → ∃ i, decode s.regs.cmd = .command i
  srcLen_fits : s.regs.srcLen < 2 ^ s.params.lenw
  bitLen_fits : s.regs.bitLen < 2 ^ s.params.lenw
  nsym_fits : s.regs.nsym < 2 ^ s.params.lenw
  progress_fits : s.regs.progress < 2 ^ s.params.lenw
  progress_busy : s.regs.status = statusBusy → s.regs.progress = 0
  lastProgress_busy : s.regs.status = statusBusy → s.host.lastProgress ≤ runningCount s
  dstLen_cap : s.regs.dstLen ≤ s.params.dstCap
  src_wf : Memory.wf s.mems.src
  dst_wf : Memory.wf s.mems.dst
  bbuf_wf : Memory.wf s.mems.bbuf
  ct_wf : Memory.wf s.mems.ct
  src_below : Memory.below s.mems.src s.params.srcCap
  dst_below : Memory.below s.mems.dst s.params.dstCap
  bbuf_below : Memory.below s.mems.bbuf s.params.bitCap
  ct_below : Memory.below s.mems.ct Config.ctEntries
  dst_written : ∀ i < s.regs.dstLen, (Memory.read s.mems.dst i).isSome = true
  bc_fits : s.work.bc ≤ 8
  si_fits : s.work.si < 2 ^ s.params.lenw
  di_fits : s.work.di < 2 ^ s.params.lenw
  bi_fits : s.work.bi < 2 ^ s.params.lenw
  nb_fits : s.work.nb < 2 ^ s.params.lenw
  node_fits : s.work.node.length < Config.maxLen

/-- The block is the same in both states; the host may differ. -/
def sameBlock (s t : State) : Prop :=
  s.params = t.params ∧ s.regs = t.regs ∧ s.mems = t.mems ∧ s.work = t.work ∧ s.draws = t.draws

/-- The host has written everything the command reads (R222), `NSYM` and the table apart, which always hold a value. -/
def inputReady : Instr → State → Prop
  | .pack, s => ∀ j < s.regs.bitLen, (liveBit s.mems.bbuf j).isSome = true
  | .unpack, s => ∀ j < s.regs.srcLen, (Memory.read s.mems.src j).isSome = true
  | .hwalk, s => ∀ j < s.regs.bitLen, (liveBit s.mems.bbuf j).isSome = true
  | .hdec, s => ∀ j < s.regs.srcLen, (Memory.read s.mems.src j).isSome = true
  | .rled, s => ∀ j < s.regs.srcLen, (Memory.read s.mems.src j).isSome = true

/-- What a correct host does while the block is busy: it reads `STATUS` and `PROGRESS`, or waits (R223). -/
def Event.fineWhileBusy : Event → Bool
  | .hrd r => r == 1 || r == 8
  | .hwr _ _ => false
  | .mrd _ _ => false
  | .mwrSrc _ _ => false
  | .mwrDst _ _ => false
  | .mwrBbuf _ _ => false
  | .mwrCt _ _ => false
  | .wait => true
  | .reset => false

/-- The two states give the command the same inputs: the "reads" column of R63, element by element. `NSYM` counts
only with a degenerate table. -/
def sameInputs : Instr → State → State → Prop
  | .pack, s, t => s.params = t.params ∧ bbufBits s = bbufBits t
  | .unpack, s, t => s.params = t.params ∧ srcBytes s = srcBytes t
  | .hwalk, s, t =>
    s.params = t.params ∧ bbufBits s = bbufBits t ∧ codeList s.mems.ct = codeList t.mems.ct ∧
      (degenerateByte (codeList s.mems.ct) ≠ none → s.regs.nsym = t.regs.nsym)
  | .hdec, s, t =>
    s.params = t.params ∧ srcBytes s = srcBytes t ∧ codeList s.mems.ct = codeList t.mems.ct ∧
      (degenerateByte (codeList s.mems.ct) ≠ none → s.regs.nsym = t.regs.nsym)
  | .rled, s, t => s.params = t.params ∧ srcBytes s = srcBytes t

/-- The command writes DST (R63). -/
def writesDst : Instr → Bool
  | .pack => true
  | .unpack => false
  | .hwalk => true
  | .hdec => true
  | .rled => true

/-- The command writes BBUF (R63). -/
def writesBbuf : Instr → Bool
  | .pack => false
  | .unpack => true
  | .hwalk => false
  | .hdec => true
  | .rled => false

/-- The command writes PAD (R18). -/
def writesPad : Instr → Bool
  | .pack => true
  | .unpack => true
  | .hwalk => false
  | .hdec => true
  | .rled => false

/-- The output buffer `DST[0 .. DST_LEN)`. -/
def dstOut (s : State) : List (Option Byte) := (List.range s.regs.dstLen).map (Memory.read s.mems.dst)

/-- The output buffer `BBUF[0 .. BIT_LEN)`. -/
def bitOut (s : State) : List (Option Bool) := (List.range s.regs.bitLen).map (liveBit s.mems.bbuf)

end Sys2Proof.Machine
end

