-- ==== Sys2Proof/Certificates/Slice0/Obligations.lean ====
section
/-! DEFINITION. The statements for the provers, from the spec's numbered rules. -/

open Sys2Proof Sys2Proof.Machine

/-! ## Encoding -/

/-- The five words of R61's table, written out bit by bit from its `RSV` and `OP` columns, and two reserved ones. -/
def Obligations.FiveWordsDecode : Prop :=
  decode 0b00000001#8 = .command .pack ∧ decode 0b00000010#8 = .command .unpack ∧
  decode 0b00000011#8 = .command .hwalk ∧ decode 0b00000100#8 = .command .hdec ∧
  decode 0b00000101#8 = .command .rled ∧ decode 0b00000000#8 = .reserved .opUnused ∧
  decode 0b00001001#8 = .reserved .rsvNotZero

/-- Decode and encode agree on every word, both ways, and so does the host's form of the decoder: a command is one
8-bit word (R60, R61). -/
def Obligations.DecodeAgreesWithEncode : Prop :=
  (∀ (w : BitVec 8) (i : Instr), decode w = .command i ↔ w = encode i) ∧
  ∀ (n w : Nat) (i : Instr), decodeTableWord n w = some i ↔ n = 8 ∧ w = (encode i).toNat

/-! ## Reset and the step -/

/-- R32: registers, an empty table, memories without a value, an idle block that does nothing by itself. -/
def Obligations.ResetLeavesEmptyIdleBlock : Prop :=
  State.reset.regs.cmd = 0x00#8 ∧ State.reset.regs.status = 0x00#8 ∧ State.reset.regs.errcode = 0#8 ∧
  State.reset.regs.srcLen = 0 ∧ State.reset.regs.dstLen = 0 ∧ State.reset.regs.bitLen = 0 ∧
  State.reset.regs.nsym = 0 ∧ State.reset.regs.pad = 0#8 ∧ State.reset.regs.progress = 0 ∧
  (∀ b, (ctRead State.reset b).v = false) ∧
  (∀ i, Memory.read State.reset.mems.src i = none ∧ Memory.read State.reset.mems.dst i = none ∧
    liveBit State.reset.mems.bbuf i = none) ∧
  State.reset.busy = false ∧ step State.reset = .next State.reset

/-- The invariant holds at reset. -/
def Obligations.ResetMeetsInvariant : Prop := Inv State.reset

/-- The reset input at any turn of the outside world, idle or busy: every register as after reset, STATUS 0x00 and not
0x02 or 0x06, all four memories unwritten (R220, R221). What `host` holds besides the plan is the model's own. -/
def Obligations.ResetInputClearsBlock : Prop :=
  ∀ (s : State) (es : List Event), s.host.events = .reset :: es → (s.busy = true → busyFor s ≠ 0) →
    ∃ t, step s = .next t ∧ t.regs = State.reset.regs ∧ t.busy = false ∧ t.params = s.params ∧
      (∀ i, Memory.read t.mems.src i = none ∧ Memory.read t.mems.dst i = none ∧ Memory.read t.mems.bbuf i = none ∧
        codeOf t.mems.ct i = none) ∧
      t.host.events = es

/-- A step runs the decoded command: an idle block whose host writes a valid word to CMD, with BUSY_TIME 0, executes
that command; the step takes the event off the plan and the BUSY_TIME off its list (R145, R31). -/
def Obligations.StepRunsDecodedCommand : Prop :=
  ∀ (s : State) (v : Nat) (es : List Event) (i : Instr), s.busy = false → s.host.events = .hwr 0 v :: es →
    busyFor s = 0 → decode (BitVec.ofNat 8 v) = .command i →
    step s = exec i { s with host := { s.host with events := es, busyTime := s.host.busyTime.tail } }

/-- The word given by `withFetchWord` is the one the very next step runs, from every state (log 5: the placing of the
word is the model's). -/
def Obligations.FetchedWordIsRun : Prop :=
  ∀ (s : State) (n w : Nat) (i : Instr), decodeTableWord n w = some i →
    step (s.withFetchWord n w) = exec i { s with regs := { s.regs with status := s.regs.status &&& 0xFE#8 } }

/-- "The block has no step outside a command" (R140): idle, with nothing coming from outside, nothing changes. -/
def Obligations.IdleBlockStandsStill : Prop :=
  ∀ s : State, s.busy = false → s.host.events = [] → step s = .next s

/-- R62: the words that are no command are exactly the 251 others, and writing one while idle ends at once in
`E_UNSUPPORTED`: no length register cleared, no memory touched. -/
def Obligations.ReservedWordFaultsAtOnce : Prop :=
  (∀ w : BitVec 8, (∃ r, decode w = .reserved r) ↔
    w ≠ 0x01#8 ∧ w ≠ 0x02#8 ∧ w ≠ 0x03#8 ∧ w ≠ 0x04#8 ∧ w ≠ 0x05#8) ∧
  ∀ (s : State) (v : Nat) (es : List Event) (r : Reserved), s.busy = false → s.host.events = .hwr 0 v :: es →
    v < 256 → decode (BitVec.ofNat 8 v) = .reserved r →
    ∃ t, step s = .next t ∧ t.regs.cmd = BitVec.ofNat 8 v ∧ t.regs.status = 0x06#8 ∧ t.regs.errcode = 1#8 ∧
      t.regs.srcLen = s.regs.srcLen ∧ t.regs.dstLen = s.regs.dstLen ∧ t.regs.bitLen = s.regs.bitLen ∧
      t.regs.nsym = s.regs.nsym ∧ t.regs.pad = s.regs.pad ∧ t.mems = s.mems ∧ t.work = s.work ∧
      t.params = s.params ∧ t.host.events = es

/-- A number above 255 written to CMD while idle is written modulo 256. The model's reading (log 9): R142 gives `hwr` a
value for the `LENW`-bit registers only. -/
def Obligations.WideCmdWriteIsCut : Prop :=
  ∀ (s : State) (v : Nat) (es : List Event), s.busy = false → s.host.events = .hwr 0 v :: es →
    step s = step { s with host := { s.host with events := .hwr 0 (v % 256) :: es } }

/-- R29, command start: the four writes, the cleared set of each command, no memory content cleared, and then the
command's body on that state. With BUSY_TIME not 0 the start is a step of its own: the division into turns is the
model's (log 13), and so is the cut of a wide `v` to 8 bits (log 9). -/
def Obligations.CommandStartClearsItsSet : Prop :=
  (∀ (i : Instr) (s : State), exec i s = .next (settle (sourceCount i (startCommand i s)) (body i (startCommand i s))) ∧
    let t := startCommand i s
    t.regs.cmd = encode i ∧ t.regs.status = 0x01#8 ∧ t.regs.errcode = 0#8 ∧ t.regs.progress = 0 ∧
    t.regs.dstLen = (if i = .unpack then s.regs.dstLen else 0) ∧
    t.regs.bitLen = (if i = .unpack ∨ i = .hdec then 0 else s.regs.bitLen) ∧
    t.regs.pad = (if i = .hwalk ∨ i = .rled then s.regs.pad else 0#8) ∧
    t.regs.srcLen = s.regs.srcLen ∧ t.regs.nsym = s.regs.nsym ∧
    t.mems.src = s.mems.src ∧ t.mems.dst = s.mems.dst ∧ t.mems.ct = s.mems.ct ∧
    (∀ a, (Memory.read t.mems.bbuf a).map BitCell.bit = (Memory.read s.mems.bbuf a).map BitCell.bit) ∧
    t.work = s.work ∧ t.params = s.params) ∧
  ∀ (s : State) (v n : Nat) (es : List Event) (i : Instr), s.busy = false → s.host.events = .hwr 0 v :: es →
    busyFor s = n + 1 → decode (BitVec.ofNat 8 v) = .command i →
    step s = .next (startCommand i { s with host := { s.host with events := es, lastProgress := 0 } })

/-! ## The host -/

/-- R141: `hrd REG` with the block idle returns the register's value and changes nothing of the block. -/
def Obligations.IdleHostReadsRegister : Prop :=
  ∀ (s : State) (r : Nat) (es : List Event), s.busy = false → s.host.events = .hrd r :: es →
    ∃ t, step s = .next t ∧ sameBlock s t ∧ t.host.events = es ∧
      t.host.seen = .reg r (([s.regs.cmd.toNat, s.regs.status.toNat, s.regs.errcode.toNat, s.regs.srcLen,
        s.regs.dstLen, s.regs.bitLen, s.regs.nsym, s.regs.pad.toNat, s.regs.progress] : List Nat).getD r 0) ::
        s.host.seen

/-- R142, but for CMD: a write of `SRC_LEN`, `BIT_LEN` or `NSYM` while idle stores `v mod 2^LENW`, however large it is
against the buffer, and changes nothing else. -/
def Obligations.IdleHostWritesLengthRegister : Prop :=
  ∀ (s : State) (r v : Nat) (es : List Event), s.busy = false → s.host.events = .hwr r v :: es →
    r = 3 ∨ r = 5 ∨ r = 6 →
    ∃ t, step s = .next t ∧ t.host.events = es ∧ t.params = s.params ∧ t.mems = s.mems ∧ t.work = s.work ∧
      t.regs = { s.regs with
        srcLen := if r = 3 then v % 2 ^ s.params.lenw else s.regs.srcLen
        bitLen := if r = 5 then v % 2 ^ s.params.lenw else s.regs.bitLen
        nsym := if r = 6 then v % 2 ^ s.params.lenw else s.regs.nsym }

/-- R20: a reserved register reads as 0; a write to it, or to a read-only register, changes nothing; neither raises a
fault. -/
def Obligations.ReservedAndReadOnlyRegisters : Prop :=
  (∀ (s : State) (r : Nat) (es : List Event), s.busy = false → 9 ≤ r → s.host.events = .hrd r :: es →
    ∃ t, step s = .next t ∧ sameBlock s t ∧ t.host.seen = .reg r 0 :: s.host.seen) ∧
  ∀ (s : State) (r v : Nat) (es : List Event), s.busy = false →
    9 ≤ r ∨ r = 1 ∨ r = 2 ∨ r = 4 ∨ r = 7 ∨ r = 8 → s.host.events = .hwr r v :: es →
    ∃ t, step s = .next t ∧ sameBlock s t ∧ t.host.seen = s.host.seen

/-- R143: `mrd` with the block idle returns the element where it holds a value, something of the element's type
otherwise, and changes nothing of the block. An element of DST at or above `DST_LEN`, and a stale bit, hold none
(R33); an entry nothing has written reads with `V = 0` (R32). -/
def Obligations.IdleHostReadsMemory : Prop :=
  ∀ (s : State) (m : MemName) (i : Nat) (es : List Event), s.busy = false → s.host.events = .mrd m i :: es →
    ∃ t x, step s = .next t ∧ sameBlock s t ∧ t.host.events = es ∧ t.host.seen = x :: s.host.seen ∧
      (m = .src → ∃ v, x = .byte v ∧ (i < s.params.srcCap → ∀ u, Memory.read s.mems.src i = some u → v = u)) ∧
      (m = .dst → ∃ v, x = .byte v ∧
        (i < s.params.dstCap → i < s.regs.dstLen → ∀ u, Memory.read s.mems.dst i = some u → v = u)) ∧
      (m = .bbuf → ∃ v, x = .bit v ∧
        (i < s.params.bitCap → ∀ c, Memory.read s.mems.bbuf i = some c → c.live = true → v = c.bit)) ∧
      (m = .ct → ∃ e, x = .entry e ∧
        (i < 256 → (∀ f, Memory.read s.mems.ct i = some f → e = f) ∧
          (Memory.read s.mems.ct i = none → e.v = false)))

/-- R144: `mwr` with the block idle sets the one element named, whatever the length registers hold, and nothing else;
a write to DST, or at an index at or above the capacity, changes nothing. -/
def Obligations.IdleHostWritesMemory : Prop :=
  ∀ (s : State) (e : Event) (es : List Event), s.busy = false → s.host.events = e :: es →
    (∀ (i : Nat) (v : Byte), e = .mwrSrc i v → ∃ t, step s = .next t ∧ t.regs = s.regs ∧ t.params = s.params ∧
      t.work = s.work ∧ t.mems.dst = s.mems.dst ∧ t.mems.bbuf = s.mems.bbuf ∧ t.mems.ct = s.mems.ct ∧
      ∀ a, Memory.read t.mems.src a = if a = i ∧ i < s.params.srcCap then some v else Memory.read s.mems.src a) ∧
    (∀ (i : Nat) (v : Byte), e = .mwrDst i v → ∃ t, step s = .next t ∧ sameBlock s t) ∧
    (∀ (i : Nat) (v : Bool), e = .mwrBbuf i v → ∃ t, step s = .next t ∧ t.regs = s.regs ∧ t.params = s.params ∧
      t.work = s.work ∧ t.mems.src = s.mems.src ∧ t.mems.dst = s.mems.dst ∧ t.mems.ct = s.mems.ct ∧
      ∀ a, liveBit t.mems.bbuf a = if a = i ∧ i < s.params.bitCap then some v else liveBit s.mems.bbuf a) ∧
    (∀ (i : Nat) (f : CtEntry), e = .mwrCt i f → ∃ t, step s = .next t ∧ t.regs = s.regs ∧ t.params = s.params ∧
      t.work = s.work ∧ t.mems.src = s.mems.src ∧ t.mems.dst = s.mems.dst ∧ t.mems.bbuf = s.mems.bbuf ∧
      ∀ a, Memory.read t.mems.ct a = if a = i ∧ i < 256 then some f else Memory.read s.mems.ct a)

/-- R45: no read has a side effect, and no write but that of CMD while idle, which starts a command. A host's act while
the block is busy is a turn of BUSY_TIME, and the division into turns is the model's (log 13). -/
def Obligations.OnlyCmdWriteHasSideEffect : Prop :=
  ∀ (s : State) (e : Event) (es : List Event), s.host.events = e :: es → (s.busy = true → busyFor s ≠ 0) →
    e ≠ .reset →
    ∃ t, step s = .next t ∧
      ((∃ r, e = .hrd r) ∨ (∃ m i, e = .mrd m i) ∨ e = .wait → sameBlock s t) ∧
      ((∀ v, e ≠ .hwr 0 v) → t.params = s.params ∧ t.work = s.work ∧ t.draws = s.draws ∧ t.mems.dst = s.mems.dst ∧
        t.regs = { s.regs with srcLen := t.regs.srcLen, bitLen := t.regs.bitLen, nsym := t.regs.nsym }) ∧
      ∀ w : BitVec 8, s.busy = false → e = .hwr 0 w.toNat → t.regs.cmd = w ∧ t.regs.status ≠ 0x00#8

/-- R146, with R19 for PROGRESS: an act of the host while the block is busy. STATUS reads as 0x01; PROGRESS reads as a
value from the last one read up to the number of source elements; every write is ignored; the block stays as it is. The
division into turns and the host's record of the last PROGRESS it has read are the model's (log 13). -/
def Obligations.BusyHostCannotDisturb : Prop :=
  ∀ (s : State) (n : Nat) (e : Event) (es : List Event), s.regs.status = 0x01#8 → busyFor s = n + 1 →
    s.host.events = e :: es → e ≠ .reset →
    ∃ t, step s = .next t ∧ sameBlock s t ∧ busyFor t = n ∧
      (e = .hrd 1 ∨ e = .wait → t.host.seen = .reg 1 1 :: s.host.seen) ∧
      (e = .hrd 8 → t.host.seen = .reg 8 t.host.lastProgress :: s.host.seen ∧
        s.host.lastProgress ≤ t.host.lastProgress ∧
        (s.host.lastProgress ≤ runningCount s → t.host.lastProgress ≤ runningCount s)) ∧
      (e ≠ .hrd 8 → t.host.lastProgress = s.host.lastProgress)

/-- A command with any BUSY_TIME, during which the host does anything but reset, leaves the block exactly as the atomic
command does (R31, R146): registers, memories and working registers. The division into turns is the model's (log 13),
and so is the cut of a wide `v` to 8 bits (log 9). -/
def Obligations.HeldCommandEndsAsAtomic : Prop :=
  ∀ (s : State) (v n : Nat) (es : List Event) (ts : List Nat) (i : Instr), s.busy = false →
    s.host.events = .hwr 0 v :: es → s.host.busyTime = n :: ts → decode (BitVec.ofNat 8 v) = .command i →
    Event.reset ∉ es.take n →
    ∃ t u, Host.Core.run Sys2Proof.core (if n = 0 then 1 else n + 2) s = .next t ∧ exec i s = .next u ∧
      sameBlock u t ∧ t.host.busyTime = ts

/-- R147: every `wait` ends, with the block idle and the last STATUS read showing `BUSY = 0`. R147 gives no length; the
bound counts the turns of BUSY_TIME, which are the model's (log 13). -/
def Obligations.EveryWaitEnds : Prop :=
  ∀ (s : State) (es : List Event), s.host.events = .wait :: es →
    ∃ k t v, k ≤ busyFor s + 2 ∧ Host.Core.run Sys2Proof.core k s = .next t ∧ t.busy = false ∧
      t.host.events = es ∧ t.host.seen.head? = some (.reg 1 v) ∧ v % 2 = 0

/-! ## The writes -/

/-- R55, the two writes: a fault at the capacity with nothing written, and otherwise the one element and the length
register. -/
def Obligations.WritesStopAtCapacity : Prop :=
  (∀ (i : Nat) (v : Byte) (s : State), (s.params.dstCap ≤ i → dstWrite i v s = .raised .capacity s) ∧
    (i < s.params.dstCap → ∃ t, dstWrite i v s = .done t ∧ t.regs = { s.regs with dstLen := i + 1 } ∧
      t.work = s.work ∧ t.params = s.params ∧ t.mems = { s.mems with dst := t.mems.dst } ∧
      ∀ a, Memory.read t.mems.dst a = if a = i then some v else Memory.read s.mems.dst a)) ∧
  (∀ (i : Nat) (v : Bool) (s : State), (s.params.bitCap ≤ i → bitWrite i v s = .raised .capacity s) ∧
    (i < s.params.bitCap → ∃ t, bitWrite i v s = .done t ∧ t.regs = { s.regs with bitLen := i + 1 } ∧
      t.work = s.work ∧ t.params = s.params ∧ t.mems = { s.mems with bbuf := t.mems.bbuf } ∧
      ∀ a, liveBit t.mems.bbuf a = if a = i then some v else liveBit s.mems.bbuf a))

/-! ## PACK -/

/-- R81: what PACK completes with, for every bit sequence that fits. -/
def Obligations.PackWritesPayload : Prop :=
  ∀ s : State, s.regs.bitLen ≤ s.params.bitCap →
    let n := s.regs.bitLen
    let P := (8 - n % 8) % 8
    1 + (n + P) / 8 ≤ s.params.dstCap →
    ∃ t, exec .pack s = .next t ∧ t.regs.status = 0x02#8 ∧ t.regs.errcode = 0#8 ∧ t.regs.progress = n ∧
      t.regs.pad = BitVec.ofNat 8 P ∧ t.regs.dstLen = 1 + (n + P) / 8 ∧
      Memory.read t.mems.dst 0 = some (BitVec.ofNat 8 P) ∧
      ∀ m, 1 ≤ m → m ≤ (n + P) / 8 →
        (Memory.read t.mems.dst m).map BitVec.toNat = some (∑ k ∈ Finset.range 8,
          ((bbufBits s ++ List.replicate P false).getD (8 * (m - 1) + k) false).toNat * 2 ^ (7 - k))

/-- R65: the three properties of a payload made by PACK, read from DST, and R66 for its bits. -/
def Obligations.PackedPayloadHasItsShape : Prop :=
  ∀ s t : State, exec .pack s = .next t → t.regs.status = 0x02#8 →
    let B := (dstOut t).map fun x => x.getD 0#8
    (B.getD 0 0#8).toNat = (8 - s.regs.bitLen % 8) % 8 ∧ B.length = 1 + (s.regs.bitLen + 7) / 8 ∧
    (∀ j < s.regs.bitLen, payloadBit B j = bitRead s j) ∧
    ∀ j, s.regs.bitLen ≤ j → j < 8 * (B.length - 1) → payloadBit B j = false

/-- The frame of PACK (R63): it writes DST below `DST_LEN`, `DST_LEN`, `PAD` and its own working registers. -/
def Obligations.PackFrame : Prop :=
  ∀ s t : State, exec .pack s = .next t →
    t.params = s.params ∧ t.host = s.host ∧ t.regs.srcLen = s.regs.srcLen ∧ t.regs.bitLen = s.regs.bitLen ∧
    t.regs.nsym = s.regs.nsym ∧ t.mems.src = s.mems.src ∧ t.mems.bbuf = s.mems.bbuf ∧ t.mems.ct = s.mems.ct ∧
    (∀ a, t.regs.dstLen ≤ a → Memory.read t.mems.dst a = Memory.read s.mems.dst a) ∧
    t.work.si = s.work.si ∧ t.work.node = s.work.node ∧ t.work.rv = s.work.rv ∧ t.work.rc = s.work.rc

/-- The two capacity faults of PACK (R56, R80): an input length too large, with nothing written; and an output that
does not fit, with `DST_CAP` Bytes of the payload written. -/
def Obligations.PackCapacityFaults : Prop :=
  ∀ s : State, ∃ t, exec .pack s = .next t ∧
    (s.params.bitCap < s.regs.bitLen → t.regs.status = 0x06#8 ∧ t.regs.errcode = 7#8 ∧ t.regs.dstLen = 0 ∧
      t.regs.pad = 0#8 ∧ t.mems = s.mems) ∧
    (s.regs.bitLen ≤ s.params.bitCap → s.params.dstCap < 1 + (s.regs.bitLen + 7) / 8 →
      t.regs.status = 0x06#8 ∧ t.regs.errcode = 7#8 ∧ t.regs.dstLen = s.params.dstCap ∧
      t.regs.pad = BitVec.ofNat 8 (padOf s.regs.bitLen) ∧
      dstOut t = ((packBytes (bbufBits s)).take s.params.dstCap).map some)

/-! ## UNPACK -/

/-- R84: what UNPACK completes with, for every padding count that can be dropped (8 to 255 included, R87). -/
def Obligations.UnpackWritesBits : Prop :=
  ∀ s : State, s.regs.srcLen ≤ s.params.srcCap → 1 ≤ s.regs.srcLen →
    (srcRead s 0).toNat ≤ 8 * (s.regs.srcLen - 1) →
    8 * (s.regs.srcLen - 1) - (srcRead s 0).toNat ≤ s.params.bitCap →
    ∃ t, exec .unpack s = .next t ∧ t.regs.status = 0x02#8 ∧ t.regs.errcode = 0#8 ∧
      t.regs.progress = s.regs.srcLen ∧ t.regs.pad = srcRead s 0 ∧
      t.regs.bitLen = 8 * (s.regs.srcLen - 1) - (srcRead s 0).toNat ∧
      ∀ j < t.regs.bitLen, liveBit t.mems.bbuf j = some ((srcRead s (1 + j / 8)).getLsbD (7 - j % 8))

/-- The frame of UNPACK (R63): it writes BBUF below `BIT_LEN`, `BIT_LEN`, `PAD` and its own working registers. Above
`BIT_LEN` an element keeps the bit it physically holds, which is no longer its value (R29, R33). -/
def Obligations.UnpackFrame : Prop :=
  ∀ s t : State, exec .unpack s = .next t →
    t.params = s.params ∧ t.host = s.host ∧ t.regs.srcLen = s.regs.srcLen ∧ t.regs.dstLen = s.regs.dstLen ∧
    t.regs.nsym = s.regs.nsym ∧ t.mems.src = s.mems.src ∧ t.mems.dst = s.mems.dst ∧ t.mems.ct = s.mems.ct ∧
    (∀ a, t.regs.bitLen ≤ a →
      (Memory.read t.mems.bbuf a).map BitCell.bit = (Memory.read s.mems.bbuf a).map BitCell.bit ∧
      liveBit t.mems.bbuf a = none) ∧
    t.work.bc = s.work.bc ∧ t.work.di = s.work.di ∧ t.work.node = s.work.node ∧ t.work.rv = s.work.rv ∧
    t.work.rc = s.work.rc

/-- The faults of UNPACK in the order R83 gives them, with what each leaves. -/
def Obligations.UnpackFaults : Prop :=
  ∀ s : State, ∃ t, exec .unpack s = .next t ∧
    (s.params.srcCap < s.regs.srcLen → t.regs.status = 0x06#8 ∧ t.regs.errcode = 7#8 ∧ t.regs.pad = 0#8 ∧
      t.regs.bitLen = 0) ∧
    (s.regs.srcLen = 0 → t.regs.status = 0x06#8 ∧ t.regs.errcode = 2#8 ∧ t.regs.pad = 0#8 ∧ t.regs.bitLen = 0) ∧
    (s.regs.srcLen ≤ s.params.srcCap → 1 ≤ s.regs.srcLen → 8 * (s.regs.srcLen - 1) < (srcRead s 0).toNat →
      t.regs.status = 0x06#8 ∧ t.regs.errcode = 3#8 ∧ t.regs.pad = srcRead s 0 ∧ t.regs.bitLen = 0) ∧
    (s.regs.srcLen ≤ s.params.srcCap → 1 ≤ s.regs.srcLen →
      s.params.bitCap + (srcRead s 0).toNat < 8 * (s.regs.srcLen - 1) →
      t.regs.status = 0x06#8 ∧ t.regs.errcode = 7#8 ∧ t.regs.pad = srcRead s 0 ∧
      t.regs.bitLen = s.params.bitCap ∧
      ∀ j < s.params.bitCap, liveBit t.mems.bbuf j = some ((srcRead s (1 + j / 8)).getLsbD (7 - j % 8)))

/-- R85: UNPACK undoes PACK; `s'` is any state of the block whose SRC holds PACK's output. The reverse holds only for
a payload `B` with the three properties of R65. -/
def Obligations.UnpackUndoesPack : Prop :=
  (∀ s t s' u : State, exec .pack s = .next t → t.regs.status = 0x02#8 →
    (srcBytes s').map some = dstOut t → exec .unpack s' = .next u →
    u.regs.errcode ≠ 2#8 ∧ u.regs.errcode ≠ 3#8 ∧
    (u.regs.errcode ≠ 7#8 → u.regs.status = 0x02#8 ∧ u.regs.pad = t.regs.pad ∧
      bitOut u = (bbufBits s).map some)) ∧
  ∀ s t u : State, exec .unpack s = .next t → t.regs.status = 0x02#8 → exec .pack t = .next u →
    u.regs.status = 0x02#8 → dstOut u = (srcBytes s).map some →
    let B := srcBytes s
    (B.getD 0 0#8).toNat = (8 - t.regs.bitLen % 8) % 8 ∧ B.length = 1 + (t.regs.bitLen + 7) / 8 ∧
    ∀ j, t.regs.bitLen ≤ j → j < 8 * (B.length - 1) → payloadBit B j = false

/-! ## HWALK -/

/-- R109: with an ordinary table HWALK succeeds exactly when the bits are a concatenation of codes whose Bytes fit, and
then DST holds those Bytes, of which there is one choice; with a degenerate table exactly when there are no bits and
`NSYM` Bytes fit. -/
def Obligations.HwalkDecodesConcatenation : Prop :=
  (∀ s : State, s.regs.bitLen ≤ s.params.bitCap → tablePasses (codeList s.mems.ct) = true →
    degenerateByte (codeList s.mems.ct) = none →
    ∃ t, exec .hwalk s = .next t ∧
      (t.regs.status = 0x02#8 ↔
        ∃ out, Decodes (codeList s.mems.ct) (bbufBits s) out ∧ out.length ≤ s.params.dstCap) ∧
      (∀ out, Decodes (codeList s.mems.ct) (bbufBits s) out → out.length ≤ s.params.dstCap →
        t.regs.status = 0x02#8 ∧ t.regs.errcode = 0#8 ∧ t.regs.progress = s.regs.bitLen ∧
        t.regs.dstLen = out.length ∧ dstOut t = out.map some) ∧
      ∀ bits out out', Decodes (codeList s.mems.ct) bits out → Decodes (codeList s.mems.ct) bits out' → out = out') ∧
  ∀ (s : State) (b : Byte), s.regs.bitLen ≤ s.params.bitCap → degenerateByte (codeList s.mems.ct) = some b →
    ∃ t, exec .hwalk s = .next t ∧
      (t.regs.status = 0x02#8 ↔ s.regs.bitLen = 0 ∧ s.regs.nsym ≤ s.params.dstCap) ∧
      (t.regs.status = 0x02#8 → dstOut t = List.replicate s.regs.nsym (some b))

/-- R104, the degenerate table: where there are no bits and `NSYM` Bytes fit, HWALK writes `NSYM` copies; bits are a
fault before any output; too many copies fill DST and fault. -/
def Obligations.HwalkDegenerateTable : Prop :=
  ∀ (s : State) (b : Byte), s.regs.bitLen ≤ s.params.bitCap → degenerateByte (codeList s.mems.ct) = some b →
    ∃ t, exec .hwalk s = .next t ∧
      (s.regs.bitLen = 0 → s.regs.nsym ≤ s.params.dstCap → t.regs.status = 0x02#8 ∧ t.regs.errcode = 0#8 ∧
        t.regs.dstLen = s.regs.nsym ∧ dstOut t = List.replicate s.regs.nsym (some b)) ∧
      (s.regs.bitLen ≠ 0 → t.regs.status = 0x06#8 ∧ t.regs.errcode = 6#8 ∧ t.regs.dstLen = 0 ∧ t.mems = s.mems) ∧
      (s.regs.bitLen = 0 → s.params.dstCap < s.regs.nsym → t.regs.status = 0x06#8 ∧ t.regs.errcode = 7#8 ∧
        t.regs.dstLen = s.params.dstCap ∧ dstOut t = List.replicate s.params.dstCap (some b))

/-- R106: the walk is the document's greedy match: the same Bytes, their number, and the fault. -/
def Obligations.HwalkIsGreedyMatch : Prop :=
  ∀ s : State, s.regs.bitLen ≤ s.params.bitCap → tablePasses (codeList s.mems.ct) = true →
    degenerateByte (codeList s.mems.ct) = none →
    (greedy (codeList s.mems.ct) [] (bbufBits s)).1.length ≤ s.params.dstCap →
    ∃ t, exec .hwalk s = .next t ∧
      t.regs.dstLen = (greedy (codeList s.mems.ct) [] (bbufBits s)).1.length ∧
      dstOut t = (greedy (codeList s.mems.ct) [] (bbufBits s)).1.map some ∧
      ((greedy (codeList s.mems.ct) [] (bbufBits s)).2 = [] → t.regs.status = 0x02#8 ∧ t.regs.errcode = 0#8) ∧
      ((greedy (codeList s.mems.ct) [] (bbufBits s)).2 ≠ [] → t.regs.status = 0x06#8 ∧ t.regs.errcode = 6#8)

/-- The capacity faults of HWALK (R56, R103): an input length too large, with nothing written; and a walk whose next
emit would pass `DST_CAP`, with the first `DST_CAP` Bytes written. -/
def Obligations.HwalkCapacityFaults : Prop :=
  ∀ s : State, ∃ t, exec .hwalk s = .next t ∧
    (s.params.bitCap < s.regs.bitLen → t.regs.status = 0x06#8 ∧ t.regs.errcode = 7#8 ∧ t.regs.dstLen = 0 ∧
      t.mems = s.mems) ∧
    (s.regs.bitLen ≤ s.params.bitCap → tablePasses (codeList s.mems.ct) = true →
      degenerateByte (codeList s.mems.ct) = none →
      s.params.dstCap < (greedy (codeList s.mems.ct) [] (bbufBits s)).1.length →
      t.regs.status = 0x06#8 ∧ t.regs.errcode = 7#8 ∧ t.regs.dstLen = s.params.dstCap ∧
      dstOut t = ((greedy (codeList s.mems.ct) [] (bbufBits s)).1.take s.params.dstCap).map some)

/-- The frame of HWALK and of RLED (R63): they write DST below `DST_LEN`, `DST_LEN` and their own working registers. -/
def Obligations.HwalkAndRledFrame : Prop :=
  (∀ s t : State, exec .hwalk s = .next t →
    t.params = s.params ∧ t.host = s.host ∧ t.regs.srcLen = s.regs.srcLen ∧ t.regs.bitLen = s.regs.bitLen ∧
    t.regs.nsym = s.regs.nsym ∧ t.regs.pad = s.regs.pad ∧ t.mems.src = s.mems.src ∧ t.mems.bbuf = s.mems.bbuf ∧
    t.mems.ct = s.mems.ct ∧ (∀ a, t.regs.dstLen ≤ a → Memory.read t.mems.dst a = Memory.read s.mems.dst a) ∧
    t.work.sh = s.work.sh ∧ t.work.bc = s.work.bc ∧ t.work.si = s.work.si ∧ t.work.nb = s.work.nb ∧
    t.work.rv = s.work.rv ∧ t.work.rc = s.work.rc) ∧
  ∀ s t : State, exec .rled s = .next t →
    t.params = s.params ∧ t.host = s.host ∧ t.regs.srcLen = s.regs.srcLen ∧ t.regs.bitLen = s.regs.bitLen ∧
    t.regs.nsym = s.regs.nsym ∧ t.regs.pad = s.regs.pad ∧ t.mems.src = s.mems.src ∧ t.mems.bbuf = s.mems.bbuf ∧
    t.mems.ct = s.mems.ct ∧ (∀ a, t.regs.dstLen ≤ a → Memory.read t.mems.dst a = Memory.read s.mems.dst a) ∧
    t.work.sh = s.work.sh ∧ t.work.bc = s.work.bc ∧ t.work.bi = s.work.bi ∧ t.work.nb = s.work.nb ∧
    t.work.node = s.work.node

/-- R100: with the input length in range, HWALK and HDEC raise `E_BAD_TABLE` exactly when no entry is valid or one
valid code is a prefix of another, and then nothing has been written. -/
def Obligations.BadTableFaults : Prop :=
  ∀ s : State,
    let bad := (∀ b < 256, codeOf s.mems.ct b = none) ∨ ∃ a b c d, a < 256 ∧ b < 256 ∧ a ≠ b ∧
      codeOf s.mems.ct a = some c ∧ codeOf s.mems.ct b = some d ∧ c <+: d
    (s.regs.bitLen ≤ s.params.bitCap → ∃ t, exec .hwalk s = .next t ∧ (t.regs.errcode = 5#8 ↔ bad) ∧
      (bad → t.regs.status = 0x06#8 ∧ t.regs.dstLen = 0 ∧ t.mems = s.mems)) ∧
    (s.regs.srcLen ≤ s.params.srcCap → ∃ t, exec .hdec s = .next t ∧ (t.regs.errcode = 5#8 ↔ bad) ∧
      (bad → t.regs.status = 0x06#8 ∧ t.regs.dstLen = 0 ∧ t.regs.bitLen = 0 ∧ t.regs.pad = 0#8 ∧
        t.mems = { s.mems with bbuf := t.mems.bbuf } ∧
        ∀ a, (Memory.read t.mems.bbuf a).map BitCell.bit = (Memory.read s.mems.bbuf a).map BitCell.bit))

/-! ## HDEC -/

/-- R111: HDEC is UNPACK and then HWALK, except that a bad table is found before the unpacking. `u` is where UNPACK
ends, `w` where HWALK ends after it. -/
def Obligations.HdecIsUnpackThenHwalk : Prop :=
  ∀ s t u w : State, exec .hdec s = .next t → exec .unpack s = .next u → exec .hwalk u = .next w →
    (tablePasses (codeList s.mems.ct) = true →
      (u.regs.status = 0x06#8 → t.regs.status = 0x06#8 ∧ t.regs.errcode = u.regs.errcode) ∧
      (u.regs.status = 0x02#8 → t.regs.status = w.regs.status ∧ t.regs.errcode = w.regs.errcode ∧
        t.regs.pad = w.regs.pad ∧ t.mems.bbuf = w.mems.bbuf ∧ t.regs.bitLen = w.regs.bitLen ∧
        t.mems.dst = w.mems.dst ∧ t.regs.dstLen = w.regs.dstLen)) ∧
    (tablePasses (codeList s.mems.ct) = false → s.regs.srcLen ≤ s.params.srcCap →
      t.regs.errcode = 5#8 ∧ t.regs.pad = 0#8 ∧ t.regs.bitLen = 0 ∧ t.regs.dstLen = 0 ∧ t.mems.dst = s.mems.dst ∧
      ∀ a, (Memory.read t.mems.bbuf a).map BitCell.bit = (Memory.read s.mems.bbuf a).map BitCell.bit)

/-- HDEC completes and decodes, with any passing table that has a code for every Byte of `d`: SRC holds the packed
codes of `d` and `NSYM` is the length of `d`. -/
def Obligations.HdecDecodesPackedCodes : Prop :=
  ∀ (s : State) (d : List Byte), tablePasses (codeList s.mems.ct) = true →
    (∀ b ∈ d, ∃ c, (b, c) ∈ codeList s.mems.ct) →
    srcBytes s = huffmanPayload (codeList s.mems.ct) d → s.regs.nsym = d.length →
    s.regs.srcLen ≤ s.params.srcCap → (encodeBits (codeList s.mems.ct) d).length ≤ s.params.bitCap →
    d.length ≤ s.params.dstCap →
    ∃ t, exec .hdec s = .next t ∧ t.regs.status = 0x02#8 ∧ t.regs.errcode = 0#8 ∧
      t.regs.progress = s.regs.srcLen ∧ t.regs.pad.toNat = padOf (encodeBits (codeList s.mems.ct) d).length ∧
      bitOut t = (encodeBits (codeList s.mems.ct) d).map some ∧ t.regs.dstLen = d.length ∧ dstOut t = d.map some

/-- R164: the codes of a tree with distinct leaves. The table passes the check, an empty code stands alone, no code is
longer than 255 bits, and every bit sequence is a prefix of a code or has a code as a prefix. -/
def Obligations.DerivedCodesPassCheck : Prop :=
  ∀ tree : HuffNode, tree.bytes.Nodup →
    tablePasses (deriveCodes tree) = true ∧ (∀ e ∈ deriveCodes tree, e.2.length ≤ 255) ∧
    ((∃ e ∈ deriveCodes tree, e.2 = []) → (deriveCodes tree).length = 1) ∧
    ∀ bits : Bits, ∃ e ∈ deriveCodes tree, bits <+: e.2 ∨ e.2 <+: bits

/-- R110: HDEC inverts the environment's encoder, whatever tree it built over the Bytes of `d`. -/
def Obligations.HdecInvertsHuffmanEncode : Prop :=
  ∀ (s : State) (d : List Byte) (tree : HuffNode), d ≠ [] → tree.bytes.Nodup → (∀ b, b ∈ d ↔ b ∈ tree.bytes) →
    (∀ (b : Byte) (c : Bits), codeOf s.mems.ct b.toNat = some c ↔ (b, c) ∈ deriveCodes tree) →
    srcBytes s = huffmanPayload (deriveCodes tree) d → s.regs.nsym = d.length →
    s.regs.srcLen ≤ s.params.srcCap → (encodeBits (deriveCodes tree) d).length ≤ s.params.bitCap →
    d.length ≤ s.params.dstCap →
    ∃ t, exec .hdec s = .next t ∧ t.regs.status = 0x02#8 ∧ dstOut t = d.map some

/-- The frame of HDEC (R63): it writes BBUF below `BIT_LEN` and DST below `DST_LEN`, those two, `PAD` and its own
working registers. Above `BIT_LEN` an element keeps the bit it physically holds, which is no longer its value. -/
def Obligations.HdecFrame : Prop :=
  ∀ s t : State, exec .hdec s = .next t →
    t.params = s.params ∧ t.host = s.host ∧ t.regs.srcLen = s.regs.srcLen ∧ t.regs.nsym = s.regs.nsym ∧
    t.mems.src = s.mems.src ∧ t.mems.ct = s.mems.ct ∧
    (∀ a, t.regs.bitLen ≤ a →
      (Memory.read t.mems.bbuf a).map BitCell.bit = (Memory.read s.mems.bbuf a).map BitCell.bit ∧
      liveBit t.mems.bbuf a = none) ∧
    (∀ a, t.regs.dstLen ≤ a → Memory.read t.mems.dst a = Memory.read s.mems.dst a) ∧
    t.work.bc = s.work.bc ∧ t.work.rv = s.work.rv ∧ t.work.rc = s.work.rc

/-- The faults of HDEC before its walk, in the order of R105, with what each leaves; none writes DST. -/
def Obligations.HdecFaultsBeforeWalk : Prop :=
  ∀ s : State, ∃ t, exec .hdec s = .next t ∧
    (s.params.srcCap < s.regs.srcLen → t.regs.status = 0x06#8 ∧ t.regs.errcode = 7#8 ∧ t.regs.pad = 0#8 ∧
      t.regs.bitLen = 0 ∧ t.regs.dstLen = 0) ∧
    (tablePasses (codeList s.mems.ct) = true → s.regs.srcLen = 0 → t.regs.status = 0x06#8 ∧
      t.regs.errcode = 2#8 ∧ t.regs.pad = 0#8 ∧ t.regs.bitLen = 0 ∧ t.regs.dstLen = 0) ∧
    (tablePasses (codeList s.mems.ct) = true → s.regs.srcLen ≤ s.params.srcCap → 1 ≤ s.regs.srcLen →
      8 * (s.regs.srcLen - 1) < (srcRead s 0).toNat → t.regs.status = 0x06#8 ∧ t.regs.errcode = 3#8 ∧
      t.regs.pad = srcRead s 0 ∧ t.regs.bitLen = 0 ∧ t.regs.dstLen = 0) ∧
    (tablePasses (codeList s.mems.ct) = true → s.regs.srcLen ≤ s.params.srcCap → 1 ≤ s.regs.srcLen →
      s.params.bitCap + (srcRead s 0).toNat < 8 * (s.regs.srcLen - 1) → t.regs.status = 0x06#8 ∧
      t.regs.errcode = 7#8 ∧ t.regs.pad = srcRead s 0 ∧ t.regs.bitLen = s.params.bitCap ∧ t.regs.dstLen = 0)

/-! ## RLED -/

/-- R131: what RLED completes with, for every even-length buffer whose expansion fits. -/
def Obligations.RledExpandsPairs : Prop :=
  ∀ s : State, s.regs.srcLen ≤ s.params.srcCap → s.regs.srcLen % 2 = 0 →
    (rleExpand (srcBytes s)).length ≤ s.params.dstCap →
    ∃ t, exec .rled s = .next t ∧ t.regs.status = 0x02#8 ∧ t.regs.errcode = 0#8 ∧
      t.regs.progress = s.regs.srcLen ∧ dstOut t = (rleExpand (srcBytes s)).map some ∧
      t.regs.dstLen = (∑ k ∈ Finset.range (s.regs.srcLen / 2), (srcRead s (2 * k + 1)).toNat) ∧
      t.regs.dstLen ≤ 255 * (s.regs.srcLen / 2)

/-- The faults of RLED in the order of R130: input length too large; odd length, before any pair is read; an expansion
that does not fit, after `DST_CAP` Bytes. -/
def Obligations.RledFaults : Prop :=
  ∀ s : State, ∃ t, exec .rled s = .next t ∧
    (s.params.srcCap < s.regs.srcLen → t.regs.status = 0x06#8 ∧ t.regs.errcode = 7#8 ∧ t.regs.dstLen = 0 ∧
      t.mems = s.mems) ∧
    (s.regs.srcLen ≤ s.params.srcCap → s.regs.srcLen % 2 = 1 → t.regs.status = 0x06#8 ∧ t.regs.errcode = 4#8 ∧
      t.regs.dstLen = 0 ∧ t.mems = s.mems) ∧
    (s.regs.srcLen ≤ s.params.srcCap → s.regs.srcLen % 2 = 0 →
      s.params.dstCap < (rleExpand (srcBytes s)).length → t.regs.status = 0x06#8 ∧ t.regs.errcode = 7#8 ∧
      t.regs.dstLen = s.params.dstCap ∧ dstOut t = ((rleExpand (srcBytes s)).take s.params.dstCap).map some)

/-- R132: a pair whose count is 0 expands to nothing and is not a fault: with the pair anywhere between two runs of
whole pairs, RLED ends as it does without it. -/
def Obligations.ZeroCountPairVanishes : Prop :=
  ∀ (s s' : State) (v : Byte) (before after : List Byte), before.length % 2 = 0 → s.params = s'.params →
    srcBytes s = before ++ [v, 0#8] ++ after → srcBytes s' = before ++ after → s.regs.srcLen ≤ s.params.srcCap →
    ∃ t u, exec .rled s = .next t ∧ exec .rled s' = .next u ∧ t.regs.status = u.regs.status ∧
      t.regs.errcode = u.regs.errcode ∧ dstOut t = dstOut u

/-- R133: RLED inverts the environment's encoder. -/
def Obligations.RledInvertsRleEncode : Prop :=
  ∀ (s : State) (d : List Byte), srcBytes s = rleEncode d → s.regs.srcLen ≤ s.params.srcCap →
    d.length ≤ s.params.dstCap →
    ∃ t, exec .rled s = .next t ∧ t.regs.status = 0x02#8 ∧ t.regs.dstLen = d.length ∧ dstOut t = d.map some

/-! ## All commands -/

/-- Every command ends, idle, in success or in one fault (R30, R193, R206): STATUS, ERRCODE and PROGRESS as each
completion leaves them. -/
def Obligations.EveryCommandCompletes : Prop :=
  ∀ (i : Instr) (s : State), ∃ t, exec i s = .next t ∧ t.busy = false ∧ t.regs.cmd = encode i ∧
    let n := if i = .pack ∨ i = .hwalk then s.regs.bitLen else s.regs.srcLen
    (t.regs.status = 0x02#8 ∧ t.regs.errcode = 0#8 ∧ t.regs.progress = n) ∨
    (t.regs.status = 0x06#8 ∧ 1 ≤ t.regs.errcode.toNat ∧ t.regs.errcode.toNat ≤ 7 ∧ t.regs.progress ≤ n)

/-- R192's "commands" column: the only cause codes each command can end with. -/
def Obligations.CausesByCommand : Prop :=
  ∀ (i : Instr) (s t : State), exec i s = .next t → t.regs.status = 0x06#8 →
    t.regs.errcode.toNat ∈ (match i with
      | .pack => [7]
      | .unpack => [2, 3, 7]
      | .hwalk => [5, 6, 7]
      | .hdec => [2, 3, 5, 6, 7]
      | .rled => [4, 7] : List Nat)

/-- "In particular no command writes `SRC`, `CT`, `SRC_LEN` or `NSYM`" (R63), whatever its outcome. -/
def Obligations.NoCommandWritesItsOperands : Prop :=
  ∀ (i : Instr) (s t : State), exec i s = .next t →
    t.mems.src = s.mems.src ∧ t.mems.ct = s.mems.ct ∧ t.regs.srcLen = s.regs.srcLen ∧ t.regs.nsym = s.regs.nsym

/-- R25: no working register carries a value into a command: with any other contents of all nine, every register and
every memory ends the same. -/
def Obligations.WorkingRegistersCarryNothing : Prop :=
  ∀ (i : Instr) (s : State) (w : Work), ∃ t u, exec i s = .next t ∧ exec i { s with work := w } = .next u ∧
    t.regs = u.regs ∧ t.mems = u.mems

/-- R63's "reads" column, with R190: two states that give the command the same inputs, whatever else differs, end with
the same STATUS and ERRCODE and the same outputs, on success and on fault. -/
def Obligations.ResultDependsOnlyOnInputs : Prop :=
  ∀ (i : Instr) (s s' t u : State), sameInputs i s s' → exec i s = .next t → exec i s' = .next u →
    t.regs.status = u.regs.status ∧ t.regs.errcode = u.regs.errcode ∧
    (writesDst i = true → dstOut t = dstOut u) ∧ (writesBbuf i = true → bitOut t = bitOut u) ∧
    (writesPad i = true → t.regs.pad = u.regs.pad)

/-- A host that has written every element the command reads (R222) meets no free value but PROGRESS after a fault
(R204): the result is the same for every value of the draw counter. -/
def Obligations.WrittenInputsLeaveNothingFree : Prop :=
  ∀ (i : Instr) (s : State) (d : Nat), inputReady i s →
    ∃ t u, exec i s = .next t ∧ exec i { s with draws := d } = .next u ∧
      t.mems = u.mems ∧ t.work = u.work ∧ t.regs = { u.regs with progress := t.regs.progress } ∧
      (t.regs.status = 0x02#8 → t.regs = u.regs)

/-- The parameters are fixed: no step changes them (R6). -/
def Obligations.StepKeepsParameters : Prop :=
  ∀ s t : State, step s = .next t → t.params = s.params

/-- The block becomes busy only by a write of a valid word to CMD, and idle only by completing or by reset (R31). -/
def Obligations.BusyOnlyByCommandStart : Prop :=
  ∀ s t : State, step s = .next t →
    (s.busy = false → t.busy = true →
      ∃ v es i, s.host.events = .hwr 0 v :: es ∧ decode (BitVec.ofNat 8 v) = .command i ∧ t.regs.cmd = encode i) ∧
    (s.busy = true → t.busy = false →
      t = finishRunning (popBusy s) ∨ ∃ es, s.host.events = .reset :: es)

/-- Every step keeps the invariant, from every state that meets it. -/
def Obligations.StepKeepsInvariant : Prop :=
  ∀ s t : State, Inv s → step s = .next t → Inv t
end

