-- ==== Sys2Proof/Laws/State.lean ====
section
/-! SUPPORT. Each update of a part of the state, read through each part: one lemma per part per update. -/

namespace Sys2Proof.Machine

variable (s : State)

@[simp] theorem updRegs_params (f : Regs → Regs) : (s.updRegs f).params = s.params := rfl
@[simp] theorem updRegs_regs (f : Regs → Regs) : (s.updRegs f).regs = f s.regs := rfl
@[simp] theorem updRegs_mems (f : Regs → Regs) : (s.updRegs f).mems = s.mems := rfl
@[simp] theorem updRegs_work (f : Regs → Regs) : (s.updRegs f).work = s.work := rfl
@[simp] theorem updRegs_draws (f : Regs → Regs) : (s.updRegs f).draws = s.draws := rfl
@[simp] theorem updRegs_host (f : Regs → Regs) : (s.updRegs f).host = s.host := rfl

@[simp] theorem updMems_params (f : Mems → Mems) : (s.updMems f).params = s.params := rfl
@[simp] theorem updMems_regs (f : Mems → Mems) : (s.updMems f).regs = s.regs := rfl
@[simp] theorem updMems_mems (f : Mems → Mems) : (s.updMems f).mems = f s.mems := rfl
@[simp] theorem updMems_work (f : Mems → Mems) : (s.updMems f).work = s.work := rfl
@[simp] theorem updMems_draws (f : Mems → Mems) : (s.updMems f).draws = s.draws := rfl
@[simp] theorem updMems_host (f : Mems → Mems) : (s.updMems f).host = s.host := rfl

@[simp] theorem updWork_params (f : Work → Work) : (s.updWork f).params = s.params := rfl
@[simp] theorem updWork_regs (f : Work → Work) : (s.updWork f).regs = s.regs := rfl
@[simp] theorem updWork_mems (f : Work → Work) : (s.updWork f).mems = s.mems := rfl
@[simp] theorem updWork_work (f : Work → Work) : (s.updWork f).work = f s.work := rfl
@[simp] theorem updWork_draws (f : Work → Work) : (s.updWork f).draws = s.draws := rfl
@[simp] theorem updWork_host (f : Work → Work) : (s.updWork f).host = s.host := rfl

@[simp] theorem updHost_params (f : HostSide → HostSide) : (s.updHost f).params = s.params := rfl
@[simp] theorem updHost_regs (f : HostSide → HostSide) : (s.updHost f).regs = s.regs := rfl
@[simp] theorem updHost_mems (f : HostSide → HostSide) : (s.updHost f).mems = s.mems := rfl
@[simp] theorem updHost_work (f : HostSide → HostSide) : (s.updHost f).work = s.work := rfl
@[simp] theorem updHost_draws (f : HostSide → HostSide) : (s.updHost f).draws = s.draws := rfl
@[simp] theorem updHost_host (f : HostSide → HostSide) : (s.updHost f).host = f s.host := rfl

@[simp] theorem andThen_done (f : State → Run) : (Run.done s).andThen f = f s := rfl
@[simp] theorem andThen_raised (c : Cause) (f : State → Run) : (Run.raised c s).andThen f = .raised c s := rfl
@[simp] theorem state_done : (Run.done s).state = s := rfl
@[simp] theorem state_raised (c : Cause) : (Run.raised c s).state = s := rfl
theorem raiseIf_pos {p : Prop} [Decidable p] (h : p) (c : Cause) : raiseIf p c s = .raised c s := if_pos h
theorem raiseIf_neg {p : Prop} [Decidable p] (h : ¬p) (c : Cause) : raiseIf p c s = .done s := if_neg h
@[simp] theorem settle_done (n : Nat) : settle n (.done s) = succeed n s := rfl
@[simp] theorem settle_raised (n : Nat) (c : Cause) : settle n (.raised c s) = takeFault c n s := rfl
@[simp] theorem forUp_zero (f : Nat → State → Run) (k : Nat) : forUp f 0 k s = .done s := rfl
theorem forUp_succ (f : Nat → State → Run) (n k : Nat) :
    forUp f (n + 1) k s = (f k s).andThen (forUp f n (k + 1)) := rfl
@[simp] theorem forEach_nil {α : Type} (f : α → State → Run) : forEach f [] s = .done s := rfl
theorem forEach_cons {α : Type} (f : α → State → Run) (x : α) (xs : List α) :
    forEach f (x :: xs) s = (f x s).andThen (forEach f xs) := rfl

end Sys2Proof.Machine
end

