-- ==== Sys2Proof/Laws/Memory.lean ====
section
/-! SUPPORT. The laws of a memory: a read after a write, and that every memory operation keeps the canonical form and
the capacity. -/

namespace Sys2Proof.Machine

variable {α : Type}

@[simp] theorem read_nil (a : Nat) : Memory.read ([] : Memory α) a = none := rfl

theorem read_write_same (m : Memory α) (a : Nat) (v : α) : Memory.read (Memory.write m a v) a = some v := by
  induction m with
  | nil => simp [Memory.write, Memory.read]
  | cons x t ih =>
    obtain ⟨k, w⟩ := x
    by_cases h1 : a < k
    · simp [Memory.write, Memory.read, h1]
    · by_cases h2 : a = k
      · simp [Memory.write, Memory.read, h2]
      · simp [Memory.write, Memory.read, h1, h2, Ne.symm h2, ih]

theorem read_write_other (m : Memory α) {a b : Nat} (v : α) (h : b ≠ a) :
    Memory.read (Memory.write m a v) b = Memory.read m b := by
  induction m with
  | nil => simp [Memory.write, Memory.read, h.symm]
  | cons x t ih =>
    obtain ⟨k, w⟩ := x
    by_cases h1 : a < k
    · simp [Memory.write, Memory.read, h1, h.symm]
    · by_cases h2 : a = k
      · subst h2
        simp [Memory.write, Memory.read, h.symm]
      · simp [Memory.write, Memory.read, h1, h2, ih]

theorem read_write (m : Memory α) (a b : Nat) (v : α) :
    Memory.read (Memory.write m a v) b = if b = a then some v else Memory.read m b := by
  by_cases h : b = a
  · simp [h, read_write_same]
  · simp [h, read_write_other m v h]

theorem mem_write (m : Memory α) (a : Nat) (v : α) (x : Nat × α) (h : x ∈ Memory.write m a v) :
    x = (a, v) ∨ x ∈ m := by
  induction m with
  | nil => simpa [Memory.write] using h
  | cons y t ih =>
    obtain ⟨k, w⟩ := y
    simp only [Memory.write] at h
    split at h
    · simpa using h
    · split at h
      · rcases List.mem_cons.1 h with h | h
        · exact .inl h
        · exact .inr (List.mem_cons_of_mem _ h)
      · rcases List.mem_cons.1 h with h | h
        · exact .inr (h ▸ List.mem_cons_self)
        · exact (ih h).imp_right (List.mem_cons_of_mem _)

theorem wf_write (m : Memory α) (a : Nat) (v : α) (h : Memory.wf m) : Memory.wf (Memory.write m a v) := by
  induction m with
  | nil => simp [Memory.write, Memory.wf]
  | cons y t ih =>
    obtain ⟨k, w⟩ := y
    obtain ⟨hk, ht⟩ := List.pairwise_cons.1 h
    simp only [Memory.write]
    split
    case isTrue hak =>
      refine List.pairwise_cons.2 ⟨fun x hx => ?_, h⟩
      rcases List.mem_cons.1 hx with hx | hx
      · exact hx ▸ hak
      · exact Nat.lt_trans hak (hk x hx)
    case isFalse hak =>
      split
      case isTrue hae => exact List.pairwise_cons.2 ⟨fun x hx => hae ▸ hk x hx, ht⟩
      case isFalse hae =>
        refine List.pairwise_cons.2 ⟨fun x hx => ?_, ih ht⟩
        rcases mem_write t a v x hx with hx | hx
        · subst hx
          show k < a
          omega
        · exact hk x hx

theorem below_write (m : Memory α) {a cap : Nat} (v : α) (ha : a < cap) (h : Memory.below m cap) :
    Memory.below (Memory.write m a v) cap := by
  intro x hx
  rcases mem_write m a v x hx with hx | hx
  · exact hx ▸ ha
  · exact h x hx

/-- A listed index reads as a value. -/
theorem read_isSome_of_mem (m : Memory α) (x : Nat × α) (h : x ∈ m) : (Memory.read m x.1).isSome = true := by
  induction m with
  | nil => cases h
  | cons y t ih =>
    obtain ⟨k, w⟩ := y
    by_cases hk : k = x.1
    · simp [Memory.read, hk]
    · rcases List.mem_cons.1 h with h | h
      · exact absurd (by rw [h]) hk
      · simpa [Memory.read, hk] using ih h

/-! ## Stale bits -/

theorem read_markStale (m : Memory BitCell) (a : Nat) :
    Memory.read (markStale m) a = (Memory.read m a).map fun c => { c with live := false } := by
  induction m with
  | nil => rfl
  | cons y t ih =>
    obtain ⟨k, w⟩ := y
    by_cases hk : k = a
    · simp [markStale, Memory.read, hk]
    · simpa [markStale, Memory.read, hk] using ih

@[simp] theorem liveBit_markStale (m : Memory BitCell) (a : Nat) : liveBit (markStale m) a = none := by
  cases h : Memory.read m a <;> simp [liveBit, read_markStale, h]

theorem liveBit_write (m : Memory BitCell) (a b : Nat) (x : Bool) :
    liveBit (Memory.write m a { bit := x, live := true }) b = if b = a then some x else liveBit m b := by
  by_cases h : b = a <;> simp [liveBit, read_write, h]

theorem wf_markStale (m : Memory BitCell) (h : Memory.wf m) : Memory.wf (markStale m) :=
  List.pairwise_map.2 h

theorem below_markStale (m : Memory BitCell) {cap : Nat} (h : Memory.below m cap) :
    Memory.below (markStale m) cap := by
  intro x hx
  obtain ⟨y, hy, rfl⟩ := List.mem_map.1 hx
  exact h y hy

/-! ## Memories of a canonical state stay canonical -/

/-- The four memories are canonical and within their capacities. -/
structure MemsOk (p : Params) (m : Mems) : Prop where
  src : Memory.wf m.src ∧ Memory.below m.src p.srcCap
  dst : Memory.wf m.dst ∧ Memory.below m.dst p.dstCap
  bbuf : Memory.wf m.bbuf ∧ Memory.below m.bbuf p.bitCap
  ct : Memory.wf m.ct ∧ Memory.below m.ct Config.ctEntries

theorem memsOk_reset (p : Params) : MemsOk p Mems.reset := by
  constructor <;> simp [Mems.reset, Memory.wf, Memory.below]

theorem memsOk_writeSrc (i : Nat) (v : Byte) (s : State) (h : MemsOk s.params s.mems) :
    MemsOk s.params (writeSrc i v s).mems := by
  unfold writeSrc
  split
  case isTrue hi => exact ⟨⟨wf_write _ _ _ h.src.1, below_write _ _ hi h.src.2⟩, h.dst, h.bbuf, h.ct⟩
  case isFalse => exact h

theorem memsOk_writeBbuf (i : Nat) (v : Bool) (s : State) (h : MemsOk s.params s.mems) :
    MemsOk s.params (writeBbuf i v s).mems := by
  unfold writeBbuf
  split
  case isTrue hi => exact ⟨h.src, h.dst, ⟨wf_write _ _ _ h.bbuf.1, below_write _ _ hi h.bbuf.2⟩, h.ct⟩
  case isFalse => exact h

theorem memsOk_writeCt (i : Nat) (e : CtEntry) (s : State) (h : MemsOk s.params s.mems) :
    MemsOk s.params (writeCt i e s).mems := by
  unfold writeCt
  split
  case isTrue hi => exact ⟨h.src, h.dst, h.bbuf, ⟨wf_write _ _ _ h.ct.1, below_write _ _ hi h.ct.2⟩⟩
  case isFalse => exact h

theorem memsOk_dstWrite (i : Nat) (v : Byte) (s : State) (h : MemsOk s.params s.mems) :
    MemsOk s.params (dstWrite i v s).state.mems := by
  unfold dstWrite
  split
  case isTrue => exact h
  case isFalse hi =>
    exact ⟨h.src, ⟨wf_write _ _ _ h.dst.1, below_write _ _ (Nat.lt_of_not_le hi) h.dst.2⟩, h.bbuf, h.ct⟩

theorem memsOk_bitWrite (i : Nat) (v : Bool) (s : State) (h : MemsOk s.params s.mems) :
    MemsOk s.params (bitWrite i v s).state.mems := by
  unfold bitWrite
  split
  case isTrue => exact h
  case isFalse hi =>
    exact ⟨h.src, h.dst, ⟨wf_write _ _ _ h.bbuf.1, below_write _ _ (Nat.lt_of_not_le hi) h.bbuf.2⟩, h.ct⟩

theorem memsOk_clearSet (i : Instr) (s : State) (h : MemsOk s.params s.mems) :
    MemsOk s.params (clearSet i s).mems := by
  have stale : MemsOk s.params { s.mems with bbuf := markStale s.mems.bbuf } :=
    ⟨h.src, h.dst, ⟨wf_markStale _ h.bbuf.1, below_markStale _ h.bbuf.2⟩, h.ct⟩
  cases i with
  | pack => exact h
  | unpack => exact stale
  | hwalk => exact h
  | hdec => exact stale
  | rled => exact h

end Sys2Proof.Machine
end

