-- ==== Sys2Proof/Laws/Run.lean ====
section
/-! SUPPORT. Reasoning about a piece of pseudocode: `Holds` says what is true where it ends and what is true where it
raises, with one rule per way of building a piece, and one spec lemma per shared operation. -/

namespace Sys2Proof.Machine

/-- `Q` is true of the state where `r` ends, and `E` of the cause and the state where it raises. -/
def Run.Holds (r : Run) (Q : State → Prop) (E : Cause → State → Prop) : Prop :=
  match r with
  | .done s => Q s
  | .raised c s => E c s

variable {Q R : State → Prop} {E F : Cause → State → Prop}

@[simp] theorem holds_done (s : State) : (Run.done s).Holds Q E ↔ Q s := Iff.rfl
@[simp] theorem holds_raised (c : Cause) (s : State) : (Run.raised c s).Holds Q E ↔ E c s := Iff.rfl

theorem Run.Holds.mono {r : Run} (h : r.Holds Q E) (hQ : ∀ s, Q s → R s) (hE : ∀ c s, E c s → F c s) :
    r.Holds R F := by
  cases r with
  | done s => exact hQ s h
  | raised c s => exact hE c s h

theorem Run.Holds.andThen {r : Run} {f : State → Run} (h : r.Holds Q E) (hf : ∀ s, Q s → (f s).Holds R E) :
    (r.andThen f).Holds R E := by
  cases r with
  | done s => exact hf s h
  | raised c s => exact h

/-- The same where the first piece is known by a spec lemma with conditions of its own. -/
theorem Run.Holds.bind {r : Run} {f : State → Run} (h : r.Holds Q E) (hf : ∀ s, Q s → (f s).Holds R F)
    (hE : ∀ c s, E c s → F c s) : (r.andThen f).Holds R F := by
  cases r with
  | done s => exact hf s h
  | raised c s => exact hE c s h

theorem holds_raiseIf {p : Prop} [Decidable p] {c : Cause} {s : State} (ht : p → E c s) (hf : ¬p → Q s) :
    (raiseIf p c s).Holds Q E := by
  unfold raiseIf
  split
  case isTrue h => exact ht h
  case isFalse h => exact hf h

/-- The induction of every `for` loop, once: an invariant indexed by the loop variable. -/
theorem holds_forUp (P : Nat → State → Prop) (f : Nat → State → Run) :
    ∀ (n k : Nat) (s : State), P k s → (∀ j t, k ≤ j → j < k + n → P j t → (f j t).Holds (P (j + 1)) E) →
      (forUp f n k s).Holds (P (k + n)) E
  | 0, _, _, h0, _ => h0
  | n + 1, k, s, h0, hstep => by
    rw [forUp_succ]
    refine (hstep k s (Nat.le_refl k) (by omega) h0).andThen fun t ht => ?_
    have := holds_forUp P f n (k + 1) t ht fun j u hj hj' => hstep j u (by omega) (by omega)
    simpa [Nat.add_assoc, Nat.add_comm 1 n] using this

/-- The same for a loop whose invariant does not look at the loop variable. -/
theorem holds_forUp_const (P : State → Prop) (f : Nat → State → Run) (n k : Nat) (s : State) (h0 : P s)
    (hstep : ∀ j t, P t → (f j t).Holds P E) : (forUp f n k s).Holds P E :=
  holds_forUp (fun _ => P) f n k s h0 fun j t _ _ => hstep j t

/-- The induction of every `for … in` loop over a list. -/
theorem holds_forEach {α : Type} (P : List α → State → Prop) (f : α → State → Run)
    (hstep : ∀ x xs t, P (x :: xs) t → (f x t).Holds (P xs) E) :
    ∀ (xs : List α) (s : State), P xs s → (forEach f xs s).Holds (P []) E
  | [], _, h0 => h0
  | x :: xs, s, h0 => by
    rw [forEach_cons]
    exact (hstep x xs s h0).andThen fun t ht => holds_forEach P f hstep xs t ht

/-! ## The two writes -/

/-- Everything `DstWrite` can do (R55). -/
theorem holds_dstWrite (i : Nat) (v : Byte) (s : State)
    (hf : s.params.dstCap ≤ i → E .capacity s)
    (ht : i < s.params.dstCap →
      Q { s with mems := { s.mems with dst := Memory.write s.mems.dst i v }, regs := { s.regs with dstLen := i + 1 } }) :
    (dstWrite i v s).Holds Q E := by
  unfold dstWrite
  split
  case isTrue h => exact hf h
  case isFalse h => exact ht (Nat.lt_of_not_le h)

/-- Everything `BitWrite` can do (R55). -/
theorem holds_bitWrite (i : Nat) (v : Bool) (s : State)
    (hf : s.params.bitCap ≤ i → E .capacity s)
    (ht : i < s.params.bitCap →
      Q { s with mems := { s.mems with bbuf := Memory.write s.mems.bbuf i { bit := v, live := true } },
                 regs := { s.regs with bitLen := i + 1 } }) :
    (bitWrite i v s).Holds Q E := by
  unfold bitWrite
  split
  case isTrue h => exact hf h
  case isFalse h => exact ht (Nat.lt_of_not_le h)

/-- Everything `DstWrite(DI, v) ; DI <- DI + 1` can do. -/
theorem holds_emitByte (v : Byte) (s : State)
    (hf : s.params.dstCap ≤ s.work.di → E .capacity s)
    (ht : s.work.di < s.params.dstCap →
      Q { s with mems := { s.mems with dst := Memory.write s.mems.dst s.work.di v },
                 regs := { s.regs with dstLen := s.work.di + 1 }, work := { s.work with di := s.work.di + 1 } }) :
    (emitByte v s).Holds Q E := by
  unfold emitByte dstWrite
  split
  case isTrue h => exact hf h
  case isFalse h => exact ht (Nat.lt_of_not_le h)

end Sys2Proof.Machine
end

