-- ==== Sys2Proof/Laws/Put.lean ====
section
/-! SUPPORT. Elements written one after another from index 0, as every command writes its output: what the memory then
holds, and one spec lemma for writing many Bytes. -/

namespace Sys2Proof.Machine

variable {α : Type}

/-- The elements of `xs` written at indices `i`, `i + 1`, … -/
def putFrom (m : Memory α) (i : Nat) : List α → Memory α
  | [] => m
  | x :: xs => putFrom (Memory.write m i x) (i + 1) xs

@[simp] theorem putFrom_nil (m : Memory α) (i : Nat) : putFrom m i [] = m := rfl

theorem putFrom_append (xs : List α) (y : α) : ∀ (m : Memory α) (i : Nat),
    putFrom m i (xs ++ [y]) = Memory.write (putFrom m i xs) (i + xs.length) y := by
  induction xs with
  | nil => intro m i; rfl
  | cons x xs ih =>
    intro m i
    show putFrom _ (i + 1) (xs ++ [y]) = Memory.write (putFrom _ (i + 1) xs) _ _
    rw [ih, List.length_cons, Nat.add_assoc, Nat.add_comm 1]

theorem read_putFrom (xs : List α) : ∀ (m : Memory α) (i a : Nat),
    Memory.read (putFrom m i xs) a = if i ≤ a ∧ a < i + xs.length then xs[a - i]? else Memory.read m a := by
  induction xs with
  | nil => intro m i a; simp
  | cons x xs ih =>
    intro m i a
    simp only [putFrom, ih, read_write, List.length_cons]
    by_cases h : a = i
    · subst h; simp
    · by_cases h1 : i + 1 ≤ a ∧ a < i + 1 + xs.length
      · rw [if_pos h1, if_pos (by omega), show a - i = (a - (i + 1)) + 1 by omega, List.getElem?_cons_succ]
      · rw [if_neg h1, if_neg h, if_neg (by omega)]

/-- What a run of writes to DST has done to a state whose DST was `m`: the Bytes `xs` stand at 0, 1, … -/
structure Out (m : List Host.Cell) (xs : List Byte) (t : State) : Prop where
  dst : t.mems.dst = putFrom m 0 xs
  len : t.regs.dstLen = xs.length
  di : t.work.di = xs.length

theorem range_map_read (m : Memory α) (xs : List α) :
    (List.range xs.length).map (Memory.read (putFrom m 0 xs)) = xs.map some := by
  apply List.ext_getElem (by simp)
  intro i h1 h2
  have h : i < xs.length := by simpa using h2
  simp [read_putFrom, h]

theorem dstOut_of_dst {m : List Host.Cell} {xs : List Byte} {t : State} (h : t.mems.dst = putFrom m 0 xs)
    (hl : t.regs.dstLen = xs.length) : dstOut t = xs.map some := by
  rw [dstOut, h, hl, range_map_read]

/-- Only DST, `DST_LEN` and the working registers differ. -/
structure KeptButDst (s t : State) : Prop where
  params : t.params = s.params
  draws : t.draws = s.draws
  host : t.host = s.host
  src : t.mems.src = s.mems.src
  bbuf : t.mems.bbuf = s.mems.bbuf
  ct : t.mems.ct = s.mems.ct
  cmd : t.regs.cmd = s.regs.cmd
  status : t.regs.status = s.regs.status
  errcode : t.regs.errcode = s.regs.errcode
  srcLen : t.regs.srcLen = s.regs.srcLen
  bitLen : t.regs.bitLen = s.regs.bitLen
  nsym : t.regs.nsym = s.regs.nsym
  pad : t.regs.pad = s.regs.pad
  progress : t.regs.progress = s.regs.progress

theorem KeptButDst.refl (s : State) : KeptButDst s s := by constructor <;> rfl

theorem KeptButDst.trans {s t u : State} (h : KeptButDst s t) (g : KeptButDst t u) : KeptButDst s u where
  params := g.params.trans h.params
  draws := g.draws.trans h.draws
  host := g.host.trans h.host
  src := g.src.trans h.src
  bbuf := g.bbuf.trans h.bbuf
  ct := g.ct.trans h.ct
  cmd := g.cmd.trans h.cmd
  status := g.status.trans h.status
  errcode := g.errcode.trans h.errcode
  srcLen := g.srcLen.trans h.srcLen
  bitLen := g.bitLen.trans h.bitLen
  nsym := g.nsym.trans h.nsym
  pad := g.pad.trans h.pad
  progress := g.progress.trans h.progress

theorem KeptButDst.updWork {s t : State} (h : KeptButDst s t) (f : Work → Work) : KeptButDst s (t.updWork f) :=
  ⟨h.params, h.draws, h.host, h.src, h.bbuf, h.ct, h.cmd, h.status, h.errcode, h.srcLen, h.bitLen, h.nsym, h.pad,
    h.progress⟩

/-- What a command reads is the same in both states. -/
theorem KeptButDst.srcRead {s t : State} (h : KeptButDst s t) : srcRead t = srcRead s := by
  funext i; simp only [Machine.srcRead, h.src, h.draws]

theorem KeptButDst.bitRead {s t : State} (h : KeptButDst s t) : bitRead t = bitRead s := by
  funext i; simp only [Machine.bitRead, h.bbuf, h.draws]

@[simp] theorem length_bbufBits (s : State) : (bbufBits s).length = s.regs.bitLen := by simp [bbufBits]

/-- One Byte emitted: it is appended, or DST is full. -/
theorem emitByte_spec {m : List Host.Cell} {xs : List Byte} {s : State} (v : Byte) (h : Out m xs s) :
    (emitByte v s).Holds
      (fun t => Out m (xs ++ [v]) t ∧ xs.length < s.params.dstCap ∧ KeptButDst s t ∧
        t.work = { s.work with di := s.work.di + 1 })
      (fun c t => c = .capacity ∧ t = s ∧ s.params.dstCap ≤ xs.length) := by
  apply holds_emitByte
  · intro hc
    exact ⟨rfl, rfl, h.di ▸ hc⟩
  · intro hc
    refine ⟨⟨?_, ?_, ?_⟩, h.di ▸ hc, by constructor <;> rfl, rfl⟩
    · simp only [putFrom_append, h.dst, h.di, Nat.zero_add]
    · simp [h.di]
    · simp [h.di]

/-- `n` copies emitted: all of them are appended, or as many as fit. -/
theorem emitMany_spec {m : List Host.Cell} {xs : List Byte} {s : State} (v : Byte) (n k : Nat) (h : Out m xs s)
    (hcap : xs.length ≤ s.params.dstCap) :
    (forUp (fun _ => emitByte v) n k s).Holds
      (fun t => Out m (xs ++ List.replicate n v) t ∧ xs.length + n ≤ s.params.dstCap ∧ KeptButDst s t ∧
        t.work = { s.work with di := t.work.di })
      (fun c t => c = .capacity ∧ s.params.dstCap < xs.length + n ∧
        Out m ((xs ++ List.replicate n v).take s.params.dstCap) t ∧ KeptButDst s t ∧
        t.work = { s.work with di := t.work.di }) := by
  have key := holds_forUp
    (fun j t => Out m (xs ++ List.replicate (j - k) v) t ∧ xs.length + (j - k) ≤ s.params.dstCap ∧ KeptButDst s t ∧
      t.work = { s.work with di := t.work.di })
    (E := fun c t => c = .capacity ∧ s.params.dstCap < xs.length + n ∧
        Out m ((xs ++ List.replicate n v).take s.params.dstCap) t ∧ KeptButDst s t ∧
        t.work = { s.work with di := t.work.di })
    (fun _ => emitByte v) n k s (by simpa using ⟨h, hcap, KeptButDst.refl s⟩) ?_
  · simpa using key
  · rintro j t hkj hjn ⟨ho, hl, hk, hw⟩
    have hp : t.params = s.params := hk.params
    refine (emitByte_spec v ho).mono ?_ ?_
    · rintro u ⟨hu, hlt, hku, hwu⟩
      have e : j + 1 - k = (j - k) + 1 := by omega
      refine ⟨?_, ?_, hk.trans hku, ?_⟩
      · rw [e, List.replicate_succ', ← List.append_assoc]; exact hu
      · simp [hp] at hlt; omega
      · rw [hwu, hw]
    · rintro c u ⟨rfl, rfl, hfull⟩
      have hfull' : s.params.dstCap = xs.length + (j - k) := by
        simp [hp] at hfull; omega
      refine ⟨rfl, by omega, ?_, hk, hw⟩
      have : (xs ++ List.replicate n v).take s.params.dstCap = xs ++ List.replicate (j - k) v := by
        rw [hfull', List.take_append, List.take_of_length_le (by omega), List.take_replicate]
        congr 2
        omega
      rw [this]; exact ho

end Sys2Proof.Machine
end

