-- ==== Sys2Proof/Laws/WalkSpec.lean ====
section
/-! SUPPORT. What the walk of HWALK and HDEC does, once, for every table: it writes what the greedy match outputs, or as
much of it as fits; and what the code table is as a list. -/

namespace Sys2Proof.Machine

/-! ## The code table as a list -/

theorem mem_codeList (ct : Memory CtEntry) (b : Byte) (c : Bits) :
    (b, c) ∈ codeList ct ↔ codeOf ct b.toNat = some c := by
  simp only [codeList, List.mem_filterMap, List.mem_range, Option.map_eq_some_iff, Prod.mk.injEq]
  constructor
  · rintro ⟨a, ha, d, hd, hab, rfl⟩
    have : b.toNat = a := by rw [← hab, BitVec.toNat_ofNat]; exact Nat.mod_eq_of_lt ha
    rw [this]; exact hd
  · intro h
    exact ⟨b.toNat, b.isLt, c, h, by simp, rfl⟩

/-- A Byte has at most one code (R24). -/
theorem codeList_inj {ct : Memory CtEntry} {e f : Byte × Bits} (he : e ∈ codeList ct) (hf : f ∈ codeList ct)
    (h : e.1 = f.1) : e = f := by
  obtain ⟨b, c⟩ := e
  obtain ⟨b', c'⟩ := f
  obtain rfl : b = b' := h
  rw [mem_codeList] at he hf
  rw [he] at hf
  exact Prod.ext rfl (Option.some.inj hf)

/-! ## The greedy match -/

theorem greedy_nil (codes : List (Byte × Bits)) (acc : Bits) : greedy codes acc [] = ([], acc) := rfl

theorem greedy_match {codes : List (Byte × Bits)} {acc : Bits} {x : Bool} {e : Byte × Bits}
    (h : codes.find? (fun e => e.2 == acc ++ [x]) = some e) (xs : Bits) :
    greedy codes acc (x :: xs) = (e.1 :: (greedy codes [] xs).1, (greedy codes [] xs).2) := by
  rw [greedy, h]

theorem greedy_grow {codes : List (Byte × Bits)} {acc : Bits} {x : Bool}
    (h : codes.find? (fun e => e.2 == acc ++ [x]) = none) (xs : Bits) :
    greedy codes acc (x :: xs) = greedy codes (acc ++ [x]) xs := by
  rw [greedy, h]

/-- Once the accumulator is a prefix of no code it never matches again (R106). -/
theorem greedy_dead (codes : List (Byte × Bits)) (xs : Bits) : ∀ acc : Bits, (∀ e ∈ codes, ¬acc <+: e.2) →
    greedy codes acc xs = ([], acc ++ xs) := by
  induction xs with
  | nil => intro acc _; simp [greedy]
  | cons x xs ih =>
    intro acc h
    have hno : ∀ e ∈ codes, ¬(acc ++ [x]) <+: e.2 := fun e he hp => h e he ((List.prefix_append _ _).trans hp)
    have hf : codes.find? (fun e => e.2 == acc ++ [x]) = none := by
      rw [List.find?_eq_none]
      intro e he heq
      exact hno e he (by rw [beq_iff_eq.1 heq])
    rw [greedy_grow hf, ih _ hno, List.append_assoc, List.singleton_append]

/-- The three outcomes of a step, each with what it says of the greedy match. -/
theorem treeStep_cases (codes : List (Byte × Bits)) (p : Bits) (x : Bool) :
    (∃ e ∈ codes, e.2 = p ++ [x] ∧ treeStep codes p x = .emit e.1 ∧
      ∀ xs, greedy codes p (x :: xs) = (e.1 :: (greedy codes [] xs).1, (greedy codes [] xs).2)) ∨
    (treeStep codes p x = .descend ∧ (∃ e ∈ codes, (p ++ [x]) <+: e.2 ∧ (p ++ [x]).length < e.2.length) ∧
      ∀ xs, greedy codes p (x :: xs) = greedy codes (p ++ [x]) xs) ∨
    (treeStep codes p x = .dead ∧ (∀ e ∈ codes, ¬(p ++ [x]) <+: e.2) ∧
      ∀ xs, greedy codes p (x :: xs) = ([], p ++ x :: xs)) := by
  unfold treeStep
  dsimp only
  split
  case h_1 e hf =>
    refine .inl ⟨e, List.mem_of_find?_eq_some hf, ?_, rfl, greedy_match hf⟩
    have := List.find?_some hf
    simpa using this
  case h_2 hnone =>
    have hf := List.find?_eq_none.1 hnone
    right
    split
    case isTrue hany =>
      refine .inl ⟨rfl, ?_, greedy_grow hnone⟩
      obtain ⟨e, he, hp⟩ := List.any_eq_true.1 hany
      simp only [Bool.and_eq_true, decide_eq_true_eq, List.isPrefixOf_iff_prefix] at hp
      exact ⟨e, he, hp⟩
    case isFalse hany =>
      have hno : ∀ e ∈ codes, ¬(p ++ [x]) <+: e.2 := by
        intro e he hp
        apply hany
        refine List.any_eq_true.2 ⟨e, he, ?_⟩
        have hne : e.2 ≠ p ++ [x] := by simpa using hf e he
        have hle := hp.length_le
        have hlt : (p ++ [x]).length < e.2.length := by
          rcases Nat.lt_or_ge (p ++ [x]).length e.2.length with h | h
          · exact h
          · exact absurd (hp.eq_of_length (Nat.le_antisymm hle h)).symm hne
        simp only [Bool.and_eq_true, decide_eq_true_eq, List.isPrefixOf_iff_prefix]
        exact ⟨hp, hlt⟩
      refine .inr ⟨rfl, hno, fun xs => ?_⟩
      rw [greedy_grow hnone, greedy_dead codes xs _ hno]
      simp

/-! ## The walk -/

/-- The working registers the walk does not use are unchanged. -/
def WalkWork (s t : State) : Prop :=
  t.work.sh = s.work.sh ∧ t.work.bc = s.work.bc ∧ t.work.si = s.work.si ∧ t.work.nb = s.work.nb ∧
    t.work.rv = s.work.rv ∧ t.work.rc = s.work.rc

/-- A node the walk may stand at between bits: the root, or a proper prefix of a code (R26). -/
def AliveNode (codes : List (Byte × Bits)) (p : Bits) : Prop :=
  p = [] ∨ ∃ e ∈ codes, p <+: e.2 ∧ p.length < e.2.length

/-- The invariant of the walk after `k` of the bits `bits`: `xs` has been written, and the greedy match goes on from the
node as it stands. -/
structure Walked (m : List Host.Cell) (codes : List (Byte × Bits)) (bits : Bits) (s : State) (k : Nat) (t : State) :
    Prop where
  out : ∃ xs, Out m xs t ∧ xs.length ≤ s.params.dstCap ∧ greedy codes [] bits =
    (xs ++ (greedy codes t.work.node (bits.drop k)).1, (greedy codes t.work.node (bits.drop k)).2)
  kept : KeptButDst s t
  work : WalkWork s t
  alive : AliveNode codes t.work.node

/-- Where the walk faults: DST is full and the greedy match goes on, or it is dead. -/
structure WalkFault (m : List Host.Cell) (codes : List (Byte × Bits)) (bits : Bits) (s : State) (c : Cause) (t : State) :
    Prop where
  outcome : (c = .capacity ∧ s.params.dstCap < (greedy codes [] bits).1.length ∧
      Out m ((greedy codes [] bits).1.take s.params.dstCap) t) ∨
    (c = .corruptStream ∧ (greedy codes [] bits).1.length ≤ s.params.dstCap ∧ (greedy codes [] bits).2 ≠ [] ∧
      Out m (greedy codes [] bits).1 t)
  kept : KeptButDst s t
  work : WalkWork s t
  alive : AliveNode codes t.work.node

theorem walkBit_spec {m : List Host.Cell} {codes : List (Byte × Bits)} {s t : State} {k : Nat}
    (hk : k < s.regs.bitLen) (h : Walked m codes (bbufBits s) s k t) :
    (walkBit codes k t).Holds (Walked m codes (bbufBits s) s (k + 1)) (WalkFault m codes (bbufBits s) s) := by
  obtain ⟨xs, hout, hcap, hg⟩ := h.out
  have hlen : k < (bbufBits s).length := by simpa [bbufBits] using hk
  have hbit : (bbufBits s)[k] = bitRead s k := by simp [bbufBits]
  rw [List.drop_eq_getElem_cons hlen, hbit] at hg
  unfold walkBit
  simp only [h.kept.bitRead]
  generalize ht' : t.updWork (fun w => { w with bi := k }) = t'
  have hout' : Out m xs t' := by subst ht'; exact ⟨hout.dst, hout.len, hout.di⟩
  have hkept : KeptButDst s t' := by subst ht'; exact h.kept.updWork _
  have hwork : WalkWork s t' := by subst ht'; exact h.work
  have hnode : t'.work.node = t.work.node := by subst ht'; rfl
  have halive : AliveNode codes t'.work.node := by rw [hnode]; exact h.alive
  rw [← hnode] at hg
  rcases treeStep_cases codes t'.work.node (bitRead s k) with
    ⟨e, he, hcode, hstep, hgr⟩ | ⟨hstep, hmore, hgr⟩ | ⟨hstep, hno, hgr⟩
  · rw [hgr] at hg
    simp only [hnode] at hstep
    simp only [hstep]
    refine (emitByte_spec e.1 hout').bind ?_ ?_
    · rintro u ⟨hu, hl, hku, hwu⟩
      rw [hkept.params] at hl
      refine ⟨⟨xs ++ [e.1], ⟨hu.dst, hu.len, hu.di⟩, by simpa using hl, ?_⟩, (hkept.trans hku).updWork _, ?_, .inl rfl⟩
      · rw [hg]; simp
      · show WalkWork s (u.updWork _)
        simp only [WalkWork, hwu]; exact hwork
    · rintro c u ⟨rfl, rfl, hfull⟩
      rw [hkept.params] at hfull
      have heq : xs.length = s.params.dstCap := by omega
      refine ⟨.inl ⟨rfl, by rw [hg]; simp; omega, ?_⟩, hkept, hwork, halive⟩
      rw [hg, ← heq]
      simpa using hout'
  · rw [hgr] at hg
    simp only [hnode] at hstep
    simp only [hstep]
    refine ⟨⟨xs, ⟨hout'.dst, hout'.len, hout'.di⟩, hcap, hg⟩, hkept.updWork _, hwork, .inr hmore⟩
  · rw [hgr] at hg
    simp only [hnode] at hstep
    simp only [hstep]
    refine ⟨.inr ⟨rfl, by rw [hg]; simpa using hcap, by rw [hg]; simp, ?_⟩, hkept, hwork, halive⟩
    rw [hg]; simpa using hout'

/-- Everything the walk of an ordinary table can do, from `DI = DST_LEN = 0`. -/
theorem treeWalk_spec {m : List Host.Cell} (codes : List (Byte × Bits)) (s : State) (ho : Out m [] s) :
    (treeWalk codes s).Holds
      (fun t => (greedy codes [] (bbufBits s)).1.length ≤ s.params.dstCap ∧ (greedy codes [] (bbufBits s)).2 = [] ∧
        Out m (greedy codes [] (bbufBits s)).1 t ∧ KeptButDst s t ∧ WalkWork s t ∧ t.work.node = [])
      (WalkFault m codes (bbufBits s) s) := by
  unfold treeWalk
  have hstart : Walked m codes (bbufBits s) s 0 (s.updWork fun w => { w with node := [] }) := by
    refine ⟨⟨[], ⟨ho.dst, ho.len, ho.di⟩, Nat.zero_le _, by simp⟩, (KeptButDst.refl s).updWork _, ?_, .inl rfl⟩
    exact ⟨rfl, rfl, rfl, rfl, rfl, rfl⟩
  have key := holds_forUp (Walked m codes (bbufBits s) s) (walkBit codes) s.regs.bitLen 0
    (s.updWork fun w => { w with node := [] }) hstart fun j t _ hj ht => walkBit_spec (by omega) ht
  refine key.andThen ?_
  intro t ht
  obtain ⟨xs, hout, hcap, hg⟩ := ht.out
  have hdrop : (bbufBits s).drop (0 + s.regs.bitLen) = [] := by simp [bbufBits]
  rw [hdrop, greedy_nil, List.append_nil] at hg
  refine holds_raiseIf ?_ ?_
  · intro hn
    exact ⟨.inr ⟨rfl, by rw [hg]; exact hcap, by rw [hg]; exact hn, by rw [hg]; exact hout⟩, ht.kept, ht.work, ht.alive⟩
  · intro hn
    have hn' : t.work.node = [] := not_not.1 hn
    exact ⟨by rw [hg]; exact hcap, by rw [hg]; exact hn', by rw [hg]; exact hout, ht.kept, ht.work, hn'⟩

/-- Everything the degenerate walk can do, from `DI = DST_LEN = 0` (R104). -/
theorem degenerateWalk_spec {m : List Host.Cell} (b : Byte) (s : State) (ho : Out m [] s) :
    (degenerateWalk b s).Holds
      (fun t => s.regs.bitLen = 0 ∧ s.regs.nsym ≤ s.params.dstCap ∧ Out m (List.replicate s.regs.nsym b) t ∧
        KeptButDst s t ∧ t.work = { s.work with di := t.work.di })
      (fun c t => (c = .corruptStream ∧ s.regs.bitLen ≠ 0 ∧ t = s) ∨
        (c = .capacity ∧ s.regs.bitLen = 0 ∧ s.params.dstCap < s.regs.nsym ∧
          Out m (List.replicate s.params.dstCap b) t ∧ KeptButDst s t ∧ t.work = { s.work with di := t.work.di })) := by
  unfold degenerateWalk
  by_cases hb : s.regs.bitLen ≠ 0
  · rw [raiseIf_pos _ hb]
    exact .inl ⟨rfl, hb, rfl⟩
  · rw [raiseIf_neg _ hb]
    have hb' := not_not.1 hb
    refine (emitMany_spec b s.regs.nsym 1 ho (Nat.zero_le _)).mono ?_ ?_
    · rintro t ⟨ht, hl, hk, hw⟩
      exact ⟨hb', by simpa using hl, by simpa using ht, hk, hw⟩
    · rintro c t ⟨hc, hl, ht, hk, hw⟩
      have hl' : s.params.dstCap < s.regs.nsym := by simpa using hl
      refine .inr ⟨hc, hb', hl', ?_, hk, hw⟩
      rw [List.nil_append, List.take_replicate, Nat.min_eq_left (by omega)] at ht
      exact ht

/-! ## Both walks in one -/

/-- How a walk ends, as a function of the table and the bits (R104, R109): the cause, where it faults, and the Bytes
written. -/
def walkOutcome (cap nsym : Nat) (codes : List (Byte × Bits)) (bits : Bits) : Option Cause × List Byte :=
  match degenerateByte codes with
  | some b =>
    if bits.length ≠ 0 then (some .corruptStream, [])
    else if cap < nsym then (some .capacity, List.replicate cap b)
    else (none, List.replicate nsym b)
  | none =>
    if cap < (greedy codes [] bits).1.length then (some .capacity, (greedy codes [] bits).1.take cap)
    else if (greedy codes [] bits).2 = [] then (none, (greedy codes [] bits).1)
    else (some .corruptStream, (greedy codes [] bits).1)

/-- The cause of a piece that raises. -/
def Run.cause : Run → Option Cause
  | .done _ => none
  | .raised c _ => some c

/-- Everything the walk can do, from a `DST_LEN` that the command start has cleared. -/
theorem walk_spec (s : State) (h0 : s.regs.dstLen = 0) :
    let out := walkOutcome s.params.dstCap s.regs.nsym (codeList s.mems.ct) (bbufBits s)
    (walk s).cause = out.1 ∧ (walk s).state.mems.dst = putFrom s.mems.dst 0 out.2 ∧
      (walk s).state.regs.dstLen = out.2.length ∧ KeptButDst s (walk s).state ∧ WalkWork s (walk s).state := by
  intro out
  subst out
  unfold walkOutcome
  have hw : walk s = match degenerateByte (codeList s.mems.ct) with
      | some b => degenerateWalk b (s.updWork fun w => { w with di := 0 })
      | none => treeWalk (codeList s.mems.ct) (s.updWork fun w => { w with di := 0 }) := rfl
  rw [hw]; clear hw
  have ho : Out s.mems.dst [] (s.updWork fun w => { w with di := 0 }) := ⟨rfl, h0, rfl⟩
  have hb : bbufBits (s.updWork fun w => { w with di := 0 }) = bbufBits s := rfl
  cases hd : degenerateByte (codeList s.mems.ct) with
  | some b =>
    have := degenerateWalk_spec b _ ho
    simp only []
    cases hr : degenerateWalk b (s.updWork fun w => { w with di := 0 }) with
    | done t =>
      rw [hr] at this
      obtain ⟨a, c, o, k, w⟩ := this
      have a' : s.regs.bitLen = 0 := a
      have c' : s.regs.nsym ≤ s.params.dstCap := c
      rw [length_bbufBits, if_neg (by simpa using a'), if_neg (by omega)]
      refine ⟨rfl, o.dst, o.len, ?_, ?_⟩
      · exact ((KeptButDst.refl s).updWork _).trans k
      · simp only [WalkWork, Run.state]; rw [w]; exact ⟨rfl, rfl, rfl, rfl, rfl, rfl⟩
    | raised c t =>
      rw [hr] at this
      rcases this with ⟨rfl, a, rfl⟩ | ⟨rfl, a, c, o, k, w⟩
      · have a' : s.regs.bitLen ≠ 0 := a
        rw [length_bbufBits, if_pos a']
        exact ⟨rfl, rfl, h0, by constructor <;> rfl, rfl, rfl, rfl, rfl, rfl, rfl⟩
      · have a' : s.regs.bitLen = 0 := a
        have c' : s.params.dstCap < s.regs.nsym := c
        rw [length_bbufBits, if_neg (by simpa using a'), if_pos c']
        refine ⟨rfl, o.dst, o.len, ?_, ?_⟩
        · exact ((KeptButDst.refl s).updWork _).trans k
        · simp only [WalkWork, Run.state]; rw [w]; exact ⟨rfl, rfl, rfl, rfl, rfl, rfl⟩
  | none =>
    have := treeWalk_spec (codeList s.mems.ct) _ ho
    simp only []
    rw [hb] at this
    cases hr : treeWalk (codeList s.mems.ct) (s.updWork fun w => { w with di := 0 }) with
    | done t =>
      rw [hr] at this
      obtain ⟨a, c, o, k, w, -⟩ := this
      have a' : (greedy (codeList s.mems.ct) [] (bbufBits s)).1.length ≤ s.params.dstCap := a
      rw [if_neg (by omega), if_pos c]
      exact ⟨rfl, o.dst, o.len, ((KeptButDst.refl s).updWork _).trans k, w⟩
    | raised c t =>
      rw [hr] at this
      obtain ⟨o, k, w, -⟩ := this
      rcases o with ⟨rfl, a, o⟩ | ⟨rfl, a, c, o⟩
      · have a' : s.params.dstCap < (greedy (codeList s.mems.ct) [] (bbufBits s)).1.length := a
        rw [if_pos a']
        exact ⟨rfl, o.dst, o.len, ((KeptButDst.refl s).updWork _).trans k, w⟩
      · have a' : (greedy (codeList s.mems.ct) [] (bbufBits s)).1.length ≤ s.params.dstCap := a
        rw [if_neg (by omega), if_neg c]
        exact ⟨rfl, o.dst, o.len, ((KeptButDst.refl s).updWork _).trans k, w⟩

end Sys2Proof.Machine
end

