-- ==== Sys2Proof/Laws/CodeSpec.lean ====
section
/-! SUPPORT. Tables that pass the check, and the greedy match against them as the inverse of concatenating codes. -/

namespace Sys2Proof.Machine

/-- Where the greedy match ends with an empty accumulator, the bits are a concatenation of codes. -/
theorem decodes_of_greedy (T : List (Byte × Bits)) : ∀ (xs acc : Bits) (out : List Byte),
    greedy T acc xs = (out, []) → Decodes T (acc ++ xs) out := by
  intro xs
  induction xs with
  | nil =>
    intro acc out h
    rw [greedy_nil] at h
    injection h with h1 h2
    subst h1 h2
    exact .nil
  | cons x xs ih =>
    intro acc out h
    rcases treeStep_cases T acc x with ⟨e, he, hc, -, hg⟩ | ⟨-, -, hg⟩ | ⟨-, -, hg⟩
    · rw [hg] at h
      injection h with h1 h2
      subst h1
      have hrest := Decodes.cons e.1 e.2 _ _ he (ih [] (greedy T [] xs).1 (Prod.ext rfl h2))
      rw [hc] at hrest
      simpa using hrest
    · rw [hg] at h
      simpa using ih _ _ h
    · rw [hg] at h
      injection h with h1 h2
      simp at h2

/-- One code a Byte, no code a prefix of another's, and no empty code. -/
structure PrefixFree (T : List (Byte × Bits)) : Prop where
  inj : ∀ e ∈ T, ∀ f ∈ T, e.1 = f.1 → e = f
  apart : ∀ e ∈ T, ∀ f ∈ T, e.2 <+: f.2 → e.1 = f.1
  nonempty : ∀ e ∈ T, e.2 ≠ []

/-- The greedy match finds a code where one begins. -/
theorem greedy_code {T : List (Byte × Bits)} (g : PrefixFree T) {b : Byte} {c : Bits} (h : (b, c) ∈ T) (r : Bits) :
    ∀ (c' acc : Bits), c' ≠ [] → acc ++ c' = c →
      greedy T acc (c' ++ r) = (b :: (greedy T [] r).1, (greedy T [] r).2) := by
  intro c'
  induction c' with
  | nil => intro _ h; exact absurd rfl h
  | cons x xs ih =>
    intro acc _ hc
    have hpre : acc ++ [x] <+: c := ⟨xs, by rw [← hc]; simp⟩
    rcases treeStep_cases T acc x with ⟨e, he, hcode, -, hg⟩ | ⟨-, ⟨e, he, hp, hlt⟩, hg⟩ | ⟨-, hno, hg⟩
    · have h1 := g.apart e he (b, c) h (by rw [hcode]; exact hpre)
      have h2 := g.inj e he _ h h1
      have hxs : xs = [] := by
        have h3 : e.2 = c := by rw [h2]
        rw [hcode, ← hc] at h3
        simpa using congrArg List.length h3
      subst hxs
      rw [List.cons_append, hg, h1]; rfl
    · rw [List.cons_append, hg]
      by_cases hx : xs = []
      · exfalso
        subst hx
        have h1 : acc ++ [x] = c := hc
        have h3 := g.inj _ h e he (g.apart _ h e he (by show c <+: _; rw [← h1]; exact hp))
        rw [← h3] at hlt
        simp only [h1] at hlt
        omega
      · exact ih _ hx (by rw [← hc]; simp)
    · exact absurd hpre (hno _ h)

/-- The greedy match decodes every concatenation of codes. -/
theorem greedy_of_decodes {T : List (Byte × Bits)} (g : PrefixFree T) {bits : Bits} {out : List Byte}
    (h : Decodes T bits out) : greedy T [] bits = (out, []) := by
  induction h with
  | nil => rfl
  | cons b c r out hm _ ih => rw [greedy_code g hm r c [] (g.nonempty _ hm) rfl, ih]

theorem tablePasses_iff (T : List (Byte × Bits)) :
    tablePasses T = true ↔ T ≠ [] ∧ ∀ e ∈ T, ∀ f ∈ T, e.2 <+: f.2 → e.1 = f.1 := by
  simp only [tablePasses, Bool.and_eq_true, List.all_eq_true, Bool.or_eq_true, beq_iff_eq, Bool.not_eq_true',
    List.isEmpty_eq_false_iff]
  constructor
  · rintro ⟨h1, h2⟩
    refine ⟨h1, fun e he f hf hp => ?_⟩
    rcases h2 e he f hf with h | h
    · exact h
    · rw [← List.isPrefixOf_iff_prefix] at hp; rw [hp] at h; cases h
  · rintro ⟨h1, h2⟩
    refine ⟨h1, fun e he f hf => ?_⟩
    by_cases hp : e.2 <+: f.2
    · exact .inl (h2 e he f hf hp)
    · right; rw [← Bool.not_eq_true, List.isPrefixOf_iff_prefix]; exact hp

theorem nodup_codeList (ct : Memory CtEntry) : (codeList ct).Nodup := by
  unfold codeList
  rw [List.Nodup, List.pairwise_filterMap]
  refine List.Pairwise.imp_of_mem ?_ (List.nodup_range (n := Config.ctEntries))
  intro a b ha hb hab x hx y hy hxy
  obtain ⟨c, -, rfl⟩ := Option.map_eq_some_iff.1 hx
  obtain ⟨d, -, rfl⟩ := Option.map_eq_some_iff.1 hy
  have h1 : a < 256 := List.mem_range.1 ha
  have h2 : b < 256 := List.mem_range.1 hb
  have h3 := congrArg BitVec.toNat (Prod.ext_iff.1 hxy).1
  simp only [BitVec.toNat_ofNat] at h3
  omega

theorem degenerateByte_eq_some {T : List (Byte × Bits)} {b : Byte} : degenerateByte T = some b ↔ T = [(b, [])] := by
  constructor
  · intro h
    unfold degenerateByte at h
    split at h
    · cases h; rfl
    · cases h
  · rintro rfl; rfl

theorem tablePasses_of_degenerate {T : List (Byte × Bits)} {b : Byte} (h : degenerateByte T = some b) :
    tablePasses T = true := by
  rw [degenerateByte_eq_some.1 h]; simp [tablePasses]

/-- A passing table that is not degenerate has no empty code (R100, R101). -/
theorem prefixFree_codeList {ct : Memory CtEntry} (hp : tablePasses (codeList ct) = true)
    (hd : degenerateByte (codeList ct) = none) : PrefixFree (codeList ct) := by
  obtain ⟨hne, hpf⟩ := (tablePasses_iff _).1 hp
  refine ⟨fun e he f hf h => codeList_inj he hf h, hpf, ?_⟩
  intro e he h0
  have hall : ∀ f ∈ codeList ct, f = e := fun f hf =>
    codeList_inj hf he (hpf e he f hf (by rw [h0]; exact List.nil_prefix)).symm
  have hnd := nodup_codeList ct
  have hone : codeList ct = [e] := by
    cases hc : codeList ct with
    | nil => exact absurd hc hne
    | cons x xs =>
      rw [hc] at hall hnd
      have hx : x = e := hall x (by simp)
      cases xs with
      | nil => rw [hx]
      | cons y ys =>
        have hy : y = e := hall y (by simp)
        rw [hx, hy] at hnd
        simp at hnd
  obtain ⟨b, c⟩ := e
  simp only at h0
  subst h0
  rw [hone] at hd
  simp [degenerateByte] at hd

end Sys2Proof.Machine
end

