-- ==== Sys2Proof/Laws/HostSpec.lean ====
section
/-! SUPPORT. What a turn of the host can do: the updates of the host's side read through each part of the state, the
bounds of a busy read of PROGRESS, and one lemma for a host read and one for a turn of the busy host. -/

namespace Sys2Proof.Machine

variable (s : State)

theorem sameBlock_refl : sameBlock s s := ⟨rfl, rfl, rfl, rfl, rfl⟩

variable {s} in
theorem sameBlock.trans {t u : State} (h : sameBlock s t) (g : sameBlock t u) : sameBlock s u :=
  ⟨h.1.trans g.1, h.2.1.trans g.2.1, h.2.2.1.trans g.2.2.1, h.2.2.2.1.trans g.2.2.2.1, h.2.2.2.2.trans g.2.2.2.2⟩

@[simp] theorem seen_note (v : Seen) : (note v s).host.seen = v :: s.host.seen := rfl
@[simp] theorem lastProgress_note (v : Seen) : (note v s).host.lastProgress = s.host.lastProgress := rfl
@[simp] theorem seen_noteProgress (v : Nat) : (noteProgress v s).host.seen = .reg 8 v :: s.host.seen := rfl
@[simp] theorem lastProgress_noteProgress (v : Nat) : (noteProgress v s).host.lastProgress = v := rfl
@[simp] theorem lastProgress_forgetProgress : (forgetProgress s).host.lastProgress = 0 := rfl
@[simp] theorem events_forgetProgress : (forgetProgress s).host.events = s.host.events := rfl
@[simp] theorem busyTime_forgetProgress : (forgetProgress s).host.busyTime = s.host.busyTime := rfl

theorem sameBlock_note (v : Seen) : sameBlock s (note v s) := ⟨rfl, rfl, rfl, rfl, rfl⟩
theorem sameBlock_noteProgress (v : Nat) : sameBlock s (noteProgress v s) := ⟨rfl, rfl, rfl, rfl, rfl⟩

/-- Reads of PROGRESS do not decrease (R19). -/
theorem lastProgress_le_busyProgress : s.host.lastProgress ≤ busyProgress s := Nat.le_add_right _ _

variable {s}

/-- A read of PROGRESS does not pass the number of source elements (R19). -/
theorem busyProgress_le_runningCount (h : s.host.lastProgress ≤ runningCount s) : busyProgress s ≤ runningCount s := by
  have := Nat.mod_lt (Config.busyProgress s.host.reads) (Nat.zero_lt_succ (runningCount s - s.host.lastProgress))
  simp only [busyProgress, Nat.succ_eq_add_one] at *
  omega

/-- The number of source elements is a matter of the block alone. -/
theorem sameBlock.runningCount_eq {t : State} (h : sameBlock s t) : runningCount s = runningCount t := by
  obtain ⟨-, hr, -⟩ := h
  unfold runningCount
  rw [hr]
  split
  · rename_i i _; cases i <;> simp [sourceCount, hr]
  · rfl

/-- A busy read of a register leaves the block as it is (R45, R146). -/
theorem sameBlock_busyReadReg (r : Nat) (s : State) : sameBlock s (busyReadReg r s) := by
  unfold busyReadReg
  split
  · exact sameBlock_note _ _
  · exact sameBlock_noteProgress _ _
  · exact sameBlock_note _ _

/-- Whatever the host does while the block is busy, reset apart, the block stays as it is (R146). -/
theorem sameBlock_busyEvent {e : Event} (he : e ≠ .reset) (s : State) : sameBlock s (busyEvent e s) := by
  cases e with
  | hrd r => exact sameBlock_busyReadReg r s
  | mrd m i => exact sameBlock_note _ _
  | wait => exact (sameBlock_busyReadReg 1 s).trans ⟨rfl, rfl, rfl, rfl, rfl⟩
  | hwr r v => exact sameBlock_refl s
  | mwrSrc i v => exact sameBlock_refl s
  | mwrDst i v => exact sameBlock_refl s
  | mwrBbuf i v => exact sameBlock_refl s
  | mwrCt i e => exact sameBlock_refl s
  | reset => exact absurd rfl he

/-- A turn of a busy block, unless it is a reset, leaves the block as it is. -/
theorem sameBlock_busyTurn {s : State} (h : s.host.events.head? ≠ some .reset) : sameBlock s (busyTurn s) := by
  unfold busyTurn
  split
  · exact ⟨rfl, rfl, rfl, rfl, rfl⟩
  · rename_i e es he
    have hne : e ≠ .reset := fun hr => h (by rw [he, hr]; rfl)
    exact (show sameBlock s (tickBusy (popEvent s)) from ⟨rfl, rfl, rfl, rfl, rfl⟩).trans (sameBlock_busyEvent hne _)

end Sys2Proof.Machine
end

