-- ==== Sys2Proof/Laws/PackSpec.lean ====
section
/-! SUPPORT. What the body of PACK does, once: it writes the payload of its bits, or as much of it as fits. -/

namespace Sys2Proof.Machine

theorem length_padded (bits : Bits) : (padded bits).length = bits.length + padOf bits.length := by simp [padded]

theorem length_padded_mod (bits : Bits) : (padded bits).length % 8 = 0 := by
  rw [length_padded, padOf]; omega

@[simp] theorem length_packBytes (bits : Bits) : (packBytes bits).length = 1 + (padded bits).length / 8 := by
  simp [packBytes, Nat.add_comm]

theorem bitsValue_append (xs : Bits) (x : Bool) : bitsValue (xs ++ [x]) = 2 * bitsValue xs + x.toNat := by
  induction xs with
  | nil => simp [bitsValue]
  | cons y ys ih => simp only [List.cons_append, bitsValue, ih, List.length_append, List.length_singleton]; ring

/-- The shift step appends a bit to the number held. -/
theorem shiftIn_ofNat (n : Nat) (x : Bool) :
    shiftIn (BitVec.ofNat 8 n) x = BitVec.ofNat 8 (2 * n + x.toNat) := by
  apply BitVec.eq_of_toNat_eq
  cases x <;> simp [shiftIn, bitByte] <;> omega

/-- Bit `k` of the padded sequence as PACK's loop reads it. -/
theorem packBit_reads (s : State) (k : Nat) (h : k < (padded (bbufBits s)).length) :
    (if k < s.regs.bitLen then bitRead s k else false) = (padded (bbufBits s))[k] := by
  by_cases hk : k < s.regs.bitLen
  · simp [padded, bbufBits, hk]
  · rw [if_neg hk]
    simp only [padded]
    rw [List.getElem_append_right (by simp; omega), List.getElem_replicate]

/-- The working registers PACK does not use are unchanged. -/
def PackWork (s t : State) : Prop :=
  t.work.si = s.work.si ∧ t.work.node = s.work.node ∧ t.work.rv = s.work.rv ∧ t.work.rc = s.work.rc

/-- The invariant of PACK's loop after `k` bits. -/
structure Packed (m : List Host.Cell) (s : State) (k : Nat) (t : State) : Prop where
  out : Out m (BitVec.ofNat 8 (padOf s.regs.bitLen) :: (List.range (k / 8)).map (dataByte (bbufBits s))) t
  cap : 1 + k / 8 ≤ s.params.dstCap
  kept : KeptButDst s t
  work : PackWork s t
  nb : t.work.nb = s.regs.bitLen
  bc : t.work.bc = k % 8
  sh : t.work.sh = BitVec.ofNat 8 (bitsValue (((padded (bbufBits s)).drop (8 * (k / 8))).take (k % 8)))

theorem packBit_spec {m : List Host.Cell} {s t : State} {k : Nat} (hk : k < (padded (bbufBits s)).length)
    (h : Packed m s k t) :
    (packBit k t).Holds (Packed m s (k + 1))
      (fun c t => c = .capacity ∧ s.params.dstCap = 1 + k / 8 ∧ Out m
        (BitVec.ofNat 8 (padOf s.regs.bitLen) :: (List.range (k / 8)).map (dataByte (bbufBits s))) t ∧
        KeptButDst s t ∧ PackWork s t) := by
  have hx := packBit_reads s k hk
  have hsh : shiftIn t.work.sh (padded (bbufBits s))[k] =
      BitVec.ofNat 8 (bitsValue (((padded (bbufBits s)).drop (8 * (k / 8))).take (k % 8 + 1))) := by
    have hlt : k % 8 < ((padded (bbufBits s)).drop (8 * (k / 8))).length := by simp; omega
    rw [h.sh, shiftIn_ofNat, ← List.take_append_getElem hlt, bitsValue_append]
    congr 3
    simp only [List.getElem_drop]
    congr 1
    omega
  unfold packBit
  simp only [h.nb, h.kept.bitRead, hx]
  generalize ht' : t.updWork (fun w => { w with bi := k, sh := shiftIn w.sh (padded (bbufBits s))[k], bc := w.bc + 1 }) = t'
  have hsh' : t'.work.sh =
      BitVec.ofNat 8 (bitsValue (((padded (bbufBits s)).drop (8 * (k / 8))).take (k % 8 + 1))) := by
    subst ht'; exact hsh
  have hbc' : t'.work.bc = k % 8 + 1 := by subst ht'; show t.work.bc + 1 = _; rw [h.bc]
  have hout : Out m (BitVec.ofNat 8 (padOf s.regs.bitLen) :: (List.range (k / 8)).map (dataByte (bbufBits s))) t' := by
    subst ht'; exact ⟨h.out.dst, h.out.len, h.out.di⟩
  have hkept : KeptButDst s t' := by subst ht'; exact h.kept.updWork _
  have hwork : PackWork s t' := by subst ht'; exact h.work
  have hnb : t'.work.nb = s.regs.bitLen := by subst ht'; exact h.nb
  clear ht'
  split
  case isFalse hbc =>
    rw [h.bc] at hbc
    have e : (k + 1) / 8 = k / 8 := by omega
    have e' : (k + 1) % 8 = k % 8 + 1 := by omega
    exact ⟨by rw [e]; exact hout, by rw [e]; exact h.cap, hkept, hwork, hnb, by rw [e', hbc'], by rw [e, e', hsh']⟩
  case isTrue hbc =>
    rw [h.bc] at hbc
    have e : (k + 1) / 8 = k / 8 + 1 := by omega
    have e' : (k + 1) % 8 = 0 := by omega
    rw [hsh]
    rw [hsh'.symm]
    generalize t'.work.sh = v at hsh' ⊢
    have hv : v = dataByte (bbufBits s) (k / 8) := by
      rw [hsh', dataByte, show k % 8 + 1 = 8 by omega]
    refine (emitByte_spec v hout).bind ?_ ?_
    · rintro u ⟨hu, hl, hku, hwu⟩
      rw [hkept.params] at hl
      have hl' : k / 8 + 1 < s.params.dstCap := by simpa using hl
      have hu' : Out m (BitVec.ofNat 8 (padOf s.regs.bitLen) ::
          (List.range ((k + 1) / 8)).map (dataByte (bbufBits s))) u := by
        rw [e, List.range_succ, List.map_append, List.map_singleton, ← hv]
        exact hu
      refine ⟨⟨hu'.dst, hu'.len, hu'.di⟩, by omega, (hkept.trans hku).updWork _, ?_, ?_, by rw [e'], ?_⟩
      · show PackWork s (u.updWork _)
        simp only [PackWork, hwu]; exact hwork
      · show u.work.nb = _
        rw [hwu]; exact hnb
      · rw [e']; simp [bitsValue]
    · rintro c u ⟨rfl, rfl, hfull⟩
      refine ⟨rfl, ?_, hout, hkept, hwork⟩
      rw [hkept.params] at hfull
      have := h.cap
      simp at hfull
      omega

/-- Everything PACK's body can do once its input length is in range. -/
theorem packBody_spec (s : State) (h : s.regs.bitLen ≤ s.params.bitCap) :
    (packBody s).Holds
      (fun t => t.mems.dst = putFrom s.mems.dst 0 (packBytes (bbufBits s)) ∧
        t.regs.dstLen = (packBytes (bbufBits s)).length ∧ (packBytes (bbufBits s)).length ≤ s.params.dstCap ∧
        KeptButDst (s.updRegs fun r => { r with pad := BitVec.ofNat 8 (padOf s.regs.bitLen) }) t ∧ PackWork s t)
      (fun c t => c = .capacity ∧ s.params.dstCap < (packBytes (bbufBits s)).length ∧
        (s.params.dstCap = 0 → t.mems.dst = s.mems.dst ∧ t.regs.dstLen = s.regs.dstLen) ∧
        (1 ≤ s.params.dstCap → t.mems.dst = putFrom s.mems.dst 0 ((packBytes (bbufBits s)).take s.params.dstCap) ∧
          t.regs.dstLen = s.params.dstCap) ∧
        KeptButDst (s.updRegs fun r => { r with pad := BitVec.ofNat 8 (padOf s.regs.bitLen) }) t ∧ PackWork s t) := by
  unfold packBody
  rw [raiseIf_neg _ (by omega)]
  simp only [andThen_done]
  generalize hs1 : ((s.updWork fun w => { w with nb := s.regs.bitLen }).updRegs
    fun r => { r with pad := BitVec.ofNat 8 (padOf s.regs.bitLen) }) = s1
  have hk1 : KeptButDst (s.updRegs fun r => { r with pad := BitVec.ofNat 8 (padOf s.regs.bitLen) }) s1 := by
    subst hs1; constructor <;> rfl
  have hd1 : s1.mems.dst = s.mems.dst ∧ s1.regs.dstLen = s.regs.dstLen ∧ PackWork s s1 ∧
      s1.regs.pad = BitVec.ofNat 8 (padOf s.regs.bitLen) ∧ s1.regs.bitLen = s.regs.bitLen ∧
      s1.work.nb = s.regs.bitLen ∧ s1.params = s.params ∧ bbufBits s1 = bbufBits s := by
    subst hs1; exact ⟨rfl, rfl, ⟨rfl, rfl, rfl, rfl⟩, rfl, rfl, rfl, rfl, rfl⟩
  clear hs1
  obtain ⟨hdst, hlen, hwork, hpad, hbl, hnb, hpar, hbits⟩ := hd1
  have hplen := length_padded (bbufBits s)
  rw [length_bbufBits] at hplen
  refine (holds_dstWrite (Q := fun t => Out s.mems.dst [BitVec.ofNat 8 (padOf s.regs.bitLen)]
    (t.updWork fun w => { w with di := 1, sh := 0#8, bc := 0 }) ∧ 1 ≤ s.params.dstCap ∧ KeptButDst s1 t ∧
    t.work = s1.work) 0 (BitVec.ofNat 8 (padOf s.regs.bitLen)) s1 ?_ ?_).andThen ?_
  · intro hc
    rw [hpar] at hc
    exact ⟨rfl, by simp; omega, fun _ => ⟨hdst, hlen⟩, fun h => by omega, hk1, hwork⟩
  · intro hc
    rw [hpar] at hc
    exact ⟨⟨by simp [putFrom, hdst], rfl, rfl⟩, by omega, by constructor <;> rfl, rfl⟩
  · rintro t ⟨hout, hc1, hkt, hwt⟩
    generalize ht' : t.updWork (fun w => { w with di := 1, sh := 0#8, bc := 0 }) = t'
    rw [ht'] at hout
    have hkt' : KeptButDst s1 t' := by subst ht'; exact hkt.updWork _
    have hbits' : bbufBits t' = bbufBits s := by
      rw [← hbits]; unfold bbufBits; rw [hkt'.bitRead, hkt'.bitLen]
    have hbl' : t'.regs.bitLen = s.regs.bitLen := hkt'.bitLen.trans hbl
    have hpar' : t'.params = s.params := hkt'.params.trans hpar
    have hwork' : PackWork s t' := by
      subst ht'; unfold PackWork; simp only [hwt]; exact hwork
    have hstart : Packed s.mems.dst t' 0 t' := by
      refine ⟨?_, by rw [hpar']; omega, KeptButDst.refl _, ⟨rfl, rfl, rfl, rfl⟩, ?_, ?_, ?_⟩
      · rw [hbl']; exact hout
      · rw [hbl']; subst ht'; show t.work.nb = _; rw [hwt]; exact hnb
      · subst ht'; rfl
      · subst ht'; rfl
    have key := holds_forUp (Packed s.mems.dst t') packBit (s.regs.bitLen + padOf s.regs.bitLen) 0 t' hstart
      (E := fun c u => c = .capacity ∧ s.params.dstCap < (packBytes (bbufBits s)).length ∧
        Out s.mems.dst ((packBytes (bbufBits s)).take s.params.dstCap) u ∧ KeptButDst t' u ∧ PackWork t' u) ?_
    · have trans : ∀ u, PackWork t' u → PackWork s u := fun u hu =>
        ⟨hu.1.trans hwork'.1, hu.2.1.trans hwork'.2.1, hu.2.2.1.trans hwork'.2.2.1, hu.2.2.2.trans hwork'.2.2.2⟩
      refine key.mono ?_ ?_
      · intro u hu
        have hfull : BitVec.ofNat 8 (padOf t'.regs.bitLen) ::
            (List.range ((0 + (s.regs.bitLen + padOf s.regs.bitLen)) / 8)).map (dataByte (bbufBits t')) =
            packBytes (bbufBits s) := by
          rw [hbl', hbits', packBytes, length_bbufBits, hplen, Nat.zero_add]
        have ho := hu.out
        rw [hfull] at ho
        refine ⟨ho.dst, ho.len, ?_, hk1.trans (hkt'.trans hu.kept), trans u hu.work⟩
        have := hu.cap
        rw [hpar'] at this
        simpa [hplen] using this
      · rintro c u ⟨rfl, hl, ho, hku, hwu⟩
        exact ⟨rfl, hl, fun h => by omega, fun _ => ⟨ho.dst, by rw [ho.len, List.length_take]; omega⟩,
          hk1.trans (hkt'.trans hku), trans u hwu⟩
    · intro k u _ hk hu
      refine (packBit_spec (by rw [hbits', hplen]; omega) hu).mono (fun _ h => h) ?_
      rintro c v ⟨rfl, hcap, ho, hkv, hwv⟩
      rw [hpar'] at hcap
      rw [hbl', hbits'] at ho
      have hmod := length_padded_mod (bbufBits s)
      have hk8 : k / 8 < (padded (bbufBits s)).length / 8 := by omega
      refine ⟨rfl, by simp; omega, ?_, hkv, hwv⟩
      have : (packBytes (bbufBits s)).take s.params.dstCap =
          BitVec.ofNat 8 (padOf s.regs.bitLen) :: (List.range (k / 8)).map (dataByte (bbufBits s)) := by
        rw [hcap, packBytes, Nat.add_comm 1, List.take_succ_cons, ← List.map_take, List.take_range,
          Nat.min_eq_left (by omega), length_bbufBits]
      rw [this]; exact ho

end Sys2Proof.Machine
end

