-- ==== Sys2Proof/Laws/RleSpec.lean ====
section
/-! SUPPORT. What the body of RLED does, once: it writes the expansion of its source, or as much of it as fits. -/

namespace Sys2Proof.Machine

theorem rleExpand_append (ys : List Byte) : ∀ xs : List Byte, xs.length % 2 = 0 →
    rleExpand (xs ++ ys) = rleExpand xs ++ rleExpand ys
  | [], _ => by simp [rleExpand]
  | [x], h => by simp at h
  | v :: c :: xs, h => by
    have h' : xs.length % 2 = 0 := by simp only [List.length_cons] at h; omega
    simp only [List.cons_append, rleExpand, rleExpand_append ys xs h', List.append_assoc]

@[simp] theorem length_srcBytes (s : State) : (srcBytes s).length = s.regs.srcLen := by simp [srcBytes]

theorem srcBytes_getElem (s : State) (i : Nat) (h : i < (srcBytes s).length) : (srcBytes s)[i] = srcRead s i := by
  simp [srcBytes]

theorem take_succ_pair (s : State) (k : Nat) (h : 2 * k + 1 < s.regs.srcLen) :
    (srcBytes s).take (2 * (k + 1)) = (srcBytes s).take (2 * k) ++ [srcRead s (2 * k), srcRead s (2 * k + 1)] := by
  have h1 : 2 * k < (srcBytes s).length := by simp; omega
  have h2 : 2 * k + 1 < (srcBytes s).length := by simpa using h
  rw [show 2 * (k + 1) = 2 * k + 1 + 1 by omega, ← List.take_append_getElem h2, ← List.take_append_getElem h1,
    srcBytes_getElem, srcBytes_getElem, List.append_assoc]
  rfl

/-- The working registers RLED does not use are unchanged. -/
def RleWork (s t : State) : Prop :=
  t.work.sh = s.work.sh ∧ t.work.bc = s.work.bc ∧ t.work.bi = s.work.bi ∧ t.work.nb = s.work.nb ∧
    t.work.node = s.work.node

/-- RLED's loop over whole pairs. -/
theorem rledLoop_spec {m : List Host.Cell} (s : State) (he : s.regs.srcLen % 2 = 0) (ho : Out m [] s) :
    (forUp rlePair (s.regs.srcLen / 2) 0 s).Holds
      (fun t => Out m (rleExpand (srcBytes s)) t ∧ (rleExpand (srcBytes s)).length ≤ s.params.dstCap ∧
        KeptButDst s t ∧ RleWork s t)
      (fun c t => c = .capacity ∧ s.params.dstCap < (rleExpand (srcBytes s)).length ∧
        Out m ((rleExpand (srcBytes s)).take s.params.dstCap) t ∧ KeptButDst s t ∧
        RleWork s t) := by
  have key := holds_forUp
    (fun k t => Out m (rleExpand ((srcBytes s).take (2 * k))) t ∧
      (rleExpand ((srcBytes s).take (2 * k))).length ≤ s.params.dstCap ∧ KeptButDst s t ∧
      RleWork s t)
    (E := fun c t => c = .capacity ∧ s.params.dstCap < (rleExpand (srcBytes s)).length ∧
        Out m ((rleExpand (srcBytes s)).take s.params.dstCap) t ∧ KeptButDst s t ∧
        RleWork s t)
    rlePair (s.regs.srcLen / 2) 0 s ?_ ?_
  · have hall : (srcBytes s).take (2 * (0 + s.regs.srcLen / 2)) = srcBytes s :=
      List.take_of_length_le (by simp; omega)
    rw [hall] at key
    exact key
  · exact ⟨by simpa [rleExpand] using ho, by simp [rleExpand], KeptButDst.refl s, rfl, rfl, rfl, rfl, rfl⟩
  · rintro k t - hk ⟨hto, hcap, hkept, hw⟩
    have hpair := take_succ_pair s k (by omega)
    have hexp : rleExpand ((srcBytes s).take (2 * (k + 1))) =
        rleExpand ((srcBytes s).take (2 * k)) ++ List.replicate (srcRead s (2 * k + 1)).toNat (srcRead s (2 * k)) := by
      rw [hpair, rleExpand_append _ _ (by simp; omega)]
      simp [rleExpand]
    simp only [rlePair]
    rw [hkept.srcRead]
    generalize hf : (fun w : Work => { w with si := 2 * k, rv := srcRead s (2 * k), rc := srcRead s (2 * k + 1) }) = f
    have hk' := hkept.updWork f
    have hw' : RleWork s (t.updWork f) := by subst hf; exact hw
    have hdi : (t.updWork f).work.di = t.work.di := by subst hf; rfl
    have hout : Out m (rleExpand ((srcBytes s).take (2 * k))) (t.updWork f) := ⟨hto.dst, hto.len, hdi.trans hto.di⟩
    have hcap' : (rleExpand ((srcBytes s).take (2 * k))).length ≤ (t.updWork f).params.dstCap := by
      rw [hk'.params]; exact hcap
    refine (emitMany_spec (srcRead s (2 * k)) (srcRead s (2 * k + 1)).toNat 1 hout hcap').mono ?_ ?_
    · rintro u ⟨hu, hl, hku, hwu⟩
      rw [hk'.params] at hl
      exact ⟨hexp ▸ hu, by rw [hexp]; simpa using hl, hk'.trans hku, by unfold RleWork; rw [hwu]; exact hw'⟩
    · rintro c u ⟨rfl, hl, hu, hku, hwu⟩
      rw [hk'.params] at hl hu
      have hsplit : rleExpand (srcBytes s) = rleExpand ((srcBytes s).take (2 * (k + 1))) ++
          rleExpand ((srcBytes s).drop (2 * (k + 1))) := by
        rw [← rleExpand_append _ _ (by simp; omega), List.take_append_drop]
      have hlen : s.params.dstCap < (rleExpand ((srcBytes s).take (2 * (k + 1)))).length := by
        rw [hexp]; simpa using hl
      refine ⟨rfl, by rw [hsplit, List.length_append]; omega, ?_, hk'.trans hku, by unfold RleWork; rw [hwu]; exact hw'⟩
      rw [hsplit, List.take_append_of_le_length (by omega), hexp]
      exact hu

end Sys2Proof.Machine
end

