-- ==== Sys2Proof/Laws/UnpackSpec.lean ====
section
/-! SUPPORT. What the unpack phase of UNPACK and HDEC does, once: it checks its payload, then writes its bits to BBUF, or
as many as fit. -/

namespace Sys2Proof.Machine

/-- A bit just written. -/
def liveCell (b : Bool) : BitCell := { bit := b, live := true }

/-- The first `n` bits of the payload in SRC (R84). -/
def srcBits (s : State) (n : Nat) : Bits := (List.range n).map fun j => (srcRead s (1 + j / 8)).getLsbD (7 - j % 8)

@[simp] theorem length_srcBits (s : State) (n : Nat) : (srcBits s n).length = n := by simp [srcBits]

/-- The bits `xs` have been written at 0, 1, … of a BBUF that was `m`. -/
structure BitsOut (m : Memory BitCell) (xs : Bits) (t : State) : Prop where
  bbuf : t.mems.bbuf = putFrom m 0 (xs.map liveCell)
  len : t.regs.bitLen = xs.length
  bi : t.work.bi = xs.length

/-- Only BBUF, `BIT_LEN`, `PAD` and the working registers differ. -/
structure KeptButBits (s t : State) : Prop where
  params : t.params = s.params
  draws : t.draws = s.draws
  host : t.host = s.host
  src : t.mems.src = s.mems.src
  dst : t.mems.dst = s.mems.dst
  ct : t.mems.ct = s.mems.ct
  cmd : t.regs.cmd = s.regs.cmd
  status : t.regs.status = s.regs.status
  errcode : t.regs.errcode = s.regs.errcode
  srcLen : t.regs.srcLen = s.regs.srcLen
  dstLen : t.regs.dstLen = s.regs.dstLen
  nsym : t.regs.nsym = s.regs.nsym
  progress : t.regs.progress = s.regs.progress
  bc : t.work.bc = s.work.bc
  di : t.work.di = s.work.di
  node : t.work.node = s.work.node
  rv : t.work.rv = s.work.rv
  rc : t.work.rc = s.work.rc

theorem KeptButBits.refl (s : State) : KeptButBits s s := by constructor <;> rfl

theorem KeptButBits.trans {s t u : State} (h : KeptButBits s t) (g : KeptButBits t u) : KeptButBits s u where
  params := g.params.trans h.params
  draws := g.draws.trans h.draws
  host := g.host.trans h.host
  src := g.src.trans h.src
  dst := g.dst.trans h.dst
  ct := g.ct.trans h.ct
  cmd := g.cmd.trans h.cmd
  status := g.status.trans h.status
  errcode := g.errcode.trans h.errcode
  srcLen := g.srcLen.trans h.srcLen
  dstLen := g.dstLen.trans h.dstLen
  nsym := g.nsym.trans h.nsym
  progress := g.progress.trans h.progress
  bc := g.bc.trans h.bc
  di := g.di.trans h.di
  node := g.node.trans h.node
  rv := g.rv.trans h.rv
  rc := g.rc.trans h.rc

theorem KeptButBits.srcRead {s t : State} (h : KeptButBits s t) : srcRead t = srcRead s := by
  funext i; simp only [Machine.srcRead, h.src, h.draws]

/-- One bit written: it is appended, or BBUF is full. -/
theorem writeBit_spec {m : Memory BitCell} {xs : Bits} {s : State} (b : Bool) (h : BitsOut m xs s) :
    ((bitWrite s.work.bi b s).andThen fun t => .done (t.updWork fun w => { w with bi := w.bi + 1 })).Holds
      (fun t => BitsOut m (xs ++ [b]) t ∧ xs.length < s.params.bitCap ∧ KeptButBits s t ∧
        t.regs.pad = s.regs.pad ∧ t.work = { s.work with bi := s.work.bi + 1 })
      (fun c t => c = .capacity ∧ t = s ∧ s.params.bitCap ≤ xs.length) := by
  unfold bitWrite
  split
  case isTrue hc => exact ⟨rfl, rfl, h.bi ▸ hc⟩
  case isFalse hc =>
    refine ⟨⟨?_, ?_, ?_⟩, by have := h.bi; omega, by constructor <;> rfl, rfl, rfl⟩
    · simp [putFrom_append, h.bbuf, h.bi, liveCell]
    · simp [h.bi]
    · simp [h.bi]

/-- The invariant of the loops: the first `q` bits have been written, or all of them when there are fewer. -/
structure Unpacked (m : Memory BitCell) (s : State) (n q : Nat) (t : State) : Prop where
  out : BitsOut m ((srcBits s n).take q) t
  cap : ((srcBits s n).take q).length ≤ s.params.bitCap
  kept : KeptButBits s t
  pad : t.regs.pad = s.regs.pad
  nb : t.work.nb = n

/-- BBUF is full after `BIT_CAP` bits. -/
structure Overfull (m : Memory BitCell) (s : State) (n : Nat) (c : Cause) (t : State) : Prop where
  cause : c = .capacity
  tooMany : s.params.bitCap < n
  out : BitsOut m ((srcBits s n).take s.params.bitCap) t
  kept : KeptButBits s t
  pad : t.regs.pad = s.regs.pad

theorem unpackBit_spec {m : Memory BitCell} {s t : State} {n i k q : Nat} (hq : q = 8 * i + (7 - k)) (hk : k ≤ 7)
    (h : Unpacked m s n q t) (hsh : t.work.sh = srcRead s (1 + i)) :
    (unpackBit k t).Holds (fun u => Unpacked m s n (q + 1) u ∧ u.work.sh = t.work.sh) (Overfull m s n) := by
  have hbi : t.work.bi = min q n := by rw [h.out.bi]; simp
  unfold unpackBit
  split
  case isFalse hc =>
    rw [h.nb, hbi] at hc
    have hall : ∀ r, q ≤ r → (srcBits s n).take r = srcBits s n := fun r hr =>
      List.take_of_length_le (by simp; omega)
    have e : (srcBits s n).take (q + 1) = (srcBits s n).take q := by rw [hall _ (by omega), hall _ (by omega)]
    exact ⟨⟨by rw [e]; exact h.out, by rw [e]; exact h.cap, h.kept, h.pad, h.nb⟩, rfl⟩
  case isTrue hc =>
    rw [h.nb, hbi] at hc
    have hqn : q < n := by omega
    have hbit : t.work.sh.getLsbD k = (srcBits s n)[q]'(by simpa using hqn) := by
      have e1 : q / 8 = i := by omega
      have e2 : 7 - q % 8 = k := by omega
      simp [srcBits, hsh, e1, e2]
    have hcat : (srcBits s n).take (q + 1) = (srcBits s n).take q ++ [t.work.sh.getLsbD k] := by
      rw [hbit, List.take_append_getElem]
    refine (writeBit_spec (t.work.sh.getLsbD k) h.out).mono ?_ ?_
    · rintro u ⟨hu, hl, hku, hpu, hwu⟩
      rw [h.kept.params] at hl
      exact ⟨⟨hcat ▸ hu, by rw [hcat]; simpa using hl, h.kept.trans hku, hpu.trans h.pad, by rw [hwu]; exact h.nb⟩,
        by rw [hwu]⟩
    · rintro c u ⟨rfl, rfl, hfull⟩
      rw [h.kept.params] at hfull
      have hlen : ((srcBits s n).take q).length = q := by simp; omega
      have hcap := h.cap
      have : q = s.params.bitCap := by omega
      subst this
      exact ⟨rfl, hqn, h.out, h.kept, h.pad⟩

theorem unpackByte_spec {m : Memory BitCell} {s t : State} {n i : Nat} (hi : 1 ≤ i)
    (h : Unpacked m s n (8 * (i - 1)) t) :
    (unpackByte i t).Holds (Unpacked m s n (8 * i)) (Overfull m s n) := by
  unfold unpackByte
  have key := holds_forEach (E := Overfull m s n)
    (fun ks u => ∃ r, r ≤ 8 ∧ ks = (List.range r).reverse ∧ Unpacked m s n (8 * (i - 1) + (8 - r)) u ∧
      u.work.sh = srcRead s (1 + (i - 1)))
    unpackBit ?_ [7, 6, 5, 4, 3, 2, 1, 0] (t.updWork fun w => { w with si := i, sh := srcRead t i }) ?_
  · refine key.mono ?_ fun _ _ h => h
    rintro u ⟨r, hr, hnil, hu, -⟩
    have : r = 0 := by
      have := congrArg List.length hnil
      simpa using this.symm
    subst this
    rwa [show 8 * (i - 1) + (8 - 0) = 8 * i by omega] at hu
  · rintro k ks u ⟨r, hr, hks, hu, hsh⟩
    obtain ⟨r, rfl⟩ : ∃ r', r = r' + 1 := by
      cases r with
      | zero => simp at hks
      | succ r => exact ⟨r, rfl⟩
    rw [List.range_succ, List.reverse_append, List.reverse_singleton, List.singleton_append] at hks
    obtain ⟨rfl, rfl⟩ := List.cons.inj hks
    refine (unpackBit_spec (i := i - 1) (k := k) (by omega) (by omega) hu hsh).mono ?_ fun _ _ h => h
    rintro v ⟨hv, hshv⟩
    exact ⟨k, by omega, rfl, by rwa [show 8 * (i - 1) + (8 - k) = 8 * (i - 1) + (8 - (k + 1)) + 1 by omega],
      hshv.trans hsh⟩
  · refine ⟨8, Nat.le_refl 8, by decide, ?_, ?_⟩
    · rw [show 8 * (i - 1) + (8 - 8) = 8 * (i - 1) by omega]
      exact ⟨⟨h.out.bbuf, h.out.len, h.out.bi⟩, h.cap, h.kept.trans (by constructor <;> rfl), h.pad, h.nb⟩
    · rw [h.kept.srcRead, show 1 + (i - 1) = i by omega]

/-- The state in which the loops of the unpack phase start. -/
def unpackStart (s : State) : State :=
  (s.updRegs fun r => { r with pad := srcRead s 0 }).updWork fun w =>
    { w with nb := 8 * (s.regs.srcLen - 1) - (srcRead s 0).toNat, bi := 0 }

/-- Everything the unpack phase can do, for a `BIT_LEN` that the command start has cleared. -/
theorem unpackPhase_spec (s : State) (h0 : s.regs.bitLen = 0) :
    (unpackPhase s).Holds
      (fun t => 1 ≤ s.regs.srcLen ∧ (srcRead s 0).toNat ≤ 8 * (s.regs.srcLen - 1) ∧
        8 * (s.regs.srcLen - 1) - (srcRead s 0).toNat ≤ s.params.bitCap ∧ t.regs.pad = srcRead s 0 ∧
        BitsOut s.mems.bbuf (srcBits s (8 * (s.regs.srcLen - 1) - (srcRead s 0).toNat)) t ∧ KeptButBits s t)
      (fun c t => (c = .emptyBuffer ∧ s.regs.srcLen = 0 ∧ t = s) ∨
        (c = .padExceeds ∧ 1 ≤ s.regs.srcLen ∧ 8 * (s.regs.srcLen - 1) < (srcRead s 0).toNat ∧
          t = s.updRegs fun r => { r with pad := srcRead s 0 }) ∨
        (1 ≤ s.regs.srcLen ∧ (srcRead s 0).toNat ≤ 8 * (s.regs.srcLen - 1) ∧
          c = .capacity ∧ s.params.bitCap < 8 * (s.regs.srcLen - 1) - (srcRead s 0).toNat ∧
          t.regs.pad = srcRead s 0 ∧
          BitsOut s.mems.bbuf ((srcBits s (8 * (s.regs.srcLen - 1) - (srcRead s 0).toNat)).take s.params.bitCap) t ∧
          KeptButBits s t)) := by
  unfold unpackPhase
  by_cases h1 : s.regs.srcLen < 1
  · rw [raiseIf_pos _ h1]
    exact .inl ⟨rfl, by omega, rfl⟩
  rw [raiseIf_neg _ h1]
  simp only [andThen_done]
  by_cases h2 : 8 * (s.regs.srcLen - 1) < (srcRead s 0).toNat
  · rw [raiseIf_pos _ h2]
    exact .inr (.inl ⟨rfl, by omega, h2, rfl⟩)
  rw [raiseIf_neg _ h2]
  simp only [andThen_done]
  generalize hn : 8 * (s.regs.srcLen - 1) - (srcRead s 0).toNat = n
  have hkept : KeptButBits s (unpackStart s) := by constructor <;> rfl
  have hbits : ∀ n, srcBits (unpackStart s) n = srcBits s n := fun n => by
    unfold srcBits; rw [hkept.srcRead]
  have key := holds_forUp (fun i t => Unpacked s.mems.bbuf (unpackStart s) n (8 * (i - 1)) t)
    (E := Overfull s.mems.bbuf (unpackStart s) n) unpackByte (s.regs.srcLen - 1) 1 (unpackStart s) ?_ ?_
  · have hst : ((s.updRegs fun r => { r with pad := srcRead s 0 }).updWork fun w => { w with nb := n, bi := 0 }) =
        unpackStart s := by subst hn; rfl
    rw [hst]
    refine key.mono ?_ ?_
    · rintro t ⟨ho, hc, hk, hp, hnb⟩
      have hall : (srcBits (unpackStart s) n).take (8 * (1 + (s.regs.srcLen - 1) - 1)) = srcBits s n := by
        rw [hbits]; exact List.take_of_length_le (by simp; omega)
      rw [hall] at ho hc
      rw [length_srcBits] at hc
      exact ⟨by omega, by omega, hc, hp, ho, hkept.trans hk⟩
    · rintro c t ⟨hc, hover, ho, hk, hp⟩
      rw [hbits] at ho
      exact .inr (.inr ⟨by omega, by omega, hc, hover, hp, ho, hkept.trans hk⟩)
  · exact ⟨⟨by simp [unpackStart], by simpa [unpackStart] using h0, by simp [unpackStart]⟩, by simp,
      KeptButBits.refl _, rfl, by subst hn; rfl⟩
  · rintro i t hi - ht
    have := unpackByte_spec hi ht
    rwa [show 8 * (i + 1 - 1) = 8 * i by omega]

end Sys2Proof.Machine
end

