-- ==== Sys2Proof/Laws/PayloadSpec.lean ====
section
/-! SUPPORT. The bits of a packed payload: what `packBytes` puts where, and `unpackBits` as its inverse. -/

namespace Sys2Proof.Machine

theorem bitsValue_lt (xs : Bits) : bitsValue xs < 2 ^ xs.length := by
  induction xs with
  | nil => simp [bitsValue]
  | cons x xs ih =>
    simp only [bitsValue, List.length_cons, Nat.pow_succ]
    cases x <;> simp <;> omega

theorem bitsValue_testBit (xs : Bits) (k : Nat) (h : k < xs.length) :
    (bitsValue xs).testBit (xs.length - 1 - k) = xs[k] := by
  induction xs generalizing k with
  | nil => simp at h
  | cons x xs ih =>
    have hl := bitsValue_lt xs
    simp only [bitsValue]
    rw [Nat.mul_comm, Nat.testBit_two_pow_mul_add _ hl]
    cases k with
    | zero =>
      rw [if_neg (by simp)]
      cases x <;> simp
    | succ k =>
      have h' : k < xs.length := by simpa using h
      rw [if_pos (by simp; omega)]
      have := ih k h'
      rw [List.getElem_cons_succ, ← this]
      congr 1
      simp; omega

theorem dataByte_bit (bits : Bits) (m k : Nat) (hk : k < 8) (h : 8 * m + k < (padded bits).length) :
    (dataByte bits m).getLsbD (7 - k) = (padded bits)[8 * m + k] := by
  have hlen : (((padded bits).drop (8 * m)).take 8).length = 8 := by
    have := length_padded_mod bits
    simp; omega
  unfold dataByte
  rw [BitVec.getLsbD_ofNat]
  have := bitsValue_testBit _ k (by rw [hlen]; exact hk)
  rw [show (((padded bits).drop (8 * m)).take 8).length - 1 - k = 7 - k by omega] at this
  rw [this]
  simp; omega

theorem payloadBit_packBytes (bits : Bits) (j : Nat) (h : j < (padded bits).length) :
    payloadBit (packBytes bits) j = (padded bits)[j] := by
  unfold payloadBit packBytes
  have hm := length_padded_mod bits
  have h1 : j / 8 < (padded bits).length / 8 := by omega
  rw [Nat.add_comm 1, List.getD_cons_succ]
  rw [List.getD_eq_getElem _ _ (by simpa using h1)]
  simp only [List.getElem_map, List.getElem_range]
  rw [dataByte_bit bits _ _ (by omega) (by omega)]
  congr 1; omega

theorem padOf_lt (n : Nat) : padOf n < 8 := by unfold padOf; omega

theorem unpackBits_packBytes (bits : Bits) : unpackBits (packBytes bits) = bits := by
  have hl := length_padded bits
  have hm := length_padded_mod bits
  have hp := padOf_lt bits.length
  have hn : 8 * ((packBytes bits).length - 1) - ((packBytes bits).getD 0 0#8).toNat = bits.length := by
    have : (packBytes bits).getD 0 0#8 = BitVec.ofNat 8 (padOf bits.length) := rfl
    rw [this, length_packBytes, BitVec.toNat_ofNat, Nat.mod_eq_of_lt (by omega)]
    omega
  unfold unpackBits
  rw [hn]
  apply List.ext_getElem (by simp)
  intro i h1 h2
  simp only [List.getElem_map, List.getElem_range]
  rw [payloadBit_packBytes bits i (by omega)]
  simp [padded, h2]

theorem srcBits_eq_unpackBits (s : State) (h : 1 ≤ s.regs.srcLen) :
    srcBits s (8 * (s.regs.srcLen - 1) - (srcRead s 0).toNat) = unpackBits (srcBytes s) := by
  unfold srcBits unpackBits
  have e0 : ∀ i < s.regs.srcLen, (srcBytes s).getD i 0#8 = srcRead s i := by
    intro i hi; rw [List.getD_eq_getElem _ _ (by simpa using hi), srcBytes_getElem]
  rw [length_srcBytes, e0 0 (by omega)]
  apply List.map_congr_left
  intro j hj
  have := List.mem_range.1 hj
  unfold payloadBit
  rw [e0 _ (by omega)]

end Sys2Proof.Machine
end

