-- ==== Sys2Proof/Laws/PerInstr.lean ====
section
/-! SUPPORT. Facts about each command as syntax, one lemma per constructor. -/

namespace Sys2Proof.Laws.WordFields

/-- The command is well formed, its word has `RSV` 00000 and the command's `OP`, and those fields pass the check of
R60 and R61. -/
def Statement (i : Instr) : Prop :=
  i.wellFormed = true ∧ fieldsOf (encode i) = { rsv := 0#5, op := opOf i } ∧ (fieldsOf (encode i)).wellFormed = true

theorem pack : Statement .pack := by unfold Statement; decide
theorem unpack : Statement .unpack := by unfold Statement; decide
theorem hwalk : Statement .hwalk := by unfold Statement; decide
theorem hdec : Statement .hdec := by unfold Statement; decide
theorem rled : Statement .rled := by unfold Statement; decide

end Sys2Proof.Laws.WordFields
end

