-- ==== Sys2Proof/Laws/StartSpec.lean ====
section
/-! SUPPORT. A command as its start, its body and its completion, and what each body is once its first checks have
passed or failed. -/

namespace Sys2Proof.Machine

theorem exec_eq_finish (i : Instr) (s : State) : exec i s = .next (finishCommand i (startCommand i s)) := by
  cases i <;> rfl

@[simp] theorem params_startCommand (i : Instr) (s : State) : (startCommand i s).params = s.params := by cases i <;> rfl
@[simp] theorem draws_startCommand (i : Instr) (s : State) : (startCommand i s).draws = s.draws := by cases i <;> rfl
@[simp] theorem work_startCommand (i : Instr) (s : State) : (startCommand i s).work = s.work := by cases i <;> rfl
@[simp] theorem host_startCommand (i : Instr) (s : State) : (startCommand i s).host = s.host := by cases i <;> rfl
@[simp] theorem src_startCommand (i : Instr) (s : State) : (startCommand i s).mems.src = s.mems.src := by
  cases i <;> rfl
@[simp] theorem dst_startCommand (i : Instr) (s : State) : (startCommand i s).mems.dst = s.mems.dst := by
  cases i <;> rfl
@[simp] theorem ct_startCommand (i : Instr) (s : State) : (startCommand i s).mems.ct = s.mems.ct := by cases i <;> rfl
@[simp] theorem srcLen_startCommand (i : Instr) (s : State) : (startCommand i s).regs.srcLen = s.regs.srcLen := by
  cases i <;> rfl
@[simp] theorem nsym_startCommand (i : Instr) (s : State) : (startCommand i s).regs.nsym = s.regs.nsym := by
  cases i <;> rfl
@[simp] theorem srcRead_startCommand (i : Instr) (s : State) : srcRead (startCommand i s) = srcRead s := by
  cases i <;> rfl

/-! ## The bodies past their first checks -/

theorem packBody_of_bad {s : State} (h : s.params.bitCap < s.regs.bitLen) : packBody s = .raised .capacity s := by
  unfold packBody; rw [raiseIf_pos _ h, andThen_raised]

theorem unpackBody_of_bad {s : State} (h : s.params.srcCap < s.regs.srcLen) : unpackBody s = .raised .capacity s := by
  unfold unpackBody; rw [raiseIf_pos _ h, andThen_raised]

theorem unpackBody_of_ok {s : State} (h : s.regs.srcLen ≤ s.params.srcCap) : unpackBody s = unpackPhase s := by
  unfold unpackBody; rw [raiseIf_neg _ (by omega), andThen_done]

theorem rledBody_of_bad {s : State} (h : s.params.srcCap < s.regs.srcLen) : rledBody s = .raised .capacity s := by
  unfold rledBody; rw [raiseIf_pos _ h, andThen_raised]

theorem rledBody_of_odd {s : State} (h : s.regs.srcLen ≤ s.params.srcCap) (h2 : s.regs.srcLen % 2 = 1) :
    rledBody s = .raised .oddLength s := by
  unfold rledBody; rw [raiseIf_neg _ (by omega), andThen_done, raiseIf_pos _ h2, andThen_raised]

theorem rledBody_of_even {s : State} (h : s.regs.srcLen ≤ s.params.srcCap) (h2 : s.regs.srcLen % 2 = 0) :
    rledBody s = forUp rlePair (s.regs.srcLen / 2) 0 (s.updWork fun w => { w with di := 0 }) := by
  unfold rledBody; rw [raiseIf_neg _ (by omega), andThen_done, raiseIf_neg _ (by omega), andThen_done]

theorem hwalkBody_of_bad {s : State} (h : s.params.bitCap < s.regs.bitLen) : hwalkBody s = .raised .capacity s := by
  unfold hwalkBody; rw [raiseIf_pos _ h, andThen_raised]

theorem hwalkBody_of_badTable {s : State} (h : s.regs.bitLen ≤ s.params.bitCap)
    (hp : tablePasses (codeList s.mems.ct) = false) : hwalkBody s = .raised .badTable s := by
  unfold hwalkBody tableCheck
  rw [raiseIf_neg _ (by omega), andThen_done, raiseIf_pos _ hp, andThen_raised]

theorem hwalkBody_of_ok {s : State} (h : s.regs.bitLen ≤ s.params.bitCap)
    (hp : tablePasses (codeList s.mems.ct) = true) : hwalkBody s = walk s := by
  unfold hwalkBody tableCheck
  rw [raiseIf_neg _ (by omega), andThen_done, raiseIf_neg _ (by simp [hp]), andThen_done]

theorem hdecBody_of_bad {s : State} (h : s.params.srcCap < s.regs.srcLen) : hdecBody s = .raised .capacity s := by
  unfold hdecBody; rw [raiseIf_pos _ h, andThen_raised]

theorem hdecBody_of_badTable {s : State} (h : s.regs.srcLen ≤ s.params.srcCap)
    (hp : tablePasses (codeList s.mems.ct) = false) : hdecBody s = .raised .badTable s := by
  unfold hdecBody tableCheck
  rw [raiseIf_neg _ (by omega), andThen_done, raiseIf_pos _ hp, andThen_raised]

theorem hdecBody_of_ok {s : State} (h : s.regs.srcLen ≤ s.params.srcCap)
    (hp : tablePasses (codeList s.mems.ct) = true) : hdecBody s = (unpackPhase s).andThen walk := by
  unfold hdecBody tableCheck
  rw [raiseIf_neg _ (by omega), andThen_done, raiseIf_neg _ (by simp [hp]), andThen_done]

/-! ## What UNPACK and HDEC leave in BBUF -/

theorem liveBit_putFrom (m : Memory BitCell) (xs : Bits) (a : Nat) :
    liveBit (putFrom m 0 (xs.map liveCell)) a = if h : a < xs.length then some xs[a] else liveBit m a := by
  unfold liveBit
  rw [read_putFrom]
  by_cases h : a < xs.length
  · simp [h, liveCell]
  · simp [h]

theorem bitOut_of_bbuf {m : Memory BitCell} {xs : Bits} {t : State} (h : t.mems.bbuf = putFrom m 0 (xs.map liveCell))
    (hl : t.regs.bitLen = xs.length) : bitOut t = xs.map some := by
  unfold bitOut
  rw [hl]
  apply List.ext_getElem (by simp)
  intro i h1 h2
  have hi : i < xs.length := by simpa using h2
  simp [h, liveBit_putFrom, hi]

/-- Bits just written are read back whatever the draw: none of them is free. -/
theorem bbufBits_of_bbuf {m : Memory BitCell} {xs : Bits} {t : State}
    (h : t.mems.bbuf = putFrom m 0 (xs.map liveCell)) (hl : t.regs.bitLen = xs.length) : bbufBits t = xs := by
  unfold bbufBits
  rw [hl]
  apply List.ext_getElem (by simp)
  intro i h1 h2
  have hi : i < xs.length := by simpa using h2
  simp [bitRead, h, liveBit_putFrom, hi]

/-! ## The length and the inverse of an RLE expansion -/

theorem length_rleExpand : ∀ B : List Byte, B.length % 2 = 0 →
    (rleExpand B).length = ∑ k ∈ Finset.range (B.length / 2), (B.getD (2 * k + 1) 0#8).toNat
  | [], _ => by simp [rleExpand]
  | [x], h => by simp at h
  | v :: c :: xs, h => by
    have h' : xs.length % 2 = 0 := by simp at h; omega
    have hl : (v :: c :: xs).length / 2 = xs.length / 2 + 1 := by simp; omega
    rw [hl, Finset.sum_range_succ']
    simp only [rleExpand, List.length_append, List.length_replicate, length_rleExpand xs h']
    rw [Nat.add_comm]
    congr 1

theorem rleExpand_rleRuns : ∀ (xs : List Byte) (v : Byte) (c : Nat), c ≤ 255 →
    rleExpand (rleRuns v c xs) = List.replicate c v ++ xs ∧ (rleRuns v c xs).length % 2 = 0
  | [], v, c, hc => by simp [rleRuns, rleExpand]; omega
  | x :: xs, v, c, hc => by
    unfold rleRuns
    split
    case isTrue h =>
      obtain ⟨rfl, h⟩ := h
      have ih := rleExpand_rleRuns xs x (c + 1) (by simp only [Config.runMax] at h; omega)
      refine ⟨?_, ih.2⟩
      rw [ih.1, List.replicate_succ', List.append_assoc]; rfl
    case isFalse h =>
      have ih := rleExpand_rleRuns xs x 1 (by omega)
      constructor
      · simp only [rleExpand, ih.1]
        rw [BitVec.toNat_ofNat, Nat.mod_eq_of_lt (by omega)]; rfl
      · have := ih.2; simp; omega

end Sys2Proof.Machine
end

