-- ==== Sys2Proof/Tests/Slice0.lean ====
section
/-! SUPPORT. Tests. Expected results are those of `95_test_vectors.md` (the vector's id is in the test's docstring) or
are read from the rule named; then, for each statement with hypotheses, a state that meets them. -/

namespace Sys2Proof.Machine

set_option Elab.async false

/-! ## The words of R61, bit by bit from its RSV and OP columns -/

theorem test_decode_pack : decode 0b00000001#8 = .command .pack := by decide
theorem test_decode_unpack : decode 0b00000010#8 = .command .unpack := by decide
theorem test_decode_hwalk : decode 0b00000011#8 = .command .hwalk := by decide
theorem test_decode_hdec : decode 0b00000100#8 = .command .hdec := by decide
theorem test_decode_rled : decode 0b00000101#8 = .command .rled := by decide
/-- V-RS-1 to V-RS-6. -/
theorem test_decode_reserved :
    decode 0x00#8 = .reserved .opUnused ∧ decode 0x06#8 = .reserved .opUnused ∧ decode 0x07#8 = .reserved .opUnused ∧
    decode 0x09#8 = .reserved .rsvNotZero ∧ decode 0x81#8 = .reserved .rsvNotZero ∧
    decode 0xFF#8 = .reserved .rsvNotZero := by decide
theorem test_decodeTableWord :
    decodeTableWord 8 4 = some .hdec ∧ decodeTableWord 8 6 = none ∧ decodeTableWord 16 4 = none ∧
    decodeTableWord 8 260 = none := by decide

/-! ## WellFormed: each check refuses an ill-formed term -/

theorem test_wellFormed_rsv : CmdFields.wellFormed { rsv := 1#5, op := 1#3 } = false := by decide
theorem test_wellFormed_op :
    CmdFields.wellFormed { rsv := 0#5, op := 0#3 } = false ∧ CmdFields.wellFormed { rsv := 0#5, op := 6#3 } = false ∧
    CmdFields.wellFormed { rsv := 0#5, op := 5#3 } = true := by decide
/-- Each constraint of R6, broken alone by one; 8 * (32 - 1) = 248 and 8 * (33 - 1) = 256. -/
theorem test_wellFormed_params :
    Params.wellFormed { lenw := 8, srcCap := 32, dstCap := 255, bitCap := 255 } = true ∧
    Params.wellFormed { lenw := 7, srcCap := 1, dstCap := 1, bitCap := 1 } = false ∧
    Params.wellFormed { lenw := 8, srcCap := 0, dstCap := 1, bitCap := 1 } = false ∧
    Params.wellFormed { lenw := 8, srcCap := 33, dstCap := 1, bitCap := 1 } = false ∧
    Params.wellFormed { lenw := 8, srcCap := 1, dstCap := 0, bitCap := 1 } = false ∧
    Params.wellFormed { lenw := 8, srcCap := 1, dstCap := 256, bitCap := 1 } = false ∧
    Params.wellFormed { lenw := 8, srcCap := 1, dstCap := 1, bitCap := 256 } = false := by decide

/-! ## Small states -/

/-- A small instance: `LENW` 8, 8 source Bytes, `d` destination Bytes, `n` bits. -/
def tParams (d n : Nat) : Params := { lenw := 8, srcCap := 8, dstCap := d, bitCap := n }

/-- Just after reset, with what the host has loaded: SRC, BBUF, the valid entries of CT, NSYM. -/
def tState (p : Params) (src : List Byte) (bits : Bits) (codes : List (Byte × Bits)) (nsym : Nat) : State :=
  { State.reset with
    params := p
    regs := { Regs.reset with srcLen := src.length, bitLen := bits.length, nsym := nsym }
    mems := { src := src.zipIdx.map fun x => (x.2, x.1), dst := [],
              bbuf := bits.zipIdx.map fun x => (x.2, { bit := x.1, live := true }),
              ct := codes.map fun e => (e.1.toNat, entryOf e.2) } }

/-- The same with a host that has plans. -/
def tHost (es : List Event) (ts : List Nat) (s : State) : State :=
  s.updHost fun h => { h with events := es, busyTime := ts }

/-- The state a command ends in. -/
def tEnd (i : Instr) (s : State) : State :=
  match exec i s with
  | .next t => t
  | .fault _ => s
  | .refused _ => s

/-- The state one step ends in. -/
def tStep (s : State) : State :=
  match step s with
  | .next t => t
  | .fault _ => s
  | .refused _ => s

/-- STATUS, ERRCODE and the output buffer DST. -/
def tBytes (i : Instr) (s : State) : BitVec 8 × BitVec 8 × List (Option Byte) :=
  ((tEnd i s).regs.status, (tEnd i s).regs.errcode, dstOut (tEnd i s))

/-- STATUS, ERRCODE, PAD and the output buffer BBUF. -/
def tBits (i : Instr) (s : State) : BitVec 8 × BitVec 8 × BitVec 8 × List (Option Bool) :=
  ((tEnd i s).regs.status, (tEnd i s).regs.errcode, (tEnd i s).regs.pad, bitOut (tEnd i s))

/-- `T3`, `T2` and `T1` of the vectors. -/
def tT3 : List (Byte × Bits) := [(0x41#8, [false]), (0x42#8, [true, false]), (0x43#8, [true, true])]
def tT2 : List (Byte × Bits) := [(0x41#8, [false]), (0x42#8, [true, false])]
def tT1 : List (Byte × Bits) := [(0x41#8, [])]

/-- "01011". -/
def tBits5 : Bits := [false, true, false, true, true]

/-! ## The commands, from the vectors -/

/-- V-PK-4. -/
theorem test_pack_101 : tBytes .pack (tState (tParams 8 32) [] [true, false, true] [] 0) =
    (0x02#8, 0#8, [some 0x05#8, some 0xA0#8]) := by decide +kernel
/-- V-PK-11. -/
theorem test_pack_overflow :
    tBytes .pack (tState (tParams 2 32) [] [true, true, false, false, true, false, true, false, true] [] 0) =
    (0x06#8, 7#8, [some 0x07#8, some 0xCA#8]) := by decide +kernel
/-- V-UP-4. -/
theorem test_unpack_101 : tBits .unpack (tState (tParams 8 32) [0x05#8, 0xA0#8] [] [] 0) =
    (0x02#8, 0#8, 5#8, [some true, some false, some true]) := by decide +kernel
/-- V-UP-16. -/
theorem test_unpack_overflow : tBits .unpack (tState (tParams 8 4) [0x00#8, 0xCA#8] [] [] 0) =
    (0x06#8, 7#8, 0#8, [some true, some true, some false, some false]) := by decide +kernel
/-- V-HW-4. -/
theorem test_hwalk_abc : tBytes .hwalk (tState (tParams 8 32) [] tBits5 tT3 0) =
    (0x02#8, 0#8, [some 0x41#8, some 0x42#8, some 0x43#8]) := by decide +kernel
/-- V-HW-12. -/
theorem test_hwalk_dead : tBytes .hwalk (tState (tParams 8 32) [] [false, true, true] tT2 0) =
    (0x06#8, 6#8, [some 0x41#8]) := by decide +kernel
/-- V-HD-1. -/
theorem test_hdec_abc : tBytes .hdec (tState (tParams 8 32) [0x03#8, 0x58#8] [] tT3 0) =
    (0x02#8, 0#8, [some 0x41#8, some 0x42#8, some 0x43#8]) := by decide +kernel
/-- V-HD-8. -/
theorem test_hdec_truncated : tBytes .hdec (tState (tParams 8 32) [0x01#8, 0x5A#8] [] tT3 0) =
    (0x06#8, 6#8, [some 0x41#8, some 0x42#8, some 0x43#8, some 0x41#8]) := by decide +kernel
/-- V-RL-8: a count of 0 in the middle. -/
theorem test_rled_zero_count :
    tBytes .rled (tState (tParams 8 32) [0x41#8, 0x03#8, 0x42#8, 0x00#8, 0x43#8, 0x01#8] [] [] 0) =
    (0x02#8, 0#8, [some 0x41#8, some 0x41#8, some 0x41#8, some 0x43#8]) := by decide +kernel
/-- V-RL-11. -/
theorem test_rled_overflow : tBytes .rled (tState (tParams 4 32) [0x41#8, 0x03#8, 0x42#8, 0x02#8] [] [] 0) =
    (0x06#8, 7#8, [some 0x41#8, some 0x41#8, some 0x41#8, some 0x42#8]) := by decide +kernel

/-! ## The host, from the vectors and R29, R33, R146 -/

/-- V-HO-6 and V-HO-8: writes to read-only registers are ignored. -/
theorem test_hwr_read_only :
    (tStep (tHost [.hwr 4 7] [] State.reset)).regs = Regs.reset ∧
    (tStep (tHost [.hwr 1 0xFF] [] State.reset)).regs = Regs.reset := by decide +kernel
/-- V-HO-7: register 9 reads 0. -/
theorem test_hrd_reserved : (tStep (tHost [.hrd 9] [] State.reset)).host.seen = [.reg 9 0] := by decide +kernel
/-- V-HO-2: HDEC right after reset finds the table empty. -/
theorem test_hdec_after_reset :
    (tStep (State.reset.withFetchWord 8 4)).regs.status = 0x06#8 ∧
    (tStep (State.reset.withFetchWord 8 4)).regs.errcode = 5#8 := by decide +kernel
/-- R29 and R146: with `BUSY_TIME` 1 the block is busy after the start, and a write of NSYM is then ignored. -/
theorem test_busy_write_ignored :
    (tStep (tHost [.hwr 0 5, .hwr 6 3] [1] State.reset)).regs.status = 0x01#8 ∧
    (tStep (tStep (tHost [.hwr 0 5, .hwr 6 3] [1] State.reset))).regs.nsym = 0 := by decide +kernel
/-- R45, R34 and R29: a read of PROGRESS while busy leaves the register at 0. -/
theorem test_busy_progress_read :
    (tStep (tStep (tHost [.hwr 0 5, .hrd 8] [1] (tState (tParams 8 8) [1#8, 2#8] [] [] 0)))).regs.progress = 0 := by
  decide +kernel
/-- R33: the bits the host put in BBUF hold no value once UNPACK has started. -/
theorem test_unpack_makes_bits_stale :
    bbufValue (tEnd .unpack (tState (tParams 8 32) [0x07#8, 0x80#8] [true, true] [] 0)) 1 = none := by decide +kernel

/-! ## Hypotheses that can be met -/

theorem witness_resetInput :
    (tHost [.reset] [] State.reset).host.events = [.reset] ∧ (tHost [.reset] [] State.reset).busy = false ∧
    (tHost [.reset] [1] (startCommand .pack State.reset)).busy = true ∧
    busyFor (tHost [.reset] [1] (startCommand .pack State.reset)) ≠ 0 := by decide +kernel

theorem witness_stepRuns :
    (tHost [.hwr 0 5] [] State.reset).busy = false ∧ (tHost [.hwr 0 5] [] State.reset).host.events = [.hwr 0 5] ∧
    busyFor (tHost [.hwr 0 5] [] State.reset) = 0 ∧ decode (BitVec.ofNat 8 5) = .command .rled := by decide +kernel

theorem witness_fetchedWord : decodeTableWord 8 5 = some .rled := by decide

theorem witness_idleBlock : State.reset.busy = false ∧ State.reset.host.events = [] := by decide +kernel

theorem witness_reservedWord :
    (tHost [.hwr 0 0] [] State.reset).busy = false ∧ (tHost [.hwr 0 0] [] State.reset).host.events = [.hwr 0 0] ∧
    0 < 256 ∧ decode (BitVec.ofNat 8 0) = .reserved .opUnused ∧
    255 < 256 ∧ decode (BitVec.ofNat 8 255) = .reserved .rsvNotZero := by decide +kernel

theorem witness_wideWrite :
    (tHost [.hwr 0 256] [] State.reset).busy = false ∧
    (tHost [.hwr 0 256] [] State.reset).host.events = [.hwr 0 256] := by decide +kernel

theorem witness_commandStart :
    (tHost [.hwr 0 4] [1] State.reset).busy = false ∧ (tHost [.hwr 0 4] [1] State.reset).host.events = [.hwr 0 4] ∧
    busyFor (tHost [.hwr 0 4] [1] State.reset) = 0 + 1 ∧ decode (BitVec.ofNat 8 4) = .command .hdec := by
  decide +kernel

theorem witness_hostRegisters :
    (tHost [.hrd 8, .hwr 3 256, .hwr 6 255] [] State.reset).busy = false ∧
    (tHost [.hrd 8] [] State.reset).host.events = [.hrd 8] ∧ (tHost [.hrd 9] [] State.reset).host.events = [.hrd 9] ∧
    (tHost [.hwr 5 256] [] State.reset).host.events = [.hwr 5 256] ∧
    (tHost [.hwr 8 1] [] State.reset).host.events = [.hwr 8 1] ∧
    (tHost [.hwr 9 1] [] State.reset).host.events = [.hwr 9 1] := by decide +kernel

/-- Each clause of the host's reads, where an element holds a value and where it does not. -/
theorem witness_hostReadsMemory :
    let s := tState (tParams 8 32) [1#8, 2#8, 3#8, 4#8, 5#8, 6#8, 7#8, 8#8] [true] tT3 0
    s.busy = false ∧ (tHost [.mrd .ct 255] [] s).host.events = [.mrd .ct 255] ∧
    7 < s.params.srcCap ∧ Memory.read s.mems.src 7 = some 8#8 ∧ Memory.read s.mems.src 8 = none ∧
    0 < s.params.bitCap ∧ Memory.read s.mems.bbuf 0 = some { bit := true, live := true } ∧
    Memory.read s.mems.ct 0x43 = some (entryOf [true, true]) ∧ Memory.read s.mems.ct 255 = none ∧
    0 < (tEnd .pack s).regs.dstLen ∧ Memory.read (tEnd .pack s).mems.dst 0 = some 7#8 := by decide +kernel

/-- Each clause of the host's writes, at the last index and at the capacity. -/
theorem witness_hostWritesMemory :
    let s := tState (tParams 8 32) [] [] [] 0
    (tHost [.mwrSrc 7 1#8] [] s).busy = false ∧ (tHost [.mwrSrc 7 1#8] [] s).host.events = [.mwrSrc 7 1#8] ∧
    7 < s.params.srcCap ∧ ¬8 < s.params.srcCap ∧ (tHost [.mwrDst 0 1#8] [] s).host.events = [.mwrDst 0 1#8] ∧
    (tHost [.mwrBbuf 31 true] [] s).host.events = [.mwrBbuf 31 true] ∧ 31 < s.params.bitCap ∧
    (tHost [.mwrCt 255 noEntry] [] s).host.events = [.mwrCt 255 noEntry] := by decide +kernel

/-- A busy block, with a turn left, and what its host does then. -/
def tBusy (es : List Event) : State :=
  tHost es [1] (startCommand .unpack (tState (tParams 8 32) [0#8] [] [] 0))

/-- Each clause of the busy host's acts: STATUS, `wait`, PROGRESS up to its bound, a write. -/
theorem witness_busyHost :
    (tBusy []).regs.status = 0x01#8 ∧ busyFor (tBusy []) = 0 + 1 ∧
    ((tBusy [.hrd 1]).host.events = [.hrd 1] ∧ Event.hrd 1 ≠ .reset) ∧
    ((tBusy [.wait]).host.events = [.wait] ∧ Event.wait ≠ .reset) ∧
    ((tBusy [.hrd 8]).host.events = [.hrd 8] ∧ Event.hrd 8 ≠ .reset ∧
      (tBusy [.hrd 8]).host.lastProgress ≤ runningCount (tBusy [.hrd 8])) ∧
    ((tBusy [.hwr 6 3]).host.events = [.hwr 6 3] ∧ Event.hwr 6 3 ≠ .reset ∧ Event.hwr 6 3 ≠ .hrd 8) ∧
    ((tBusy [.mwrSrc 0 1#8]).host.events = [.mwrSrc 0 1#8] ∧ Event.mwrSrc 0 1#8 ≠ .reset) := by decide +kernel

/-- Acts that read, acts that write, idle and busy, and the write of CMD. -/
theorem witness_sideEffects :
    ((tBusy [.hrd 8]).host.events = [.hrd 8] ∧ (tBusy [.hrd 8]).busy = true ∧ busyFor (tBusy [.hrd 8]) ≠ 0) ∧
    ((tHost [.mrd .dst 0] [] State.reset).host.events = [.mrd .dst 0] ∧ State.reset.busy = false) ∧
    (tHost [.hwr 3 1] [] State.reset).host.events = [.hwr 3 1] ∧
    (tHost [.hwr 0 255] [] State.reset).host.events = [.hwr 0 (255#8).toNat] := by decide +kernel

theorem witness_heldCommand :
    (tHost [.hwr 0 1, .wait, .reset] [1, 0] State.reset).busy = false ∧
    (tHost [.hwr 0 1, .wait, .reset] [1, 0] State.reset).host.busyTime = [1, 0] ∧
    decode (BitVec.ofNat 8 1) = .command .pack ∧ Event.reset ∉ [Event.wait, .reset].take 1 ∧
    Event.reset ∉ [Event.reset].take 0 := by decide +kernel

/-- A `wait` with the block idle, and one with the block busy for a turn yet. -/
theorem witness_wait :
    (tHost [.wait] [] State.reset).host.events = [.wait] ∧ (tHost [.wait] [] State.reset).busy = false ∧
    (tBusy [.wait]).host.events = [.wait] ∧ (tBusy [.wait]).busy = true ∧ busyFor (tBusy [.wait]) = 1 := by
  decide +kernel

theorem witness_writes :
    let s := tState (tParams 1 1) [] [] [] 0
    0 < s.params.dstCap ∧ s.params.dstCap ≤ 1 ∧ 0 < s.params.bitCap ∧ s.params.bitCap ≤ 1 := by decide

/-! PACK -/

/-- Nine bits that fill both capacities. -/
def tNine (d n : Nat) : State :=
  tState (tParams d n) [] [true, true, false, false, true, false, true, false, true] [] 0

theorem witness_packWrites :
    (tNine 3 9).regs.bitLen ≤ (tNine 3 9).params.bitCap ∧
    1 + ((tNine 3 9).regs.bitLen + (8 - (tNine 3 9).regs.bitLen % 8) % 8) / 8 ≤ (tNine 3 9).params.dstCap := by
  decide +kernel

theorem witness_packed : ∃ t, exec .pack (tNine 3 9) = .next t ∧ t.regs.status = 0x02#8 :=
  ⟨_, rfl, by decide +kernel⟩

theorem witness_packFaults :
    (tNine 3 8).params.bitCap < (tNine 3 8).regs.bitLen ∧ (tNine 2 9).regs.bitLen ≤ (tNine 2 9).params.bitCap ∧
    (tNine 2 9).params.dstCap < 1 + ((tNine 2 9).regs.bitLen + 7) / 8 := by decide +kernel

/-! UNPACK -/

/-- A padding count that drops all the bits, with the smallest BBUF; and one that leaves all of a full BBUF. -/
theorem witness_unpackWrites :
    let s := tState (tParams 8 0) [0x08#8, 0xFF#8] [] [] 0
    let t := tState (tParams 8 8) [0x00#8, 0xCA#8] [] [] 0
    (s.regs.srcLen ≤ s.params.srcCap ∧ 1 ≤ s.regs.srcLen ∧ (srcRead s 0).toNat ≤ 8 * (s.regs.srcLen - 1) ∧
      8 * (s.regs.srcLen - 1) - (srcRead s 0).toNat ≤ s.params.bitCap) ∧
    t.regs.srcLen ≤ t.params.srcCap ∧ 1 ≤ t.regs.srcLen ∧ (srcRead t 0).toNat ≤ 8 * (t.regs.srcLen - 1) ∧
      8 * (t.regs.srcLen - 1) - (srcRead t 0).toNat ≤ t.params.bitCap := by decide +kernel

theorem witness_unpacked : ∃ t, exec .unpack (tState (tParams 8 8) [0x00#8, 0xCA#8] [] [] 0) = .next t := ⟨_, rfl⟩

theorem witness_unpackFaults :
    let long := tState (tParams 8 8) (List.replicate 9 0#8) [] [] 0
    let pad := tState (tParams 8 8) [0x09#8, 0xFF#8] [] [] 0
    let full := tState (tParams 8 7) [0x00#8, 0xCA#8] [] [] 0
    long.params.srcCap < long.regs.srcLen ∧ State.reset.regs.srcLen = 0 ∧
    (pad.regs.srcLen ≤ pad.params.srcCap ∧ 1 ≤ pad.regs.srcLen ∧
      8 * (pad.regs.srcLen - 1) < (srcRead pad 0).toNat) ∧
    full.regs.srcLen ≤ full.params.srcCap ∧ 1 ≤ full.regs.srcLen ∧
      full.params.bitCap + (srcRead full 0).toNat < 8 * (full.regs.srcLen - 1) := by decide +kernel

theorem witness_unpackUndoes :
    let s := tState (tParams 8 32) [] [true, false, true] [] 0
    let s' := tState (tParams 8 32) [0x05#8, 0xA0#8] [] [] 0
    (∃ t u, exec .pack s = .next t ∧ t.regs.status = 0x02#8 ∧ (srcBytes s').map some = dstOut t ∧
      exec .unpack s' = .next u ∧ u.regs.errcode ≠ 7#8) ∧
    ∃ t u, exec .unpack s' = .next t ∧ t.regs.status = 0x02#8 ∧ exec .pack t = .next u ∧ u.regs.status = 0x02#8 ∧
      dstOut u = (srcBytes s').map some :=
  ⟨⟨_, _, rfl, by decide +kernel, by decide +kernel, rfl, by decide +kernel⟩,
    ⟨_, _, rfl, by decide +kernel, rfl, by decide +kernel, by decide +kernel⟩⟩

/-! HWALK -/

/-- An ordinary table, with DST as long as the output. -/
theorem witness_hwalkDecodes :
    let s := tState (tParams 3 5) [] tBits5 tT3 0
    s.regs.bitLen ≤ s.params.bitCap ∧ tablePasses (codeList s.mems.ct) = true ∧
    degenerateByte (codeList s.mems.ct) = none ∧
    ∃ out, Decodes (codeList s.mems.ct) (bbufBits s) out ∧ out.length ≤ s.params.dstCap :=
  ⟨by decide +kernel, by decide +kernel, by decide +kernel, [0x41#8, 0x42#8, 0x43#8],
    decodes_of_greedy _ _ [] _ (by decide +kernel), by decide +kernel⟩

theorem witness_hwalkDegenerate :
    let s := tState (tParams 3 5) [] [] tT1 3
    let t := tState (tParams 3 5) [] [true] tT1 3
    let u := tState (tParams 3 5) [] [] tT1 4
    (s.regs.bitLen ≤ s.params.bitCap ∧ degenerateByte (codeList s.mems.ct) = some 0x41#8 ∧ s.regs.bitLen = 0 ∧
      s.regs.nsym ≤ s.params.dstCap) ∧
    (t.regs.bitLen ≤ t.params.bitCap ∧ degenerateByte (codeList t.mems.ct) = some 0x41#8 ∧ t.regs.bitLen ≠ 0) ∧
    degenerateByte (codeList u.mems.ct) = some 0x41#8 ∧ u.regs.bitLen = 0 ∧ u.params.dstCap < u.regs.nsym := by
  decide +kernel

/-- V-HW-9 ends inside a code; V-HW-10, with `DST_CAP` 2, overflows. -/
theorem witness_hwalkGreedy :
    let s := tState (tParams 3 6) [] (tBits5 ++ [true]) tT3 0
    let t := tState (tParams 3 5) [] tBits5 tT3 0
    let u := tState (tParams 2 5) [] tBits5 tT3 0
    ((greedy (codeList s.mems.ct) [] (bbufBits s)).1.length ≤ s.params.dstCap ∧
      (greedy (codeList s.mems.ct) [] (bbufBits s)).2 ≠ []) ∧
    ((greedy (codeList t.mems.ct) [] (bbufBits t)).1.length ≤ t.params.dstCap ∧
      (greedy (codeList t.mems.ct) [] (bbufBits t)).2 = []) ∧
    u.params.dstCap < (greedy (codeList u.mems.ct) [] (bbufBits u)).1.length ∧
    (tState (tParams 3 4) [] tBits5 tT3 0).params.bitCap < (tState (tParams 3 4) [] tBits5 tT3 0).regs.bitLen := by
  decide +kernel

theorem witness_hwalkRled : (∃ t, exec .hwalk State.reset = .next t) ∧ ∃ t, exec .rled State.reset = .next t :=
  ⟨⟨_, rfl⟩, ⟨_, rfl⟩⟩

/-- V-HW-14, V-HW-16 and a good table, with the input as long as its buffer. -/
theorem witness_badTable :
    let s := tState (tParams 8 1) (List.replicate 8 0#8) [false] [(0x41#8, [false]), (0x42#8, [false, true])] 0
    s.regs.bitLen ≤ s.params.bitCap ∧ s.regs.srcLen ≤ s.params.srcCap ∧
    (0x41 ≠ 0x42 ∧ codeOf s.mems.ct 0x41 = some [false] ∧ codeOf s.mems.ct 0x42 = some [false, true] ∧
      [false] <+: [false, true]) ∧
    (∀ b < 256, codeOf State.reset.mems.ct b = none) ∧
    tablePasses (codeList (tState (tParams 8 1) [] [] tT3 0).mems.ct) = true := by decide +kernel

/-! HDEC -/

theorem witness_hdecIsUnpackThenHwalk :
    let s := tState (tParams 8 32) [0x03#8, 0x58#8] [] tT3 0
    let f := tState (tParams 8 32) [0x09#8, 0xFF#8] [] tT3 0
    (∃ t u w, exec .hdec s = .next t ∧ exec .unpack s = .next u ∧ exec .hwalk u = .next w ∧
      tablePasses (codeList s.mems.ct) = true ∧ u.regs.status = 0x02#8) ∧
    (∃ u, exec .unpack f = .next u ∧ tablePasses (codeList f.mems.ct) = true ∧ u.regs.status = 0x06#8) ∧
    tablePasses (codeList State.reset.mems.ct) = false ∧ State.reset.regs.srcLen ≤ State.reset.params.srcCap :=
  ⟨⟨_, _, _, rfl, rfl, rfl, by decide +kernel, by decide +kernel⟩, ⟨_, rfl, by decide +kernel, by decide +kernel⟩,
    by decide +kernel, by decide +kernel⟩

/-- The tree of `T3`. -/
def tTree : HuffNode := .node (.leaf 0x41#8) (.node (.leaf 0x42#8) (.leaf 0x43#8))

/-- `T3` loaded, and the packed codes of `41 42 43`, with DST and BBUF just long enough. -/
def tAbc : State := tState (tParams 3 5) [0x03#8, 0x58#8] [] tT3 3

theorem tAbc_codes : codeList tAbc.mems.ct = deriveCodes tTree := by decide +kernel

theorem witness_hdecDecodes :
    tablePasses (codeList tAbc.mems.ct) = true ∧
    (∀ b ∈ [0x41#8, 0x42#8, 0x43#8], ∃ c, (b, c) ∈ codeList tAbc.mems.ct) ∧
    srcBytes tAbc = huffmanPayload (codeList tAbc.mems.ct) [0x41#8, 0x42#8, 0x43#8] ∧ tAbc.regs.nsym = 3 ∧
    tAbc.regs.srcLen ≤ tAbc.params.srcCap ∧
    (encodeBits (codeList tAbc.mems.ct) [0x41#8, 0x42#8, 0x43#8]).length ≤ tAbc.params.bitCap ∧
    3 ≤ tAbc.params.dstCap := by
  refine ⟨by decide +kernel, ?_, by decide +kernel, by decide +kernel, by decide +kernel, by decide +kernel,
    by decide +kernel⟩
  rw [tAbc_codes]
  simp [tTree, deriveCodes]

theorem witness_hdecInverts :
    [0x41#8, 0x42#8, 0x43#8] ≠ ([] : List Byte) ∧ tTree.bytes.Nodup ∧
    (∀ b, b ∈ [0x41#8, 0x42#8, 0x43#8] ↔ b ∈ tTree.bytes) ∧
    (∀ (b : Byte) (c : Bits), codeOf tAbc.mems.ct b.toNat = some c ↔ (b, c) ∈ deriveCodes tTree) ∧
    srcBytes tAbc = huffmanPayload (deriveCodes tTree) [0x41#8, 0x42#8, 0x43#8] ∧ tAbc.regs.nsym = 3 ∧
    (encodeBits (deriveCodes tTree) [0x41#8, 0x42#8, 0x43#8]).length ≤ tAbc.params.bitCap := by
  refine ⟨by decide, by decide, ?_, ?_, by decide +kernel, by decide +kernel, by decide +kernel⟩
  · simp [tTree, HuffNode.bytes]
  · intro b c
    rw [← tAbc_codes, mem_codeList]

theorem witness_hdecFrame : ∃ t, exec .hdec tAbc = .next t := ⟨_, rfl⟩

theorem witness_hdecFaults :
    let long := tState (tParams 8 8) (List.replicate 9 0#8) [] tT3 0
    let none := tState (tParams 8 8) [] [] tT3 0
    let pad := tState (tParams 8 8) [0x09#8, 0xFF#8] [] tT3 0
    let full := tState (tParams 8 7) [0x00#8, 0xCA#8] [] tT3 0
    long.params.srcCap < long.regs.srcLen ∧
    (tablePasses (codeList none.mems.ct) = true ∧ none.regs.srcLen = 0) ∧
    (tablePasses (codeList pad.mems.ct) = true ∧ pad.regs.srcLen ≤ pad.params.srcCap ∧ 1 ≤ pad.regs.srcLen ∧
      8 * (pad.regs.srcLen - 1) < (srcRead pad 0).toNat) ∧
    tablePasses (codeList full.mems.ct) = true ∧ full.regs.srcLen ≤ full.params.srcCap ∧ 1 ≤ full.regs.srcLen ∧
      full.params.bitCap + (srcRead full 0).toNat < 8 * (full.regs.srcLen - 1) := by decide +kernel

/-! RLED -/

/-- Eight source Bytes, as many as SRC holds, that expand to the six Bytes DST holds. -/
def tRuns (d : Nat) : State :=
  tState (tParams d 8) [0x41#8, 0x03#8, 0x42#8, 0x02#8, 0x43#8, 0x01#8, 0x44#8, 0x00#8] [] [] 0

theorem witness_rledExpands :
    (tRuns 6).regs.srcLen ≤ (tRuns 6).params.srcCap ∧ (tRuns 6).regs.srcLen % 2 = 0 ∧
    (rleExpand (srcBytes (tRuns 6))).length ≤ (tRuns 6).params.dstCap := by decide +kernel

theorem witness_rledFaults :
    let long := tState (tParams 8 8) (List.replicate 9 0#8) [] [] 0
    let odd := tState (tParams 8 8) [0x41#8] [] [] 0
    long.params.srcCap < long.regs.srcLen ∧ (odd.regs.srcLen ≤ odd.params.srcCap ∧ odd.regs.srcLen % 2 = 1) ∧
    (tRuns 5).regs.srcLen ≤ (tRuns 5).params.srcCap ∧ (tRuns 5).regs.srcLen % 2 = 0 ∧
    (tRuns 5).params.dstCap < (rleExpand (srcBytes (tRuns 5))).length := by decide +kernel

theorem witness_zeroCount :
    let s := tState (tParams 8 8) [0x41#8, 0x03#8, 0x42#8, 0x00#8, 0x43#8, 0x01#8] [] [] 0
    let s' := tState (tParams 8 8) [0x41#8, 0x03#8, 0x43#8, 0x01#8] [] [] 0
    [0x41#8, 0x03#8].length % 2 = 0 ∧ s.params = s'.params ∧
    srcBytes s = [0x41#8, 0x03#8] ++ [0x42#8, 0#8] ++ [0x43#8, 0x01#8] ∧
    srcBytes s' = [0x41#8, 0x03#8] ++ [0x43#8, 0x01#8] ∧ s.regs.srcLen ≤ s.params.srcCap := by decide +kernel

theorem witness_rledInverts :
    let s := tState (tParams 3 8) [0x41#8, 0x02#8, 0x42#8, 0x01#8] [] [] 0
    srcBytes s = rleEncode [0x41#8, 0x41#8, 0x42#8] ∧ s.regs.srcLen ≤ s.params.srcCap ∧ 3 ≤ s.params.dstCap := by
  decide +kernel

/-! All commands -/

/-- Every command faults somewhere. -/
theorem witness_causes :
    (∃ t, exec .pack (tNine 2 9) = .next t ∧ t.regs.status = 0x06#8) ∧
    (∃ t, exec .unpack State.reset = .next t ∧ t.regs.status = 0x06#8) ∧
    (∃ t, exec .hwalk State.reset = .next t ∧ t.regs.status = 0x06#8) ∧
    (∃ t, exec .hdec State.reset = .next t ∧ t.regs.status = 0x06#8) ∧
    ∃ t, exec .rled (tState (tParams 8 8) [0x41#8] [] [] 0) = .next t ∧ t.regs.status = 0x06#8 :=
  ⟨⟨_, rfl, by decide +kernel⟩, ⟨_, rfl, by decide +kernel⟩, ⟨_, rfl, by decide +kernel⟩, ⟨_, rfl, by decide +kernel⟩,
    ⟨_, rfl, by decide +kernel⟩⟩

/-- States that differ and give a command the same inputs: an ordinary table with two NSYM, and a degenerate one. -/
theorem witness_sameInputs :
    sameInputs .hwalk (tState (tParams 8 8) [1#8] tBits5 tT3 1) (tState (tParams 8 8) [2#8] tBits5 tT3 2) ∧
    sameInputs .hdec (tState (tParams 8 8) [0#8] [true] tT1 2) (tState (tParams 8 8) [0#8] [] tT1 2) ∧
    sameInputs .pack (tState (tParams 8 8) [1#8] tBits5 tT3 1) (tState (tParams 8 8) [] tBits5 [] 0) := by
  simp only [sameInputs]
  decide +kernel

theorem witness_inputReady :
    inputReady .hwalk (tState (tParams 8 8) [] tBits5 tT3 0) ∧ inputReady .hdec tAbc ∧
    inputReady .rled (tRuns 6) := by
  simp only [inputReady]
  decide +kernel

theorem witness_step : (∃ t, step State.reset = .next t) ∧
    (∃ t, step (tHost [.hwr 0 1] [1] State.reset) = .next t ∧ t.busy = true) ∧
    ∃ t, (startCommand .pack State.reset).busy = true ∧ step (startCommand .pack State.reset) = .next t ∧
      t.busy = false :=
  ⟨⟨_, rfl⟩, ⟨_, rfl, by decide +kernel⟩, ⟨_, by decide +kernel, rfl, by decide +kernel⟩⟩

/-- A state with memories in use meets the invariant, and steps. -/
theorem witness_invariant : Inv (tHost [.hwr 0 4] [] tAbc) ∧ ∃ t, step (tHost [.hwr 0 4] [] tAbc) = .next t := by
  refine ⟨?_, _, rfl⟩
  constructor
  case running_valid => exact fun h => absurd h (by decide +kernel)
  all_goals decide +kernel

end Sys2Proof.Machine
end

/-! # The invariant family: every step keeps the parameters and the invariant

First what a body leaves alone, then what one step can be, then the parameters (O50); after that the part of the
invariant that concerns data, carried through every piece of pseudocode, and the invariant itself (O4, O52). -/

/-! ## What the pseudocode of a command leaves alone -/

namespace Sys2Proof.Machine

/-- What no command's pseudocode writes, between its start and its completion (R63): the parameters, the host, SRC, CT,
and every register but `DST_LEN`, `BIT_LEN` and `PAD`. -/
structure Kept (s t : State) : Prop where
  params : t.params = s.params
  draws : t.draws = s.draws
  host : t.host = s.host
  src : t.mems.src = s.mems.src
  ct : t.mems.ct = s.mems.ct
  cmd : t.regs.cmd = s.regs.cmd
  status : t.regs.status = s.regs.status
  errcode : t.regs.errcode = s.regs.errcode
  srcLen : t.regs.srcLen = s.regs.srcLen
  nsym : t.regs.nsym = s.regs.nsym
  progress : t.regs.progress = s.regs.progress

theorem Kept.refl (s : State) : Kept s s := by constructor <;> rfl

theorem Kept.trans {s t u : State} (h : Kept s t) (g : Kept t u) : Kept s u where
  params := g.params.trans h.params
  draws := g.draws.trans h.draws
  host := g.host.trans h.host
  src := g.src.trans h.src
  ct := g.ct.trans h.ct
  cmd := g.cmd.trans h.cmd
  status := g.status.trans h.status
  errcode := g.errcode.trans h.errcode
  srcLen := g.srcLen.trans h.srcLen
  nsym := g.nsym.trans h.nsym
  progress := g.progress.trans h.progress

theorem kept_updWork (s : State) (f : Work → Work) : Kept s (s.updWork f) := by constructor <;> rfl

theorem kept_pad (s : State) (v : Byte) : Kept s (s.updRegs fun r => { r with pad := v }) := by constructor <;> rfl

/-- The piece `r`, run from `s`, writes nothing of what a body leaves alone, whether it ends or raises. -/
def Run.Keeps (r : Run) (s : State) : Prop := r.Holds (Kept s) fun _ => Kept s

theorem keeps_done {s t : State} (h : Kept s t) : (Run.done t).Keeps s := h

theorem keeps_raised {s : State} (c : Cause) : (Run.raised c s).Keeps s := Kept.refl s

/-- A piece run from a state that already differs from `s` only in what a body may write. -/
theorem Run.Keeps.from {r : Run} {s t : State} (h : r.Keeps t) (g : Kept s t) : r.Keeps s :=
  Run.Holds.mono h (fun _ => g.trans) fun _ _ => g.trans

theorem Run.Keeps.andThen {r : Run} {f : State → Run} {s : State} (h : r.Keeps s) (hf : ∀ t, (f t).Keeps t) :
    (r.andThen f).Keeps s :=
  Run.Holds.andThen h fun t g => (hf t).from g

theorem Run.Keeps.state {r : Run} {s : State} (h : r.Keeps s) : Kept s r.state := by
  cases r <;> exact h

theorem keeps_raiseIf (p : Prop) [Decidable p] (c : Cause) (s : State) : (raiseIf p c s).Keeps s :=
  holds_raiseIf (fun _ => Kept.refl s) fun _ => Kept.refl s

theorem keeps_forUp {f : Nat → State → Run} (hf : ∀ k t, (f k t).Keeps t) (n k : Nat) (s : State) :
    (forUp f n k s).Keeps s :=
  holds_forUp_const (Kept s) f n k s (Kept.refl s) fun j t => (hf j t).from

theorem keeps_forEach {α : Type} {f : α → State → Run} (hf : ∀ x t, (f x t).Keeps t) (xs : List α) (s : State) :
    (forEach f xs s).Keeps s :=
  holds_forEach (fun _ => Kept s) f (fun x _ t => (hf x t).from) xs s (Kept.refl s)

theorem keeps_dstWrite (i : Nat) (v : Byte) (s : State) : (dstWrite i v s).Keeps s :=
  holds_dstWrite i v s (fun _ => Kept.refl s) fun _ => by constructor <;> rfl

theorem keeps_bitWrite (i : Nat) (v : Bool) (s : State) : (bitWrite i v s).Keeps s :=
  holds_bitWrite i v s (fun _ => Kept.refl s) fun _ => by constructor <;> rfl

theorem keeps_emitByte (v : Byte) (s : State) : (emitByte v s).Keeps s :=
  (keeps_dstWrite _ v s).andThen fun t => keeps_done (kept_updWork t _)

/-! ### The five bodies -/

theorem keeps_packBit (k : Nat) (s : State) : (packBit k s).Keeps s := by
  unfold packBit
  dsimp only
  split
  · exact ((keeps_emitByte _ _).andThen fun t => keeps_done (kept_updWork t _)).from (kept_updWork s _)
  · exact keeps_done (kept_updWork s _)

theorem keeps_packBody (s : State) : (packBody s).Keeps s :=
  (keeps_raiseIf _ _ s).andThen fun t =>
    ((keeps_dstWrite _ _ _).andThen fun u =>
      (keeps_forUp keeps_packBit _ _ _).from (kept_updWork u _)).from
    ((kept_updWork t _).trans (kept_pad _ _))

theorem keeps_unpackBit (k : Nat) (s : State) : (unpackBit k s).Keeps s := by
  unfold unpackBit
  split
  · exact (keeps_bitWrite _ _ s).andThen fun t => keeps_done (kept_updWork t _)
  · exact keeps_done (Kept.refl s)

theorem keeps_unpackByte (i : Nat) (s : State) : (unpackByte i s).Keeps s :=
  (keeps_forEach keeps_unpackBit _ _).from (kept_updWork s _)

theorem keeps_unpackPhase (s : State) : (unpackPhase s).Keeps s :=
  (keeps_raiseIf _ _ s).andThen fun t =>
    ((keeps_raiseIf _ _ _).andThen fun u =>
      (keeps_forUp keeps_unpackByte _ _ _).from (kept_updWork u _)).from (kept_pad t _)

theorem keeps_walkBit (codes : List (Byte × Bits)) (k : Nat) (s : State) : (walkBit codes k s).Keeps s := by
  unfold walkBit
  dsimp only
  split
  · exact ((keeps_emitByte _ _).andThen fun t => keeps_done (kept_updWork t _)).from (kept_updWork s _)
  · exact keeps_done ((kept_updWork s _).trans (kept_updWork _ _))
  · exact (keeps_raised _).from (kept_updWork s _)

theorem keeps_walk (s : State) : (walk s).Keeps s := by
  unfold walk
  dsimp only
  split
  · exact ((keeps_raiseIf _ _ _).andThen fun t => keeps_forUp (fun _ => keeps_emitByte _) _ _ t).from
      (kept_updWork s _)
  · exact ((keeps_forUp (keeps_walkBit _) _ _ _).andThen fun t => keeps_raiseIf _ _ t).from
      ((kept_updWork s _).trans (kept_updWork _ _))

theorem keeps_tableCheck (s : State) : (tableCheck s).Keeps s := keeps_raiseIf _ _ s

theorem keeps_rlePair (k : Nat) (s : State) : (rlePair k s).Keeps s :=
  (keeps_forUp (fun _ => keeps_emitByte _) _ _ _).from (kept_updWork s _)

/-- The frame of every body (R63). -/
theorem keeps_body (i : Instr) (s : State) : (body i s).Keeps s := by
  cases i with
  | pack => exact keeps_packBody s
  | unpack => exact (keeps_raiseIf _ _ s).andThen keeps_unpackPhase
  | hwalk => exact (keeps_raiseIf _ _ s).andThen fun t => (keeps_tableCheck t).andThen keeps_walk
  | hdec =>
    exact (keeps_raiseIf _ _ s).andThen fun t => (keeps_tableCheck t).andThen fun u =>
      (keeps_unpackPhase u).andThen keeps_walk
  | rled =>
    exact (keeps_raiseIf _ _ s).andThen fun t => (keeps_raiseIf _ _ t).andThen fun u =>
      (keeps_forUp keeps_rlePair _ _ _).from (kept_updWork u _)

/-! ## What one step can be -/

/-- Everything one step can do, a case per line of `step` and of `startWord`: a busy block completes or gives the host
a turn; an idle block does nothing, has a word written to `CMD`, or has another event happen to it. -/
inductive Moves (s : State) : State → Prop
  | complete (hb : s.busy = true) (h0 : busyFor s = 0) : Moves s (finishRunning (popBusy s))
  | turn (hb : s.busy = true) (h0 : busyFor s ≠ 0) : Moves s (busyTurn s)
  | still (hb : s.busy = false) (he : s.host.events = []) : Moves s s
  | reserved (v : Nat) (es : List Event) (r : Reserved) (hb : s.busy = false) (he : s.host.events = .hwr 0 v :: es)
      (hd : decode (BitVec.ofNat 8 v) = .reserved r) : Moves s (runReserved (BitVec.ofNat 8 v) (popEvent s))
  | command (v : Nat) (es : List Event) (i : Instr) (hb : s.busy = false) (he : s.host.events = .hwr 0 v :: es)
      (hd : decode (BitVec.ofNat 8 v) = .command i) (h0 : busyFor s = 0) :
      Moves s (finishCommand i (startCommand i (popBusy (popEvent s))))
  | start (v : Nat) (es : List Event) (i : Instr) (hb : s.busy = false) (he : s.host.events = .hwr 0 v :: es)
      (hd : decode (BitVec.ofNat 8 v) = .command i) (h0 : busyFor s ≠ 0) :
      Moves s (startCommand i (forgetProgress (popEvent s)))
  | event (e : Event) (es : List Event) (hb : s.busy = false) (he : s.host.events = e :: es)
      (hne : ∀ v, e ≠ .hwr 0 v) : Moves s (idleEvent e (popEvent s))

theorem busyFor_popEvent (s : State) : busyFor (popEvent s) = busyFor s := rfl

theorem moves_of_startWord {s t : State} {v : Nat} {es : List Event} (hb : s.busy = false)
    (he : s.host.events = .hwr 0 v :: es) (h : startWord (BitVec.ofNat 8 v) (popEvent s) = .next t) : Moves s t := by
  unfold startWord at h
  rw [busyFor_popEvent] at h
  split at h
  case h_1 r hd =>
    cases h
    exact .reserved v es r hb he hd
  case h_2 i hd =>
    split at h
    case h_1 h0 =>
      rw [exec_eq_finish] at h
      cases h
      exact .command v es i hb he hd h0
    case h_2 n hn =>
      cases h
      exact .start v es i hb he hd (by omega)

theorem moves_of_step {s t : State} (h : step s = .next t) : Moves s t := by
  unfold step at h
  split at h
  case isTrue hb =>
    split at h
    case h_1 h0 =>
      cases h
      exact .complete hb h0
    case h_2 n hn =>
      cases h
      exact .turn hb (by omega)
  case isFalse hb =>
    have hb : s.busy = false := by simpa using hb
    split at h
    case h_1 he =>
      cases h
      exact .still hb he
    case h_2 v es he => exact moves_of_startWord hb he h
    case h_3 e es hne he =>
      cases h
      exact .event e es hb he hne

/-! ## The parameters (O50) -/

@[simp] theorem params_settle (n : Nat) (r : Run) : (settle n r).params = r.state.params := by
  cases r <;> rfl

@[simp] theorem params_finishCommand (i : Instr) (s : State) : (finishCommand i s).params = s.params := by
  rw [finishCommand, params_settle]
  exact (keeps_body i s).state.params

@[simp] theorem params_finishRunning (s : State) : (finishRunning s).params = s.params := by
  unfold finishRunning
  split
  · exact params_finishCommand _ s
  · rfl

@[simp] theorem params_writeReg (r v : Nat) (s : State) : (writeReg r v s).params = s.params := by
  unfold writeReg
  split <;> rfl

@[simp] theorem params_writeSrc (i : Nat) (v : Byte) (s : State) : (writeSrc i v s).params = s.params := by
  unfold writeSrc
  split <;> rfl

@[simp] theorem params_writeBbuf (i : Nat) (v : Bool) (s : State) : (writeBbuf i v s).params = s.params := by
  unfold writeBbuf
  split <;> rfl

@[simp] theorem params_writeCt (i : Nat) (e : CtEntry) (s : State) : (writeCt i e s).params = s.params := by
  unfold writeCt
  split <;> rfl

theorem params_idleEvent (e : Event) (s : State) : (idleEvent e s).params = s.params := by
  cases e with
  | hwr r v => exact params_writeReg r v s
  | mwrSrc i v => exact params_writeSrc i v s
  | mwrBbuf i v => exact params_writeBbuf i v s
  | mwrCt i e => exact params_writeCt i e s
  | hrd _ | mrd _ _ | mwrDst _ _ | wait | reset => rfl

theorem params_busyEvent (e : Event) (s : State) : (busyEvent e s).params = s.params := by
  by_cases he : e = .reset
  · subst he; rfl
  · exact (sameBlock_busyEvent he s).1.symm

theorem params_busyTurn (s : State) : (busyTurn s).params = s.params := by
  unfold busyTurn
  split
  · rfl
  · exact params_busyEvent _ _

/-- Settles O50, by the cases of one step: no part of a command, and no turn of the host, writes them (R6, R34). -/
theorem stepKeepsParameters : Obligations.StepKeepsParameters := by
  intro s t h
  cases moves_of_step h with
  | complete => exact params_finishRunning _
  | turn => exact params_busyTurn s
  | still => rfl
  | reserved => rfl
  | command _ _ i => rw [params_finishCommand, params_startCommand]; rfl
  | start _ _ i => exact params_startCommand i _
  | event e => exact params_idleEvent e _

end Sys2Proof.Machine

/-! ## The part of the invariant that concerns data -/

namespace Sys2Proof.Machine

/-- The working registers are within their widths, and NODE is shorter than a code can be (R9, R26, R35). -/
structure WorkOk (p : Params) (w : Work) : Prop where
  bc : w.bc ≤ 8
  si : w.si < 2 ^ p.lenw
  di : w.di < 2 ^ p.lenw
  bi : w.bi < 2 ^ p.lenw
  nb : w.nb < 2 ^ p.lenw
  node : w.node.length < Config.maxLen

/-- The invariant without what it says of STATUS, ERRCODE, PROGRESS, the running command and the host: the part that
every piece of pseudocode keeps (`Inv.data`, `DataOk.inv`). -/
structure DataOk (s : State) : Prop where
  params : s.params.wellFormed = true
  srcLen : s.regs.srcLen < 2 ^ s.params.lenw
  bitLen : s.regs.bitLen < 2 ^ s.params.lenw
  nsym : s.regs.nsym < 2 ^ s.params.lenw
  dstLen : s.regs.dstLen ≤ s.params.dstCap
  mems : MemsOk s.params s.mems
  written : ∀ i < s.regs.dstLen, (Memory.read s.mems.dst i).isSome = true
  work : WorkOk s.params s.work

theorem wellFormed_iff (p : Params) : p.wellFormed = true ↔ 8 ≤ p.lenw ∧ 1 ≤ p.srcCap ∧
    8 * (p.srcCap - 1) < 2 ^ p.lenw ∧ 1 ≤ p.dstCap ∧ p.dstCap < 2 ^ p.lenw ∧ p.bitCap < 2 ^ p.lenw := by
  simp only [Params.wellFormed, decide_eq_true_eq]

theorem Run.Holds.and {r : Run} {Q R : State → Prop} {E F : Cause → State → Prop} (h : r.Holds Q E) (g : r.Holds R F) :
    r.Holds (fun t => Q t ∧ R t) fun c t => E c t ∧ F c t := by
  cases r <;> exact ⟨h, g⟩

/-- A loop whose rounds keep `P`, where the bound on the loop variable is one in terms of the parameters. -/
theorem holds_forUp_params {P : State → Prop} {E : Cause → State → Prop} {f : Nat → State → Run} {n k : Nat} {s : State}
    (hkeep : ∀ j t, (f j t).Keeps t) (h : P s)
    (hstep : ∀ j t, j < k + n → t.params = s.params → P t → (f j t).Holds P E) : (forUp f n k s).Holds P E := by
  have key := holds_forUp (fun _ t => P t ∧ t.params = s.params) (E := E) f n k s ⟨h, rfl⟩ ?_
  · exact key.mono (fun _ g => g.1) fun _ _ g => g
  · rintro j t - hj ⟨ht, hp⟩
    exact ((hstep j t hj hp ht).and (hkeep j t)).mono (fun _ ⟨hu, hkept⟩ => ⟨hu, hkept.params.trans hp⟩)
      fun _ _ g => g.1

section
variable {s : State}

theorem DataOk.srcCap_bits (h : DataOk s) : 8 * (s.params.srcCap - 1) < 2 ^ s.params.lenw := by
  obtain ⟨-, -, h, -⟩ := (wellFormed_iff _).1 h.params
  exact h

theorem DataOk.dstCap_lt (h : DataOk s) : s.params.dstCap < 2 ^ s.params.lenw := by
  obtain ⟨-, -, -, -, h, -⟩ := (wellFormed_iff _).1 h.params
  exact h

theorem DataOk.bitCap_lt (h : DataOk s) : s.params.bitCap < 2 ^ s.params.lenw := by
  obtain ⟨-, -, -, -, -, h⟩ := (wellFormed_iff _).1 h.params
  exact h

/-- `2 ^ LENW` is a multiple of 8, so a length padded to whole Bytes does not pass it. -/
theorem DataOk.padded_le (h : DataOk s) {n : Nat} (hn : n < 2 ^ s.params.lenw) :
    n + padOf n ≤ 2 ^ s.params.lenw := by
  obtain ⟨h8, -⟩ := (wellFormed_iff _).1 h.params
  obtain ⟨c, hc⟩ : 2 ^ 3 ∣ 2 ^ s.params.lenw := Nat.pow_dvd_pow 2 (by omega)
  unfold padOf
  omega

theorem DataOk.updWork (h : DataOk s) {f : Work → Work} (hf : WorkOk s.params (f s.work)) :
    DataOk (s.updWork f) :=
  { h with work := hf }

theorem DataOk.setPad (h : DataOk s) (v : Byte) : DataOk (s.updRegs fun r => { r with pad := v }) :=
  ⟨h.params, h.srcLen, h.bitLen, h.nsym, h.dstLen, h.mems, h.written, h.work⟩

/-- Every element of DST below `n` is written. -/
def WrittenTo (n : Nat) (s : State) : Prop := ∀ i < n, (Memory.read s.mems.dst i).isSome = true

theorem writtenTo_zero (s : State) : WrittenTo 0 s := fun i hi => absurd hi (Nat.not_lt_zero i)

theorem writtenTo_write {n : Nat} (h : WrittenTo n s) (v : Byte) :
    ∀ i < n + 1, (Memory.read (Memory.write s.mems.dst n v) i).isSome = true := by
  intro i hi
  rw [read_write]
  split
  case isTrue => rfl
  case isFalse hne => exact h i (by omega)

/-! ### The two writes -/

/-- `DstWrite` at the first index not known to be written. -/
theorem dataOk_dstWrite {i : Nat} (h : DataOk s) (hw : WrittenTo i s) (v : Byte) :
    (dstWrite i v s).Holds (fun t => DataOk t ∧ WrittenTo (i + 1) t ∧ i < t.params.dstCap ∧ t.work = s.work)
      fun _ => DataOk := by
  refine holds_dstWrite i v s (fun _ => h) fun hi => ?_
  have hm : MemsOk s.params { s.mems with dst := Memory.write s.mems.dst i v } :=
    { h.mems with dst := ⟨wf_write _ _ _ h.mems.dst.1, below_write _ _ hi h.mems.dst.2⟩ }
  exact ⟨⟨h.params, h.srcLen, h.bitLen, h.nsym, hi, hm, writtenTo_write hw v, h.work⟩, writtenTo_write hw v, hi, rfl⟩

theorem dataOk_bitWrite (h : DataOk s) (i : Nat) (v : Bool) :
    (bitWrite i v s).Holds (fun t => DataOk t ∧ i < t.params.bitCap ∧ t.work = s.work) fun _ => DataOk := by
  refine holds_bitWrite i v s (fun _ => h) fun hi => ?_
  have hm : MemsOk s.params { s.mems with bbuf := Memory.write s.mems.bbuf i { bit := v, live := true } } :=
    { h.mems with bbuf := ⟨wf_write _ _ _ h.mems.bbuf.1, below_write _ _ hi h.mems.bbuf.2⟩ }
  exact ⟨⟨h.params, h.srcLen, Nat.lt_of_le_of_lt hi h.bitCap_lt, h.nsym, h.dstLen, hm, h.written, h.work⟩, hi, rfl⟩

/-- The state between two emitted Bytes: DST is written up to DI. -/
structure Emitting (s : State) : Prop where
  data : DataOk s
  written : WrittenTo s.work.di s

theorem Emitting.updWork (h : Emitting s) {f : Work → Work} (hf : WorkOk s.params (f s.work))
    (hd : (f s.work).di = s.work.di) : Emitting (s.updWork f) :=
  ⟨h.data.updWork hf, show WrittenTo (f s.work).di s from hd ▸ h.written⟩

theorem emitting_emitByte (h : Emitting s) (v : Byte) :
    (emitByte v s).Holds Emitting fun _ => DataOk := by
  refine (dataOk_dstWrite h.data h.written v).andThen fun t ⟨ht, hwt, hcap, hwork⟩ => ?_
  rw [← hwork] at hwt hcap
  exact ⟨ht.updWork { ht.work with di := Nat.lt_of_le_of_lt hcap ht.dstCap_lt }, hwt⟩

theorem emitting_emitMany (h : Emitting s) (v : Byte) (n k : Nat) :
    (forUp (fun _ => emitByte v) n k s).Holds Emitting fun _ => DataOk :=
  holds_forUp_const Emitting _ n k s h fun _ _ ht => emitting_emitByte ht v

/-- A check changes nothing. -/
theorem dataOk_raiseIf (h : DataOk s) (p : Prop) [Decidable p] (c : Cause) :
    (raiseIf p c s).Holds (fun t => s = t ∧ ¬p) fun _ => DataOk :=
  holds_raiseIf (fun _ => h) fun hp => ⟨rfl, hp⟩

/-! ### PACK -/

theorem emitting_packBit {k : Nat} (h : Emitting s) (hbc : s.work.bc < 8) (hk : k < 2 ^ s.params.lenw) :
    (packBit k s).Holds (fun t => Emitting t ∧ t.work.bc < 8) fun _ => DataOk := by
  unfold packBit
  dsimp only
  generalize (if k < s.work.nb then bitRead s k else false) = x
  have ht : Emitting (s.updWork fun w => { w with bi := k, sh := shiftIn w.sh x, bc := w.bc + 1 }) :=
    h.updWork { h.data.work with bi := hk, bc := hbc } rfl
  split
  case isTrue =>
    refine (emitting_emitByte ht _).andThen fun u hu => ?_
    exact ⟨hu.updWork { hu.data.work with bc := Nat.zero_le 8 } rfl, Nat.zero_lt_succ 7⟩
  case isFalse hne => exact ⟨ht, Nat.lt_of_le_of_ne hbc hne⟩

theorem dataOk_packLoop {n : Nat} (h : Emitting s) (hbc : s.work.bc < 8) (hn : n ≤ 2 ^ s.params.lenw) :
    (forUp packBit n 0 s).Holds DataOk fun _ => DataOk := by
  have key := holds_forUp_params (P := fun t => Emitting t ∧ t.work.bc < 8) (E := fun _ => DataOk) (n := n) (k := 0)
    keeps_packBit ⟨h, hbc⟩ fun k t hk hp ⟨ht, hbct⟩ => emitting_packBit ht hbct (by rw [hp]; omega)
  exact key.mono (fun _ ht => ht.1.data) fun _ _ ht => ht

theorem dataOk_packBody (h : DataOk s) : (packBody s).Holds DataOk fun _ => DataOk := by
  refine (dataOk_raiseIf h _ _).andThen ?_
  rintro _ ⟨rfl, -⟩
  have hpad := (h.updWork (f := fun w => { w with nb := s.regs.bitLen }) { h.work with nb := h.bitLen }).setPad
    (BitVec.ofNat 8 (padOf s.regs.bitLen))
  refine ((dataOk_dstWrite hpad (writtenTo_zero _) _).and (keeps_dstWrite 0 _ _)).bind ?_ fun _ _ g => g.1
  rintro t ⟨⟨ht, hw, hcap, -⟩, hkept⟩
  have hdi : 1 < 2 ^ t.params.lenw := Nat.lt_of_le_of_lt hcap ht.dstCap_lt
  have hlen : s.regs.bitLen + padOf s.regs.bitLen ≤ 2 ^ t.params.lenw := hkept.params ▸ h.padded_le h.bitLen
  exact dataOk_packLoop ⟨ht.updWork { ht.work with di := hdi, bc := Nat.zero_le 8 }, hw⟩ (Nat.zero_lt_succ 7) hlen

/-! ### UNPACK -/

theorem dataOk_unpackBit (h : DataOk s) (k : Nat) : (unpackBit k s).Holds DataOk fun _ => DataOk := by
  unfold unpackBit
  split
  case isFalse => exact h
  case isTrue =>
    refine (dataOk_bitWrite h _ _).andThen fun t ⟨ht, hcap, hwork⟩ => ?_
    rw [← hwork] at hcap
    exact ht.updWork { ht.work with bi := Nat.lt_of_le_of_lt hcap ht.bitCap_lt }

theorem dataOk_unpackByte {i : Nat} (h : DataOk s) (hi : i < 2 ^ s.params.lenw) :
    (unpackByte i s).Holds DataOk fun _ => DataOk :=
  holds_forEach (fun _ => DataOk) unpackBit (fun k _ _ ht => dataOk_unpackBit ht k) _ _
    (h.updWork { h.work with si := hi })

theorem dataOk_unpackLoop {n : Nat} (h : DataOk s) (hn : n < 2 ^ s.params.lenw) :
    (forUp unpackByte n 1 s).Holds DataOk fun _ => DataOk :=
  holds_forUp_params keeps_unpackByte h fun i t hi hp ht => dataOk_unpackByte ht (by rw [hp]; omega)

/-- The unpack phase, once its input length is in range: the number of bits fits NB (R6's `8*(SRC_CAP-1) < 2^LENW`). -/
theorem dataOk_unpackPhase (h : DataOk s) (hlen : s.regs.srcLen ≤ s.params.srcCap) :
    (unpackPhase s).Holds DataOk fun _ => DataOk := by
  refine (dataOk_raiseIf h _ _).andThen ?_
  rintro _ ⟨rfl, -⟩
  have hpad := h.setPad (srcRead s 0)
  refine (dataOk_raiseIf hpad _ _).andThen ?_
  rintro _ ⟨rfl, -⟩
  have hbits := h.srcCap_bits
  have hnb : 8 * (s.regs.srcLen - 1) - (srcRead s 0).toNat < 2 ^ s.params.lenw := by omega
  have hsrc := h.srcLen
  exact dataOk_unpackLoop (hpad.updWork { h.work with nb := hnb, bi := Nat.two_pow_pos _ })
    (show s.regs.srcLen - 1 < 2 ^ s.params.lenw by omega)

/-! ### The walk -/

/-- No code is longer than `MAXLEN` (R24). -/
theorem length_code_le {ct : Memory CtEntry} {e : Byte × Bits} (he : e ∈ codeList ct) :
    e.2.length ≤ Config.maxLen := by
  obtain ⟨b, c⟩ := e
  rw [mem_codeList, codeOf] at he
  split at he
  case h_1 e _ =>
    split at he
    · cases he
      rw [CtEntry.codeBits, List.length_map, List.length_range]
      exact Nat.le_of_lt_succ e.len.isLt
    · cases he
  case h_2 => cases he

theorem emitting_walkBit {codes : List (Byte × Bits)} {k : Nat} (h : Emitting s) (hk : k < 2 ^ s.params.lenw)
    (hcodes : ∀ e ∈ codes, e.2.length ≤ Config.maxLen) :
    (walkBit codes k s).Holds Emitting fun _ => DataOk := by
  have ht : Emitting (s.updWork fun w => { w with bi := k }) := h.updWork { h.data.work with bi := hk } rfl
  unfold walkBit
  dsimp only
  rcases treeStep_cases codes s.work.node (bitRead s k) with
    ⟨e, -, -, hstep, -⟩ | ⟨hstep, ⟨e, he, -, hlt⟩, -⟩ | ⟨hstep, -⟩
  · simp only [hstep]
    refine (emitting_emitByte ht e.1).andThen fun u hu => ?_
    exact hu.updWork { hu.data.work with node := Nat.zero_lt_succ 254 } rfl
  · simp only [hstep]
    exact ht.updWork { ht.data.work with node := Nat.lt_of_lt_of_le hlt (hcodes e he) } rfl
  · simp only [hstep]
    exact ht.data

theorem emitting_walkLoop {codes : List (Byte × Bits)} {n : Nat} (h : Emitting s) (hn : n < 2 ^ s.params.lenw)
    (hcodes : ∀ e ∈ codes, e.2.length ≤ Config.maxLen) :
    (forUp (walkBit codes) n 0 s).Holds Emitting fun _ => DataOk :=
  holds_forUp_params (keeps_walkBit codes) h fun k t hk hp ht => emitting_walkBit ht (by rw [hp]; omega) hcodes

theorem dataOk_treeWalk {codes : List (Byte × Bits)} (h : Emitting s)
    (hcodes : ∀ e ∈ codes, e.2.length ≤ Config.maxLen) : (treeWalk codes s).Holds DataOk fun _ => DataOk := by
  have hroot : Emitting (s.updWork fun w => { w with node := [] }) :=
    h.updWork { h.data.work with node := Nat.zero_lt_succ 254 } rfl
  exact (emitting_walkLoop hroot h.data.bitLen hcodes).andThen fun t ht =>
    holds_raiseIf (fun _ => ht.data) fun _ => ht.data

theorem dataOk_degenerateWalk (h : Emitting s) (b : Byte) :
    (degenerateWalk b s).Holds DataOk fun _ => DataOk := by
  refine (dataOk_raiseIf h.data _ _).andThen ?_
  rintro _ ⟨rfl, -⟩
  exact (emitting_emitMany h b _ 1).mono (fun _ g => g.data) fun _ _ g => g

theorem dataOk_walk (h : DataOk s) : (walk s).Holds DataOk fun _ => DataOk := by
  have hstart : Emitting (s.updWork fun w => { w with di := 0 }) :=
    ⟨h.updWork { h.work with di := Nat.two_pow_pos _ }, writtenTo_zero _⟩
  unfold walk
  dsimp only
  split
  · exact dataOk_degenerateWalk hstart _
  · exact dataOk_treeWalk hstart fun _ => length_code_le

/-! ### RLED -/

theorem emitting_rlePair {k : Nat} (h : Emitting s) (hk : 2 * k < 2 ^ s.params.lenw) :
    (rlePair k s).Holds Emitting fun _ => DataOk :=
  emitting_emitMany (h.updWork { h.data.work with si := hk } rfl) _ _ 1

theorem emitting_rleLoop {n : Nat} (h : Emitting s) (hn : 2 * n ≤ 2 ^ s.params.lenw) :
    (forUp rlePair n 0 s).Holds Emitting fun _ => DataOk :=
  holds_forUp_params keeps_rlePair h fun k t hk hp ht => emitting_rlePair ht (by rw [hp]; omega)

theorem dataOk_rledBody (h : DataOk s) : (rledBody s).Holds DataOk fun _ => DataOk := by
  refine (dataOk_raiseIf h _ _).andThen ?_
  rintro _ ⟨rfl, -⟩
  refine (dataOk_raiseIf h _ _).andThen ?_
  rintro _ ⟨rfl, -⟩
  have hlen := h.srcLen
  have hstart : Emitting (s.updWork fun w => { w with di := 0 }) :=
    ⟨h.updWork { h.work with di := Nat.two_pow_pos _ }, writtenTo_zero _⟩
  exact (emitting_rleLoop hstart (show 2 * (s.regs.srcLen / 2) ≤ 2 ^ s.params.lenw by omega)).mono
    (fun _ ht => ht.data) fun _ _ ht => ht

/-! ### Every body -/

theorem dataOk_body (i : Instr) (h : DataOk s) : (body i s).Holds DataOk fun _ => DataOk := by
  cases i with
  | pack => exact dataOk_packBody h
  | unpack =>
    refine (dataOk_raiseIf h _ _).andThen ?_
    rintro _ ⟨rfl, hlen⟩
    exact dataOk_unpackPhase h (Nat.le_of_not_lt hlen)
  | hwalk =>
    refine (dataOk_raiseIf h _ _).andThen ?_
    rintro _ ⟨rfl, -⟩
    refine (dataOk_raiseIf h _ _).andThen ?_
    rintro _ ⟨rfl, -⟩
    exact dataOk_walk h
  | hdec =>
    refine (dataOk_raiseIf h _ _).andThen ?_
    rintro _ ⟨rfl, hlen⟩
    refine (dataOk_raiseIf h _ _).andThen ?_
    rintro _ ⟨rfl, -⟩
    exact (dataOk_unpackPhase h (Nat.le_of_not_lt hlen)).andThen fun _ => dataOk_walk
  | rled => exact dataOk_rledBody h

end

end Sys2Proof.Machine

/-! ## The invariant (O4, O52) -/

namespace Sys2Proof.Machine

/-- The rest of the invariant: STATUS, ERRCODE, PROGRESS, the running command, and what the host has read of it. -/
structure ControlOk (s : State) : Prop where
  status_four : s.regs.status = statusNone ∨ s.regs.status = statusBusy ∨ s.regs.status = statusOk ∨
    s.regs.status = statusFault
  errcode_fault : s.regs.status = statusFault → 1 ≤ s.regs.errcode.toNat ∧ s.regs.errcode.toNat ≤ 7
  errcode_none : s.regs.status ≠ statusFault → s.regs.errcode = 0#8
  running_valid : s.regs.status = statusBusy → ∃ i, decode s.regs.cmd = .command i
  progress_fits : s.regs.progress < 2 ^ s.params.lenw
  progress_busy : s.regs.status = statusBusy → s.regs.progress = 0
  lastProgress_busy : s.regs.status = statusBusy → s.host.lastProgress ≤ runningCount s

section
variable {s t : State}

theorem Inv.data (h : Inv s) : DataOk s where
  params := h.params_ok
  srcLen := h.srcLen_fits
  bitLen := h.bitLen_fits
  nsym := h.nsym_fits
  dstLen := h.dstLen_cap
  mems := ⟨⟨h.src_wf, h.src_below⟩, ⟨h.dst_wf, h.dst_below⟩, ⟨h.bbuf_wf, h.bbuf_below⟩, ⟨h.ct_wf, h.ct_below⟩⟩
  written := h.dst_written
  work := ⟨h.bc_fits, h.si_fits, h.di_fits, h.bi_fits, h.nb_fits, h.node_fits⟩

theorem DataOk.inv (h : DataOk s) (g : ControlOk s) : Inv s := by
  obtain ⟨⟨src_wf, src_below⟩, ⟨dst_wf, dst_below⟩, ⟨bbuf_wf, bbuf_below⟩, ct_wf, ct_below⟩ := h.mems
  exact { g with
    params_ok := h.params, srcLen_fits := h.srcLen, bitLen_fits := h.bitLen, nsym_fits := h.nsym
    dstLen_cap := h.dstLen, dst_written := h.written
    src_wf, dst_wf, bbuf_wf, ct_wf, src_below, dst_below, bbuf_below, ct_below
    bc_fits := h.work.bc, si_fits := h.work.si, di_fits := h.work.di
    bi_fits := h.work.bi, nb_fits := h.work.nb, node_fits := h.work.node }

/-! ### BUSY and STATUS -/

theorem Inv.status_of_busy (h : Inv s) (hb : s.busy = true) : s.regs.status = statusBusy := by
  unfold State.busy at hb
  rcases h.status_four with hs | hs | hs | hs
  · exact absurd (hs ▸ hb) (by decide)
  · exact hs
  · exact absurd (hs ▸ hb) (by decide)
  · exact absurd (hs ▸ hb) (by decide)

theorem status_ne_of_idle (hb : s.busy = false) : s.regs.status ≠ statusBusy := by
  intro hs
  unfold State.busy at hb
  exact absurd (hs ▸ hb) (by decide)

/-! ### Reset -/

/-- A block in its reset state, whatever its host (R32, R221). -/
theorem inv_of_reset (hp : s.params.wellFormed = true) (hr : s.regs = Regs.reset) (hm : s.mems = Mems.reset)
    (hw : s.work = Work.reset) : Inv s := by
  obtain ⟨p, r, m, w, d, host⟩ := s
  cases hr; cases hm; cases hw
  have hpos : 0 < 2 ^ p.lenw := Nat.two_pow_pos _
  refine DataOk.inv ⟨hp, hpos, hpos, hpos, Nat.zero_le _, memsOk_reset p, writtenTo_zero _, ?_⟩ ?_
  · exact ⟨Nat.zero_le 8, hpos, hpos, hpos, hpos, Nat.zero_lt_succ 254⟩
  · have hbusy : statusNone ≠ statusBusy := by decide
    have hfault : statusNone ≠ statusFault := by decide
    exact ⟨.inl rfl, fun h => absurd h hfault, fun _ => rfl, fun h => absurd h hbusy, hpos, fun _ => rfl,
      fun h => absurd h hbusy⟩

/-! ### The start of a command -/

theorem decode_encode (i : Instr) : decode (encode i) = .command i := by
  cases i <;> decide

@[simp] theorem cmd_startCommand (i : Instr) (s : State) : (startCommand i s).regs.cmd = encode i := by
  cases i <;> rfl
@[simp] theorem status_startCommand (i : Instr) (s : State) : (startCommand i s).regs.status = statusBusy := by
  cases i <;> rfl
@[simp] theorem errcode_startCommand (i : Instr) (s : State) : (startCommand i s).regs.errcode = 0#8 := by
  cases i <;> rfl
@[simp] theorem progress_startCommand (i : Instr) (s : State) : (startCommand i s).regs.progress = 0 := by
  cases i <;> rfl

theorem dataOk_startCommand (i : Instr) (h : DataOk s) : DataOk (startCommand i s) := by
  have hm := memsOk_clearSet i (latchWord (encode i) s) h.mems
  cases i with
  | pack => exact { h with dstLen := Nat.zero_le _, written := writtenTo_zero _ }
  | unpack => exact { h with bitLen := Nat.two_pow_pos _, mems := hm }
  | hwalk => exact { h with dstLen := Nat.zero_le _, written := writtenTo_zero _ }
  | hdec =>
    exact { h with dstLen := Nat.zero_le _, written := writtenTo_zero _, bitLen := Nat.two_pow_pos _, mems := hm }
  | rled => exact { h with dstLen := Nat.zero_le _, written := writtenTo_zero _ }

theorem controlOk_startCommand (i : Instr) (s : State) : ControlOk (startCommand i (forgetProgress s)) where
  status_four := .inr (.inl (status_startCommand i _))
  errcode_fault hs := by
    rw [status_startCommand] at hs
    exact absurd hs (by decide)
  errcode_none _ := errcode_startCommand i _
  running_valid _ := ⟨i, by rw [cmd_startCommand, decode_encode]⟩
  progress_fits := by
    rw [progress_startCommand]
    exact Nat.two_pow_pos _
  progress_busy _ := progress_startCommand i _
  lastProgress_busy _ := by
    rw [host_startCommand]
    exact Nat.zero_le _

/-! ### The completion of a command -/

theorem DataOk.sourceCount_lt (h : DataOk s) (i : Instr) : sourceCount i s < 2 ^ s.params.lenw := by
  cases i with
  | pack | hwalk => exact h.bitLen
  | unpack | hdec | rled => exact h.srcLen

theorem code_range (c : Cause) : 1 ≤ c.code.toNat ∧ c.code.toNat ≤ 7 := by
  cases c <;> decide

theorem statusOk_ne_busy : statusOk ≠ statusBusy := by decide

theorem statusOk_ne_fault : statusOk ≠ statusFault := by decide

theorem statusFault_ne_busy : statusFault ≠ statusBusy := by decide

theorem inv_succeed {n : Nat} (h : DataOk s) (he : s.regs.errcode = 0#8) (hn : n < 2 ^ s.params.lenw) :
    Inv (succeed n s) :=
  DataOk.inv { h with }
    { status_four := .inr (.inr (.inl rfl))
      errcode_fault := fun hs => absurd hs statusOk_ne_fault
      errcode_none := fun _ => he
      running_valid := fun hs => absurd hs statusOk_ne_busy
      progress_fits := hn
      progress_busy := fun hs => absurd hs statusOk_ne_busy
      lastProgress_busy := fun hs => absurd hs statusOk_ne_busy }

theorem inv_takeFault {n : Nat} (c : Cause) (h : DataOk s) (hn : n < 2 ^ s.params.lenw) : Inv (takeFault c n s) :=
  DataOk.inv { h with }
    { status_four := .inr (.inr (.inr rfl))
      errcode_fault := fun _ => code_range c
      errcode_none := fun hs => absurd rfl hs
      running_valid := fun hs => absurd hs statusFault_ne_busy
      progress_fits := Nat.lt_of_le_of_lt (Nat.le_of_lt_succ (Nat.mod_lt _ (Nat.zero_lt_succ n))) hn
      progress_busy := fun hs => absurd hs statusFault_ne_busy
      lastProgress_busy := fun hs => absurd hs statusFault_ne_busy }

theorem inv_finishCommand (i : Instr) (h : DataOk s) (he : s.regs.errcode = 0#8) : Inv (finishCommand i s) := by
  have hn := h.sourceCount_lt i
  have hrun := (dataOk_body i h).and (keeps_body i s)
  unfold finishCommand
  cases hr : body i s with
  | done t =>
    rw [hr] at hrun
    obtain ⟨ht, hkept⟩ := hrun
    exact inv_succeed ht (hkept.errcode.trans he) (hkept.params ▸ hn)
  | raised c t =>
    rw [hr] at hrun
    obtain ⟨ht, hkept⟩ := hrun
    exact inv_takeFault c ht (hkept.params ▸ hn)

theorem inv_finishRunning (h : Inv s) (hs : s.regs.status = statusBusy) : Inv (finishRunning s) := by
  obtain ⟨i, hi⟩ := h.running_valid hs
  have he : s.regs.errcode = 0#8 := h.errcode_none (hs ▸ by decide)
  unfold finishRunning
  rw [hi]
  exact inv_finishCommand i h.data he

theorem inv_runReserved (w : BitVec 8) (h : DataOk s) : Inv (runReserved w s) :=
  inv_takeFault .unsupported (s := latchWord w s) { h with } (Nat.two_pow_pos _)

/-! ### The turns of the host -/

/-- Where only the host differs, the invariant asks for its record of PROGRESS alone. -/
theorem Inv.of_sameBlock (h : Inv s) (g : sameBlock s t)
    (hl : s.regs.status = statusBusy → t.host.lastProgress ≤ runningCount s) : Inv t := by
  rw [g.runningCount_eq] at hl
  obtain ⟨p, r, m, w, d, host⟩ := t
  obtain ⟨rfl, rfl, rfl, rfl, rfl⟩ := g
  exact { h with lastProgress_busy := hl }

theorem inv_popEvent (h : Inv s) : Inv (popEvent s) :=
  h.of_sameBlock ⟨rfl, rfl, rfl, rfl, rfl⟩ h.lastProgress_busy

theorem inv_popBusy (h : Inv s) : Inv (popBusy s) :=
  h.of_sameBlock ⟨rfl, rfl, rfl, rfl, rfl⟩ h.lastProgress_busy

theorem inv_tickBusy (h : Inv s) : Inv (tickBusy s) :=
  h.of_sameBlock ⟨rfl, rfl, rfl, rfl, rfl⟩ h.lastProgress_busy

theorem inv_writeReg (h : Inv s) (hs : s.regs.status ≠ statusBusy) (r v : Nat) : Inv (writeReg r v s) := by
  have hfits : v % 2 ^ s.params.lenw < 2 ^ s.params.lenw := Nat.mod_lt _ (Nat.two_pow_pos _)
  unfold writeReg
  split
  · exact { h with srcLen_fits := hfits, lastProgress_busy := fun hb => absurd hb hs }
  · exact { h with bitLen_fits := hfits, lastProgress_busy := fun hb => absurd hb hs }
  · exact { h with nsym_fits := hfits, lastProgress_busy := fun hb => absurd hb hs }
  · exact h

theorem inv_writeSrc (h : Inv s) (hs : s.regs.status ≠ statusBusy) (i : Nat) (v : Byte) : Inv (writeSrc i v s) := by
  unfold writeSrc
  split
  case isTrue hi =>
    exact { h with
      src_wf := wf_write _ _ _ h.src_wf, src_below := below_write _ _ hi h.src_below
      lastProgress_busy := fun hb => absurd hb hs }
  case isFalse => exact h

theorem inv_writeBbuf (h : Inv s) (hs : s.regs.status ≠ statusBusy) (i : Nat) (v : Bool) : Inv (writeBbuf i v s) := by
  unfold writeBbuf
  split
  case isTrue hi =>
    exact { h with
      bbuf_wf := wf_write _ _ _ h.bbuf_wf, bbuf_below := below_write _ _ hi h.bbuf_below
      lastProgress_busy := fun hb => absurd hb hs }
  case isFalse => exact h

theorem inv_writeCt (h : Inv s) (hs : s.regs.status ≠ statusBusy) (i : Nat) (e : CtEntry) : Inv (writeCt i e s) := by
  unfold writeCt
  split
  case isTrue hi =>
    exact { h with
      ct_wf := wf_write _ _ _ h.ct_wf, ct_below := below_write _ _ hi h.ct_below
      lastProgress_busy := fun hb => absurd hb hs }
  case isFalse => exact h

theorem inv_note (h : Inv s) (v : Seen) : Inv (note v s) :=
  h.of_sameBlock (sameBlock_note s v) h.lastProgress_busy

theorem inv_idleEvent (h : Inv s) (hs : s.regs.status ≠ statusBusy) (e : Event) : Inv (idleEvent e s) := by
  cases e with
  | hrd | mrd | wait => exact inv_note h _
  | hwr r v => exact inv_writeReg h hs r v
  | mwrSrc i v => exact inv_writeSrc h hs i v
  | mwrDst => exact h
  | mwrBbuf i v => exact inv_writeBbuf h hs i v
  | mwrCt i e => exact inv_writeCt h hs i e
  | reset => exact inv_of_reset h.params_ok rfl rfl rfl

theorem lastProgress_busyReadReg_le (r : Nat) (h : s.host.lastProgress ≤ runningCount s) :
    (busyReadReg r s).host.lastProgress ≤ runningCount s := by
  unfold busyReadReg
  split
  · exact h
  · exact busyProgress_le_runningCount h
  · exact h

theorem lastProgress_busyEvent_le (e : Event) (h : s.host.lastProgress ≤ runningCount s) :
    (busyEvent e s).host.lastProgress ≤ runningCount s := by
  cases e with
  | hrd r => exact lastProgress_busyReadReg_le r h
  | hwr | mrd | mwrSrc | mwrDst | mwrBbuf | mwrCt | wait | reset => exact h

theorem inv_busyEvent (h : Inv s) (e : Event) : Inv (busyEvent e s) := by
  by_cases he : e = .reset
  · subst he
    exact inv_of_reset h.params_ok rfl rfl rfl
  · exact h.of_sameBlock (sameBlock_busyEvent he s) fun hs => lastProgress_busyEvent_le e (h.lastProgress_busy hs)

theorem inv_busyTurn (h : Inv s) : Inv (busyTurn s) := by
  unfold busyTurn
  split
  · exact inv_tickBusy h
  · exact inv_busyEvent (inv_tickBusy (inv_popEvent h)) _

end

/-! ### The two statements -/

/-- Settles O4: the parameters that reset takes meet R6's constraints (log 1). -/
theorem resetMeetsInvariant : Obligations.ResetMeetsInvariant :=
  inv_of_reset ((wellFormed_iff _).2 (by decide)) rfl rfl rfl

/-- Settles O52, by the cases of one step: a completion by `inv_finishCommand`, which rests on `dataOk_body`; a start by
`dataOk_startCommand`; every other turn of the host by what it writes. -/
theorem stepKeepsInvariant : Obligations.StepKeepsInvariant := by
  intro s t h hstep
  have hpop := inv_popEvent h
  cases moves_of_step hstep with
  | complete hb => exact inv_finishRunning (inv_popBusy h) (h.status_of_busy hb)
  | turn => exact inv_busyTurn h
  | still => exact h
  | reserved v => exact inv_runReserved _ hpop.data
  | command v es i =>
    exact inv_finishCommand i (dataOk_startCommand i (inv_popBusy hpop).data) (errcode_startCommand i _)
  | start v es i =>
    exact (dataOk_startCommand i (s := forgetProgress (popEvent s)) { h.data with }).inv
      (controlOk_startCommand i (popEvent s))
  | event e _ hb => exact inv_idleEvent hpop (status_ne_of_idle hb) e

end Sys2Proof.Machine

/-! # The state family: the life of a command, the reset state, and the registers by number

First two runs of a command from states that agree in what it reads (O47); then what a start and a completion leave
(O10, O44), when BUSY changes (O51), what an idle block does (O3, O8, O13); and at last a command held busy, which ends
as the same command does at once (O17). -/

/-! ## Two runs side by side (O47) -/

namespace Sys2Proof.Machine

/-- The two states agree on the parameters, the registers, the memories and the draw counter, and, where `e` holds, on
the working registers. Their hosts may differ. -/
structure Twin (e : Prop) (s t : State) : Prop where
  params : s.params = t.params
  regs : s.regs = t.regs
  mems : s.mems = t.mems
  draws : s.draws = t.draws
  work : e → s.work = t.work

/-- The two pieces end alike: both are done, with working registers that `V` relates, or both raise the same cause. -/
def Run.Twins (e : Prop) (V : Work → Work → Prop) : Run → Run → Prop
  | .done s, .done t => Twin e s t ∧ V s.work t.work
  | .raised c s, .raised d t => c = d ∧ Twin e s t
  | _, _ => False

/-- No demand on the working registers. -/
def AnyWork (_ _ : Work) : Prop := True

theorem twin_true_iff {s t : State} : Twin True s t ↔ sameBlock s t :=
  ⟨fun h => ⟨h.params, h.regs, h.mems, h.work trivial, h.draws⟩,
    fun ⟨hp, hr, hm, hw, hd⟩ => ⟨hp, hr, hm, hd, fun _ => hw⟩⟩

section
variable {e : Prop} {V W : Work → Work → Prop} {s t : State}

theorem Twin.srcRead (h : Twin e s t) : srcRead s = srcRead t := by
  funext i
  simp only [Machine.srcRead, h.mems, h.draws]

theorem Twin.bitRead (h : Twin e s t) : bitRead s = bitRead t := by
  funext i
  simp only [Machine.bitRead, h.mems, h.draws]

theorem Twin.updWork (h : Twin e s t) (f : Work → Work) : Twin e (s.updWork f) (t.updWork f) :=
  { h with work := fun he => congrArg f (h.work he) }

theorem Twin.updRegs (h : Twin e s t) (f : Regs → Regs) : Twin e (s.updRegs f) (t.updRegs f) :=
  { h with regs := congrArg f h.regs }

theorem Twin.updMems (h : Twin e s t) (f : Mems → Mems) : Twin e (s.updMems f) (t.updMems f) :=
  { h with mems := congrArg f h.mems }

/-! ### The rules of pseudocode -/

theorem Run.Twins.andThen {r q : Run} {f g : State → Run} (h : r.Twins e V q)
    (hf : ∀ s t, Twin e s t → V s.work t.work → (f s).Twins e W (g t)) :
    (r.andThen f).Twins e W (q.andThen g) := by
  cases r <;> cases q
  case done.done => exact hf _ _ h.1 h.2
  case raised.raised => exact h
  all_goals exact h.elim

theorem Run.Twins.mono {r q : Run} (h : r.Twins e V q) (hVW : ∀ w w', V w w' → W w w') : r.Twins e W q := by
  cases r <;> cases q
  case done.done => exact ⟨h.1, hVW _ _ h.2⟩
  case raised.raised => exact h
  all_goals exact h.elim

/-- A condition on which both states agree. -/
theorem twins_ite {p q : Prop} [Decidable p] [Decidable q] {r r' u u' : Run} (hpq : p ↔ q) (h : r.Twins e V r')
    (g : u.Twins e V u') : (if p then r else u).Twins e V (if q then r' else u') := by
  by_cases hp : p
  · rwa [if_pos hp, if_pos (hpq.1 hp)]
  · rwa [if_neg hp, if_neg (mt hpq.2 hp)]

theorem twins_raiseIf {p q : Prop} [Decidable p] [Decidable q] (hpq : p ↔ q) (c : Cause) (h : Twin e s t)
    (hV : V s.work t.work) : (raiseIf p c s).Twins e V (raiseIf q c t) :=
  twins_ite hpq ⟨rfl, h⟩ ⟨h, hV⟩

/-- A check and what follows it: it changes nothing, so what follows starts from the same two states. -/
theorem twins_check {p q : Prop} [Decidable p] [Decidable q] {f g : State → Run} (hpq : p ↔ q) (c : Cause)
    (h : Twin e s t) (hf : (f s).Twins e V (g t)) :
    ((raiseIf p c s).andThen f).Twins e V ((raiseIf q c t).andThen g) := by
  by_cases hp : p
  · rw [raiseIf_pos s hp, raiseIf_pos t (hpq.1 hp)]
    exact ⟨rfl, h⟩
  · rwa [raiseIf_neg s hp, raiseIf_neg t (mt hpq.2 hp)]

theorem twins_forUp {f g : Nat → State → Run}
    (hf : ∀ k s t, Twin e s t → V s.work t.work → (f k s).Twins e V (g k t)) :
    ∀ (n k : Nat) {s t : State}, Twin e s t → V s.work t.work → (forUp f n k s).Twins e V (forUp g n k t)
  | 0, _, _, _, h, hV => ⟨h, hV⟩
  | n + 1, k, s, t, h, hV => (hf k s t h hV).andThen fun _ _ => twins_forUp hf n (k + 1)

theorem twins_forEach {α : Type} {f g : α → State → Run}
    (hf : ∀ x s t, Twin e s t → V s.work t.work → (f x s).Twins e V (g x t)) :
    ∀ (xs : List α) {s t : State}, Twin e s t → V s.work t.work → (forEach f xs s).Twins e V (forEach g xs t)
  | [], _, _, h, hV => ⟨h, hV⟩
  | x :: xs, s, t, h, hV => (hf x s t h hV).andThen fun _ _ => twins_forEach hf xs

theorem twins_dstWrite (i : Nat) (v : Byte) (h : Twin e s t) (hV : V s.work t.work) :
    (dstWrite i v s).Twins e V (dstWrite i v t) :=
  twins_ite (by rw [h.params]) ⟨rfl, h⟩ ⟨(h.updMems _).updRegs _, hV⟩

theorem twins_bitWrite (i : Nat) (v : Bool) (h : Twin e s t) (hV : V s.work t.work) :
    (bitWrite i v s).Twins e V (bitWrite i v t) :=
  twins_ite (by rw [h.params]) ⟨rfl, h⟩ ⟨(h.updMems _).updRegs _, hV⟩

/-- The same Byte, emitted in both at the same `DI`, under a relation that bears counting `DI` up. -/
theorem twins_emitByte (v : Byte) (hdi : ∀ w w', V w w' → w.di = w'.di)
    (hnext : ∀ w w', V w w' → V { w with di := w.di + 1 } { w' with di := w'.di + 1 }) (h : Twin e s t)
    (hV : V s.work t.work) : (emitByte v s).Twins e V (emitByte v t) := by
  unfold emitByte
  rw [hdi _ _ hV]
  exact (twins_dstWrite _ v h hV).andThen fun s t h hV => ⟨h.updWork _, hnext _ _ hV⟩

/-! ### PACK -/

/-- The same contents of the working registers that PACK's loop reads. -/
structure PackAlike (w w' : Work) : Prop where
  nb : w.nb = w'.nb
  di : w.di = w'.di
  sh : w.sh = w'.sh
  bc : w.bc = w'.bc

theorem twins_packEmit (v : Byte) (h : Twin e s t) (hV : PackAlike s.work t.work) :
    (emitByte v s).Twins e PackAlike (emitByte v t) :=
  twins_emitByte v (fun _ _ g => g.di) (fun _ _ g => { g with di := congrArg (· + 1) g.di }) h hV

theorem twins_packBit (k : Nat) (s t : State) (h : Twin e s t) (hV : PackAlike s.work t.work) :
    (packBit k s).Twins e PackAlike (packBit k t) := by
  have hx : (if k < s.work.nb then bitRead s k else false) = if k < t.work.nb then bitRead t k else false := by
    rw [h.bitRead, hV.nb]
  unfold packBit
  rw [hx]
  generalize (if k < t.work.nb then bitRead t k else false) = x
  dsimp only
  have hsh : shiftIn s.work.sh x = shiftIn t.work.sh x := congrArg (shiftIn · x) hV.sh
  have hu : Twin e (s.updWork fun w => { w with bi := k, sh := shiftIn w.sh x, bc := w.bc + 1 })
      (t.updWork fun w => { w with bi := k, sh := shiftIn w.sh x, bc := w.bc + 1 }) := h.updWork _
  have hVu : PackAlike { s.work with bi := k, sh := shiftIn s.work.sh x, bc := s.work.bc + 1 }
      { t.work with bi := k, sh := shiftIn t.work.sh x, bc := t.work.bc + 1 } :=
    ⟨hV.nb, hV.di, hsh, congrArg (· + 1) hV.bc⟩
  refine twins_ite (by rw [hV.bc]) ?_ ⟨hu, hVu⟩
  rw [hsh]
  exact (twins_packEmit _ hu hVu).andThen fun _ _ h g => ⟨h.updWork _, { g with sh := rfl, bc := rfl }⟩

theorem twins_packBody (h : Twin e s t) : (packBody s).Twins e AnyWork (packBody t) := by
  have hpad := (h.updWork fun w => { w with nb := t.regs.bitLen }).updRegs
    fun r => { r with pad := BitVec.ofNat 8 (padOf t.regs.bitLen) }
  refine twins_check (by rw [h.params, h.regs]) _ h ?_
  dsimp only
  rw [h.regs]
  refine (twins_dstWrite (V := fun w w' => w.nb = w'.nb) 0 _ hpad rfl).andThen fun s t h hnb => ?_
  exact (twins_forUp twins_packBit _ 0 (h.updWork _) ⟨hnb, rfl, rfl, rfl⟩).mono fun _ _ _ => trivial

/-! ### UNPACK -/

/-- The same contents of the working registers that UNPACK's outer loop reads. -/
structure UnpackAlike (w w' : Work) : Prop where
  nb : w.nb = w'.nb
  bi : w.bi = w'.bi

/-- Those that its inner loop reads. -/
structure UnpackBitAlike (w w' : Work) : Prop extends UnpackAlike w w' where
  sh : w.sh = w'.sh

theorem twins_unpackBit (k : Nat) (s t : State) (h : Twin e s t) (hV : UnpackBitAlike s.work t.work) :
    (unpackBit k s).Twins e UnpackBitAlike (unpackBit k t) := by
  unfold unpackBit
  refine twins_ite (by rw [hV.bi, hV.nb]) ?_ ⟨h, hV⟩
  rw [hV.bi, hV.sh]
  exact (twins_bitWrite _ _ h hV).andThen fun _ _ h g => ⟨h.updWork _, { g with bi := congrArg (· + 1) g.bi }⟩

theorem twins_unpackByte (i : Nat) (s t : State) (h : Twin e s t) (hV : UnpackAlike s.work t.work) :
    (unpackByte i s).Twins e UnpackAlike (unpackByte i t) := by
  unfold unpackByte
  rw [h.srcRead]
  exact (twins_forEach twins_unpackBit _ (h.updWork _) ⟨⟨hV.nb, hV.bi⟩, rfl⟩).mono
    fun _ _ g => g.toUnpackAlike

theorem twins_unpackPhase (h : Twin e s t) : (unpackPhase s).Twins e AnyWork (unpackPhase t) := by
  have hpad := h.updRegs fun r => { r with pad := srcRead t 0 }
  refine twins_check (by rw [h.regs]) _ h ?_
  dsimp only
  rw [h.srcRead]
  refine twins_check (by rw [h.regs]) _ hpad ?_
  rw [hpad.regs]
  exact (twins_forUp twins_unpackByte _ 1 (hpad.updWork _) ⟨rfl, rfl⟩).mono fun _ _ _ => trivial

theorem twins_unpackBody (h : Twin e s t) : (unpackBody s).Twins e AnyWork (unpackBody t) :=
  twins_check (by rw [h.params, h.regs]) _ h (twins_unpackPhase h)

/-! ### The walk -/

/-- The same contents of the working registers that the walk reads. -/
structure WalkAlike (w w' : Work) : Prop where
  di : w.di = w'.di
  node : w.node = w'.node

theorem twins_walkBit (codes : List (Byte × Bits)) (k : Nat) (s t : State) (h : Twin e s t)
    (hV : WalkAlike s.work t.work) : (walkBit codes k s).Twins e WalkAlike (walkBit codes k t) := by
  have hu := h.updWork fun w => { w with bi := k }
  have hVu : WalkAlike { s.work with bi := k } { t.work with bi := k } := ⟨hV.di, hV.node⟩
  unfold walkBit
  dsimp only
  rw [h.bitRead, hV.node]
  split
  · refine (twins_emitByte (V := WalkAlike) _ (fun _ _ g => g.di)
      (fun _ _ g => { g with di := congrArg (· + 1) g.di }) hu hVu).andThen fun _ _ h g => ?_
    exact ⟨h.updWork _, { g with node := rfl }⟩
  · exact ⟨hu.updWork _, { hVu with node := congrArg (· ++ [bitRead t k]) hV.node }⟩
  · exact ⟨rfl, hu⟩

theorem twins_treeWalk (codes : List (Byte × Bits)) (h : Twin e s t) (hdi : s.work.di = t.work.di) :
    (treeWalk codes s).Twins e AnyWork (treeWalk codes t) := by
  unfold treeWalk
  rw [h.regs]
  exact (twins_forUp (twins_walkBit codes) _ 0 (h.updWork _) ⟨hdi, rfl⟩).andThen fun _ _ h g =>
    twins_raiseIf (by rw [g.node]) _ h trivial

/-- The same `DI`, all that a loop of `emitByte` reads. -/
def DiAlike (w w' : Work) : Prop := w.di = w'.di

theorem twins_emitMany (v : Byte) (n k : Nat) (h : Twin e s t) (hdi : DiAlike s.work t.work) :
    (forUp (fun _ => emitByte v) n k s).Twins e DiAlike (forUp (fun _ => emitByte v) n k t) :=
  twins_forUp (fun _ _ _ => twins_emitByte v (fun _ _ g => g) fun _ _ g => congrArg (· + 1) g) n k h hdi

theorem twins_degenerateWalk (b : Byte) (h : Twin e s t) (hdi : DiAlike s.work t.work) :
    (degenerateWalk b s).Twins e AnyWork (degenerateWalk b t) := by
  refine twins_check (by rw [h.regs]) _ h ?_
  rw [h.regs]
  exact (twins_emitMany b _ 1 h hdi).mono fun _ _ _ => trivial

theorem twins_walk (h : Twin e s t) : (walk s).Twins e AnyWork (walk t) := by
  have hstart := h.updWork fun w => { w with di := 0 }
  unfold walk
  dsimp only
  rw [h.mems]
  split
  · exact twins_degenerateWalk _ hstart rfl
  · exact twins_treeWalk _ hstart rfl

theorem twins_hwalkBody (h : Twin e s t) : (hwalkBody s).Twins e AnyWork (hwalkBody t) :=
  twins_check (by rw [h.params, h.regs]) _ h (twins_check (by rw [h.mems]) _ h (twins_walk h))

theorem twins_hdecBody (h : Twin e s t) : (hdecBody s).Twins e AnyWork (hdecBody t) :=
  twins_check (by rw [h.params, h.regs]) _ h <| twins_check (by rw [h.mems]) _ h <|
    (twins_unpackPhase h).andThen fun _ _ h _ => twins_walk h

/-! ### RLED -/

theorem twins_rlePair (k : Nat) (s t : State) (h : Twin e s t) (hdi : DiAlike s.work t.work) :
    (rlePair k s).Twins e DiAlike (rlePair k t) := by
  unfold rlePair
  rw [h.srcRead]
  exact twins_emitMany _ _ 1 (h.updWork _) hdi

theorem twins_rledBody (h : Twin e s t) : (rledBody s).Twins e AnyWork (rledBody t) := by
  have hstart := h.updWork fun w => { w with di := 0 }
  refine twins_check (by rw [h.params, h.regs]) _ h (twins_check (by rw [h.regs]) _ h ?_)
  rw [h.regs]
  exact (twins_forUp twins_rlePair _ 0 hstart rfl).mono fun _ _ _ => trivial

/-! ### A whole command -/

/-- No body reads a working register before it has set it, and none reads the host (R25). -/
theorem twins_body (i : Instr) (h : Twin e s t) : (body i s).Twins e AnyWork (body i t) := by
  cases i with
  | pack => exact twins_packBody h
  | unpack => exact twins_unpackBody h
  | hwalk => exact twins_hwalkBody h
  | hdec => exact twins_hdecBody h
  | rled => exact twins_rledBody h

theorem Twin.latchWord (h : Twin e s t) (w : BitVec 8) : Twin e (latchWord w s) (latchWord w t) := by
  unfold Machine.latchWord
  exact h.updRegs _

theorem Twin.clearSet (h : Twin e s t) (i : Instr) : Twin e (clearSet i s) (clearSet i t) := by
  unfold Machine.clearSet
  cases i with
  | pack | hwalk | rled => exact h.updRegs _
  | unpack | hdec => exact (h.updRegs _).updMems _

theorem Twin.startCommand (h : Twin e s t) (i : Instr) : Twin e (startCommand i s) (startCommand i t) :=
  (h.latchWord _).clearSet i

theorem Twin.sourceCount (h : Twin e s t) (i : Instr) : sourceCount i s = sourceCount i t := by
  cases i <;> simp only [Machine.sourceCount, h.regs]

theorem Twin.succeed (h : Twin e s t) (n : Nat) : Twin e (succeed n s) (succeed n t) :=
  { h with
    regs := congrArg (fun r : Regs => { r with status := statusOk, progress := n }) h.regs
    draws := congrArg (· + 1) h.draws }

theorem Twin.takeFault (h : Twin e s t) (c : Cause) (n : Nat) : Twin e (takeFault c n s) (takeFault c n t) :=
  { h with
    regs := by simp only [Machine.takeFault, h.regs, h.draws]
    draws := congrArg (· + 1) h.draws }

theorem Run.Twins.settle {r q : Run} (h : r.Twins e V q) (n : Nat) : Twin e (settle n r) (settle n q) := by
  cases r <;> cases q
  case done.done =>
    obtain ⟨h, -⟩ := h
    exact h.succeed n
  case raised.raised =>
    obtain ⟨rfl, h⟩ := h
    exact h.takeFault _ n
  all_goals exact h.elim

theorem Twin.finishCommand (h : Twin e s t) (i : Instr) : Twin e (finishCommand i s) (finishCommand i t) := by
  unfold Machine.finishCommand
  rw [h.sourceCount]
  exact (twins_body i h).settle _

end
/-- Settles O47: a command's outcome does not depend on the working registers it starts with (`twins_body`). -/
theorem workingRegistersCarryNothing : Obligations.WorkingRegistersCarryNothing := by
  intro i s w
  have hstart : Twin False s { s with work := w } := ⟨rfl, rfl, rfl, rfl, False.elim⟩
  have hend := (hstart.startCommand i).finishCommand i
  exact ⟨_, _, exec_eq_finish i s, exec_eq_finish i _, hend.regs, hend.mems⟩

end Sys2Proof.Machine

/-! ## The start and the end of a command -/

namespace Sys2Proof.Machine

/-! ### The start -/

/-- Going stale takes no bit away (R29: "Memory contents are not cleared"). -/
theorem bit_read_markStale (m : Memory BitCell) (a : Nat) :
    (Memory.read (markStale m) a).map BitCell.bit = (Memory.read m a).map BitCell.bit := by
  rw [read_markStale, Option.map_map]
  rfl

theorem bit_read_startCommand (i : Instr) (s : State) (a : Nat) :
    (Memory.read (startCommand i s).mems.bbuf a).map BitCell.bit =
      (Memory.read s.mems.bbuf a).map BitCell.bit := by
  cases i with
  | pack | hwalk | rled => rfl
  | unpack | hdec => exact bit_read_markStale _ a

/-- `DST_LEN` is in every cleared set but UNPACK's (R29). -/
theorem dstLen_startCommand (i : Instr) (s : State) :
    (startCommand i s).regs.dstLen = if i = .unpack then s.regs.dstLen else 0 := by
  cases i <;> rfl

/-- `BIT_LEN` is in the cleared sets of UNPACK and HDEC (R29). -/
theorem bitLen_startCommand (i : Instr) (s : State) :
    (startCommand i s).regs.bitLen = if i = .unpack ∨ i = .hdec then 0 else s.regs.bitLen := by
  cases i <;> rfl

/-- `PAD` is in every cleared set but those of HWALK and RLED (R29). -/
theorem pad_startCommand (i : Instr) (s : State) :
    (startCommand i s).regs.pad = if i = .hwalk ∨ i = .rled then s.regs.pad else 0#8 := by
  cases i <;> rfl

theorem step_of_start {s : State} {v n : Nat} {es : List Event} {i : Instr} (hb : s.busy = false)
    (he : s.host.events = .hwr 0 v :: es) (hn : busyFor s = n + 1) (hd : decode (BitVec.ofNat 8 v) = .command i) :
    step s = .next (startCommand i (forgetProgress (popEvent s))) := by
  simp only [step, hb, he, startWord, hd, busyFor_popEvent, hn, Bool.false_eq_true, if_false]

theorem step_of_command {s : State} {v : Nat} {es : List Event} {i : Instr} (hb : s.busy = false)
    (he : s.host.events = .hwr 0 v :: es) (h0 : busyFor s = 0) (hd : decode (BitVec.ofNat 8 v) = .command i) :
    step s = exec i (popBusy (popEvent s)) := by
  simp only [step, hb, he, startWord, hd, busyFor_popEvent, h0, Bool.false_eq_true, if_false]

/-- Settles O10: a field of the start at a time, and the step that starts a command. -/
theorem commandStartClearsItsSet : Obligations.CommandStartClearsItsSet := by
  refine ⟨fun i s => ⟨exec_eq_finish i s, ?_⟩, fun s v n es i hb he hn hd => ?_⟩
  · exact ⟨cmd_startCommand i s, status_startCommand i s, errcode_startCommand i s, progress_startCommand i s,
      dstLen_startCommand i s, bitLen_startCommand i s, pad_startCommand i s, srcLen_startCommand i s,
      nsym_startCommand i s, src_startCommand i s, dst_startCommand i s, ct_startCommand i s,
      bit_read_startCommand i s, work_startCommand i s, params_startCommand i s⟩
  · rw [step_of_start hb he hn hd]
    simp only [forgetProgress, popEvent, State.updHost, he, List.tail_cons]

/-! ### The end -/

theorem busy_of_status {s : State} {w : BitVec 8} {b : Bool} (h : s.regs.status = w) (hw : w.getLsbD 0 = b) :
    s.busy = b := by
  rw [State.busy, h, hw]

theorem busy_takeFault (c : Cause) (n : Nat) (s : State) : (takeFault c n s).busy = false :=
  busy_of_status (w := statusFault) rfl (by decide)

/-- Both completions clear BUSY (R30, R193). -/
theorem busy_settle (n : Nat) (r : Run) : (settle n r).busy = false := by
  cases r with
  | done s => exact busy_of_status (w := statusOk) rfl (by decide)
  | raised c s => exact busy_takeFault c n s

theorem busy_finishCommand (i : Instr) (s : State) : (finishCommand i s).busy = false := busy_settle _ _

@[simp] theorem host_settle (n : Nat) (r : Run) : (settle n r).host = r.state.host := by
  cases r <;> rfl

@[simp] theorem cmd_settle (n : Nat) (r : Run) : (settle n r).regs.cmd = r.state.regs.cmd := by
  cases r <;> rfl

@[simp] theorem host_finishCommand (i : Instr) (s : State) : (finishCommand i s).host = s.host := by
  rw [finishCommand, host_settle]
  exact (keeps_body i s).state.host

@[simp] theorem cmd_finishCommand (i : Instr) (s : State) : (finishCommand i s).regs.cmd = s.regs.cmd := by
  rw [finishCommand, cmd_settle]
  exact (keeps_body i s).state.cmd

/-- The two completions: success (R30), or a fault with its cause (R193). `n` is the number of source elements. -/
def Completed (n : Nat) (r : Regs) : Prop :=
  (r.status = statusOk ∧ r.errcode = 0#8 ∧ r.progress = n) ∨
    (r.status = statusFault ∧ 1 ≤ r.errcode.toNat ∧ r.errcode.toNat ≤ 7 ∧ r.progress ≤ n)

theorem completed_settle (n : Nat) (r : Run) (he : r.state.regs.errcode = 0#8) : Completed n (settle n r).regs := by
  cases r with
  | done s => exact .inl ⟨rfl, he, rfl⟩
  | raised c s =>
    obtain ⟨hmin, hmax⟩ := code_range c
    exact .inr ⟨rfl, hmin, hmax, Nat.le_of_lt_succ (Nat.mod_lt _ (Nat.zero_lt_succ n))⟩

theorem completed_finishCommand (i : Instr) (s : State) (he : s.regs.errcode = 0#8) :
    Completed (sourceCount i s) (finishCommand i s).regs :=
  completed_settle _ _ ((keeps_body i s).state.errcode.trans he)

/-- No cleared set holds the register that counts the command's source elements (R19, R29). -/
theorem sourceCount_startCommand (i : Instr) (s : State) :
    sourceCount i (startCommand i s) = if i = .pack ∨ i = .hwalk then s.regs.bitLen else s.regs.srcLen := by
  cases i <;> rfl

/-- Settles O44: every command is its completion, and both completions are as the statement says. -/
theorem everyCommandCompletes : Obligations.EveryCommandCompletes := by
  intro i s
  refine ⟨_, exec_eq_finish i s, busy_finishCommand i _, ?_, ?_⟩
  · rw [cmd_finishCommand, cmd_startCommand]
  · rw [← sourceCount_startCommand]
    exact completed_finishCommand i _ (errcode_startCommand i s)

/-! ## When BUSY changes (O51) -/

theorem sameBlock.busy_eq {s t : State} (h : sameBlock s t) : t.busy = s.busy := by
  obtain ⟨-, hr, -⟩ := h
  rw [State.busy, State.busy, hr]

theorem busy_writeReg (r v : Nat) (s : State) : (writeReg r v s).busy = s.busy := by
  unfold writeReg
  split <;> rfl

theorem busy_writeSrc (i : Nat) (v : Byte) (s : State) : (writeSrc i v s).busy = s.busy := by
  unfold writeSrc
  split <;> rfl

theorem busy_writeBbuf (i : Nat) (v : Bool) (s : State) : (writeBbuf i v s).busy = s.busy := by
  unfold writeBbuf
  split <;> rfl

theorem busy_writeCt (i : Nat) (e : CtEntry) (s : State) : (writeCt i e s).busy = s.busy := by
  unfold writeCt
  split <;> rfl

/-- No event but a write of `CMD` sets BUSY, and that one is no `idleEvent`. -/
theorem busy_idleEvent (e : Event) {s : State} (hb : s.busy = false) : (idleEvent e s).busy = false := by
  cases e with
  | hwr r v => exact (busy_writeReg r v s).trans hb
  | mwrSrc i v => exact (busy_writeSrc i v s).trans hb
  | mwrBbuf i v => exact (busy_writeBbuf i v s).trans hb
  | mwrCt i e => exact (busy_writeCt i e s).trans hb
  | hrd | mrd | mwrDst | wait => exact hb
  | reset => exact busy_of_status (w := 0x00#8) rfl (by decide)

/-- Only a reset ends a command in a turn of the host (R146, R221). -/
theorem reset_of_idle_busyTurn {s : State} (hb : s.busy = true) (ht : (busyTurn s).busy = false) :
    s.host.events.head? = some .reset := by
  by_contra hne
  rw [(sameBlock_busyTurn hne).busy_eq] at ht
  exact ne_true_of_eq_false ht hb

/-- Settles O51, by the cases of one step: only a start sets BUSY; only a completion and a reset clear it. -/
theorem busyOnlyByCommandStart : Obligations.BusyOnlyByCommandStart := by
  refine fun s t h => ⟨fun hs ht => ?_, fun hs ht => ?_⟩
  · cases moves_of_step h with
    | complete hb | turn hb => exact absurd hb (ne_true_of_eq_false hs)
    | still => exact absurd ht (ne_true_of_eq_false hs)
    | reserved => exact absurd ht (ne_true_of_eq_false (busy_takeFault _ _ _))
    | command => exact absurd ht (ne_true_of_eq_false (busy_finishCommand _ _))
    | start v es i hb he hd => exact ⟨v, es, i, he, hd, cmd_startCommand i _⟩
    | event e => exact absurd ht (ne_true_of_eq_false (busy_idleEvent e (s := popEvent s) hs))
  · cases moves_of_step h with
    | complete => exact .inl rfl
    | turn => exact .inr (List.head?_eq_some_iff.1 (reset_of_idle_busyTurn hs ht))
    | still hb | reserved _ _ _ hb | command _ _ _ hb | start _ _ _ hb | event _ _ hb =>
      exact absurd hs (ne_true_of_eq_false hb)

/-! ## An idle block (O3, O8, O13) -/

theorem step_of_still {s : State} (hb : s.busy = false) (he : s.host.events = []) : step s = .next s := by
  simp only [step, hb, he, Bool.false_eq_true, if_false]

theorem step_of_event {s : State} {e : Event} {es : List Event} (hb : s.busy = false) (he : s.host.events = e :: es)
    (hne : ∀ v, e ≠ .hwr 0 v) : step s = .next (idleEvent e (popEvent s)) := by
  simp only [step, hb, he, Bool.false_eq_true, if_false]

theorem sameBlock_popEvent (s : State) : sameBlock s (popEvent s) := ⟨rfl, rfl, rfl, rfl, rfl⟩

/-- A reserved register reads as 0 (R20). -/
theorem readReg_reserved {r : Nat} (h : 9 ≤ r) (s : State) : readReg r s = 0 := by
  unfold readReg
  split
  case h_10 => rfl
  all_goals omega

/-- A write reaches only the three registers that a host sets (R20, R142). -/
theorem writeReg_of_other {r : Nat} (h3 : r ≠ 3) (h5 : r ≠ 5) (h6 : r ≠ 6) (v : Nat) (s : State) :
    writeReg r v s = s := by
  unfold writeReg
  split
  case h_4 => rfl
  all_goals contradiction

/-- Settles O8: the branch of `step` for an idle block with an empty plan. -/
theorem idleBlockStandsStill : Obligations.IdleBlockStandsStill :=
  fun _ => step_of_still

/-- Settles O3: `State.reset` field by field, and its step by `step_of_still`. -/
theorem resetLeavesEmptyIdleBlock : Obligations.ResetLeavesEmptyIdleBlock := by
  have hidle : State.reset.busy = false := busy_of_status (w := 0x00#8) rfl (by decide)
  exact ⟨rfl, rfl, rfl, rfl, rfl, rfl, rfl, rfl, rfl, fun _ => rfl, fun _ => ⟨rfl, rfl, rfl⟩, hidle,
    step_of_still hidle rfl⟩

/-- Settles O13: the step is the event's, and the event reads 0 or writes nothing. -/
theorem reservedAndReadOnlyRegisters : Obligations.ReservedAndReadOnlyRegisters := by
  refine ⟨fun s r es hb hr he => ?_, fun s r v es hb hr he => ?_⟩
  · refine ⟨_, step_of_event hb he (by simp), (sameBlock_popEvent s).trans (sameBlock_note _ _), ?_⟩
    rw [idleEvent, readReg_reserved hr]
    rfl
  · refine ⟨_, step_of_event hb he ?_, ?_⟩
    · rintro _ ⟨⟩
      omega
    · rw [idleEvent, writeReg_of_other (by omega) (by omega) (by omega)]
      exact ⟨sameBlock_popEvent s, rfl⟩

/-! ## A command held busy (O17) -/

section
variable {s t : State}

theorem busyFor_of_cons {n : Nat} {ts : List Nat} (h : s.host.busyTime = n :: ts) : busyFor s = n := by
  rw [busyFor, h, List.headD_cons]

theorem step_of_turn (hb : s.busy = true) (h0 : busyFor s ≠ 0) : step s = .next (busyTurn s) := by
  obtain ⟨n, hn⟩ := Nat.exists_eq_succ_of_ne_zero h0
  simp only [step, hb, hn, if_true]

theorem step_of_complete (hb : s.busy = true) (h0 : busyFor s = 0) : step s = .next (finishRunning (popBusy s)) := by
  simp only [step, hb, h0, if_true]

theorem run_zero (s : State) : Host.Core.run core 0 s = .next s := rfl

/-- A run is a step and the rest of the run. -/
theorem run_of_step {k : Nat} (h : step s = .next t) : Host.Core.run core (k + 1) s = Host.Core.run core k t := by
  have hstep : core.step s = .next t := h
  simp only [Host.Core.run, hstep]

theorem busyTime_busyReadReg (r : Nat) (s : State) : (busyReadReg r s).host.busyTime = s.host.busyTime := by
  unfold busyReadReg
  split <;> rfl

theorem events_busyReadReg (r : Nat) (s : State) : (busyReadReg r s).host.events = s.host.events := by
  unfold busyReadReg
  split <;> rfl

theorem busyTime_busyEvent {e : Event} (he : e ≠ .reset) (s : State) :
    (busyEvent e s).host.busyTime = s.host.busyTime := by
  cases e with
  | hrd r => exact busyTime_busyReadReg r s
  | hwr | mrd | mwrSrc | mwrDst | mwrBbuf | mwrCt | wait => rfl
  | reset => exact absurd rfl he

/-- A busy turn plans no new event, but for a `wait` that goes on (R147). -/
theorem events_busyEvent (e : Event) (s : State) :
    (busyEvent e s).host.events = s.host.events ∨ (busyEvent e s).host.events = .wait :: s.host.events := by
  cases e with
  | hrd r => exact .inl (events_busyReadReg r s)
  | hwr | mrd | mwrSrc | mwrDst | mwrBbuf | mwrCt | reset => exact .inl rfl
  | wait => exact .inr rfl

/-- A turn of the host uses up one of the command's turns. -/
theorem busyTime_busyTurn {n : Nat} {ts : List Nat} (hn : s.host.busyTime = (n + 1) :: ts)
    (hr : s.host.events.head? ≠ some .reset) : (busyTurn s).host.busyTime = n :: ts := by
  have htick : (tickBusy s).host.busyTime = n :: ts := by simp [tickBusy, hn]
  unfold busyTurn
  split
  case h_1 => exact htick
  case h_2 e es he =>
    rw [busyTime_busyEvent]
    · exact htick
    · rintro rfl
      exact hr (by rw [he, List.head?_cons])

theorem head?_ne_reset {n : Nat} {es : List Event} (h : Event.reset ∉ es.take (n + 1)) : es.head? ≠ some .reset := by
  intro hhead
  obtain ⟨es', rfl⟩ := List.head?_eq_some_iff.1 hhead
  exact h List.mem_cons_self

/-- A `wait` that goes on pushes the plan back by one turn, and is no reset. -/
theorem reset_notMem_wait {n : Nat} {es : List Event} (h : Event.reset ∉ es.take n) :
    Event.reset ∉ (Event.wait :: es).take n := by
  cases n with
  | zero => exact h
  | succ n =>
    rw [List.take_succ_cons, List.mem_cons, not_or]
    exact ⟨Event.noConfusion, fun hm => h (List.take_subset_take_left es (Nat.le_succ n) hm)⟩

/-- With no reset planned for this turn and the next `n`, none is planned for the next `n` after it. -/
theorem reset_notMem_busyTurn {n : Nat} (h : Event.reset ∉ s.host.events.take (n + 1)) :
    Event.reset ∉ (busyTurn s).host.events.take n := by
  unfold busyTurn
  split
  case h_1 he => simp [tickBusy, he]
  case h_2 e es he =>
    rw [he, List.take_succ_cons, List.mem_cons, not_or] at h
    obtain ⟨-, h⟩ := h
    have hpop : (tickBusy (popEvent s)).host.events = es := by simp [tickBusy, popEvent, he]
    rcases events_busyEvent e (tickBusy (popEvent s)) with hev | hev
    · rw [hev, hpop]
      exact h
    · rw [hev, hpop]
      exact reset_notMem_wait h

/-- A running command with `n` turns left, none of them a reset, ends as it would at once (R31, R146). -/
theorem run_held {ts : List Nat} : ∀ (n : Nat) {s : State}, s.busy = true → s.host.busyTime = n :: ts →
    Event.reset ∉ s.host.events.take n →
    ∃ t, sameBlock s t ∧ t.host.busyTime = ts ∧ Host.Core.run core (n + 1) s = .next (finishRunning t)
  | 0, s, hb, hn, _ => by
    refine ⟨popBusy s, ⟨rfl, rfl, rfl, rfl, rfl⟩, by rw [popBusy, updHost_host, hn, List.tail_cons], ?_⟩
    rw [run_of_step (step_of_complete hb (busyFor_of_cons hn)), run_zero]
  | n + 1, s, hb, hn, hr => by
    have hhead := head?_ne_reset hr
    have hsame := sameBlock_busyTurn hhead
    obtain ⟨t, hst, htime, hrun⟩ := run_held n (hsame.busy_eq.trans hb) (busyTime_busyTurn hn hhead)
      (reset_notMem_busyTurn hr)
    refine ⟨t, hsame.trans hst, htime, ?_⟩
    rw [run_of_step (step_of_turn hb (busyFor_of_cons hn ▸ Nat.succ_ne_zero n)), hrun]

end

/-- The end of a command depends on the block alone, not on the host (R31). -/
theorem sameBlock.finishCommand {s t : State} (h : sameBlock s t) (i : Instr) :
    sameBlock (finishCommand i s) (finishCommand i t) :=
  twin_true_iff.1 ((twin_true_iff.2 h).finishCommand i)

theorem sameBlock.startCommand {s t : State} (h : sameBlock s t) (i : Instr) :
    sameBlock (startCommand i s) (startCommand i t) :=
  twin_true_iff.1 ((twin_true_iff.2 h).startCommand i)

/-- A running command is the one that `CMD` holds. -/
theorem finishRunning_of_cmd {s : State} {i : Instr} (h : s.regs.cmd = encode i) :
    finishRunning s = finishCommand i s := by
  rw [finishRunning, h, decode_encode]

/-- Settles O17. With no turns, one step runs the command; with more, `run_held` brings the started command to its end,
and the same block at the start of a body gives the same block at its end (`Twin.finishCommand`). -/
theorem heldCommandEndsAsAtomic : Obligations.HeldCommandEndsAsAtomic := by
  intro s v n es ts i hb he hn hd hr
  cases n with
  | zero =>
    have hsame : sameBlock s (popBusy (popEvent s)) := ⟨rfl, rfl, rfl, rfl, rfl⟩
    refine ⟨_, _, ?_, exec_eq_finish i s, (hsame.startCommand i).finishCommand i, ?_⟩
    · rw [if_pos rfl, run_of_step ((step_of_command hb he (busyFor_of_cons hn) hd).trans (exec_eq_finish i _)),
        run_zero]
    · rw [host_finishCommand, host_startCommand]
      rw [popBusy, popEvent, updHost_host, updHost_host, hn, List.tail_cons]
  | succ n =>
    have hsame : sameBlock s (forgetProgress (popEvent s)) := ⟨rfl, rfl, rfl, rfl, rfl⟩
    have hstart := hsame.startCommand i
    have hbusy : (startCommand i (forgetProgress (popEvent s))).busy = true :=
      busy_of_status (status_startCommand i _) (by decide)
    obtain ⟨t, hst, htime, hrun⟩ := run_held (ts := ts) (n + 1) hbusy
      (by rw [host_startCommand]; exact hn)
      (by rw [host_startCommand, events_forgetProgress]; simpa [popEvent, he] using hr)
    have hcmd : t.regs.cmd = encode i := by
      obtain ⟨-, hregs, -⟩ := hst
      rw [← hregs, cmd_startCommand]
    rw [finishRunning_of_cmd hcmd] at hrun
    refine ⟨_, _, ?_, exec_eq_finish i s, (hstart.trans hst).finishCommand i, ?_⟩
    · rw [if_neg (Nat.succ_ne_zero n), run_of_step (step_of_start hb he (busyFor_of_cons hn) hd), hrun]
    · rw [host_finishCommand, htime]

end Sys2Proof.Machine

/-! # The memory family: the two writes, the capacity faults of PACK and HWALK, and what an act of the host changes

First the two writes (O19), then commands that end in a fault (O23, O31), then the acts of the host (O54). -/

/-! ## The two writes (O19) -/

namespace Sys2Proof.Machine

theorem dstWrite_of_full {i : Nat} {s : State} (h : s.params.dstCap ≤ i) (v : Byte) :
    dstWrite i v s = .raised .capacity s :=
  if_pos h

theorem dstWrite_of_room {i : Nat} {s : State} (h : i < s.params.dstCap) (v : Byte) :
    dstWrite i v s = .done ((s.updMems fun m => { m with dst := Memory.write m.dst i v }).updRegs
      fun r => { r with dstLen := i + 1 }) :=
  if_neg (Nat.not_le.2 h)

theorem bitWrite_of_full {i : Nat} {s : State} (h : s.params.bitCap ≤ i) (v : Bool) :
    bitWrite i v s = .raised .capacity s :=
  if_pos h

theorem bitWrite_of_room {i : Nat} {s : State} (h : i < s.params.bitCap) (v : Bool) :
    bitWrite i v s = .done ((s.updMems fun m => { m with bbuf := Memory.write m.bbuf i ⟨v, true⟩ }).updRegs
      fun r => { r with bitLen := i + 1 }) :=
  if_neg (Nat.not_le.2 h)

/-- Settles O19: the two branches of each write; the element by `read_write` and `liveBit_write`. -/
theorem writesStopAtCapacity : Obligations.WritesStopAtCapacity := by
  refine ⟨fun i v s => ⟨fun h => dstWrite_of_full h v, fun h => ?_⟩,
    fun i v s => ⟨fun h => bitWrite_of_full h v, fun h => ?_⟩⟩
  · exact ⟨_, dstWrite_of_room h v, rfl, rfl, rfl, rfl, fun a => read_write _ i a v⟩
  · exact ⟨_, bitWrite_of_room h v, rfl, rfl, rfl, rfl, fun a => liveBit_write _ i a v⟩

/-! ## The capacity faults (O23, O31) -/

/-- A command whose body raises completes with that fault (R193). -/
theorem finishCommand_of_raised {i : Instr} {s t : State} {c : Cause} (h : body i s = .raised c t) :
    finishCommand i s = takeFault c (sourceCount i s) t := by
  rw [finishCommand, h, settle_raised]

theorem eq_raised_of_cause {r : Run} {c : Cause} (h : r.cause = some c) : r = .raised c r.state := by
  cases r with
  | done s => cases h
  | raised d s => cases h; rfl

/-- A payload is the padding count and one Byte for every 8 bits begun (R81). -/
theorem length_packBytes_bbufBits (s : State) : (packBytes (bbufBits s)).length = 1 + (s.regs.bitLen + 7) / 8 := by
  rw [length_packBytes, length_padded, length_bbufBits, padOf]
  omega

/-- PACK with too small a DST, from a `DST_LEN` that the command start has cleared: DST is filled (R80). -/
theorem packBody_of_overflow {s : State} (h : s.regs.bitLen ≤ s.params.bitCap) (h0 : s.regs.dstLen = 0)
    (hover : s.params.dstCap < (packBytes (bbufBits s)).length) :
    ∃ t, packBody s = .raised .capacity t ∧ t.regs.dstLen = s.params.dstCap ∧
      t.regs.pad = BitVec.ofNat 8 (padOf s.regs.bitLen) ∧
      dstOut t = ((packBytes (bbufBits s)).take s.params.dstCap).map some := by
  have hspec := packBody_spec s h
  cases hr : packBody s with
  | done t =>
    rw [hr, holds_done] at hspec
    obtain ⟨-, -, hfits, -⟩ := hspec
    omega
  | raised c t =>
    rw [hr, holds_raised] at hspec
    obtain ⟨rfl, -, hnone, hsome, hkept, -⟩ := hspec
    obtain ⟨hdst, hlen⟩ : t.mems.dst = putFrom s.mems.dst 0 ((packBytes (bbufBits s)).take s.params.dstCap) ∧
        t.regs.dstLen = s.params.dstCap := by
      rcases Nat.eq_zero_or_pos s.params.dstCap with hz | hp
      · obtain ⟨hdst, hlen⟩ := hnone hz
        rw [hdst, hlen, h0, hz]
        exact ⟨rfl, rfl⟩
      · exact hsome hp
    exact ⟨t, rfl, hlen, hkept.pad, dstOut_of_dst hdst (hlen.trans (List.length_take_of_le hover.le).symm)⟩

/-- Settles O23: the check of the input length, and `packBody_of_overflow`. -/
theorem packCapacityFaults : Obligations.PackCapacityFaults := by
  intro s
  refine ⟨_, exec_eq_finish .pack s, fun hbad => ?_, fun hok hcap => ?_⟩
  · rw [finishCommand_of_raised (i := .pack) (packBody_of_bad (s := startCommand .pack s) hbad)]
    exact ⟨rfl, rfl, rfl, rfl, rfl⟩
  · rw [← length_packBytes_bbufBits] at hcap
    obtain ⟨t, hraised, hlen, hpad, hout⟩ := packBody_of_overflow (s := startCommand .pack s) hok rfl hcap
    rw [finishCommand_of_raised (i := .pack) hraised]
    exact ⟨rfl, rfl, hlen, hpad, hout⟩

/-- An ordinary walk with too small a DST, from a `DST_LEN` that the command start has cleared: DST is filled (R103). -/
theorem walk_of_overflow {s : State} (h0 : s.regs.dstLen = 0) (hd : degenerateByte (codeList s.mems.ct) = none)
    (hover : s.params.dstCap < (greedy (codeList s.mems.ct) [] (bbufBits s)).1.length) :
    ∃ t, walk s = .raised .capacity t ∧ t.regs.dstLen = s.params.dstCap ∧
      dstOut t = ((greedy (codeList s.mems.ct) [] (bbufBits s)).1.take s.params.dstCap).map some := by
  have hspec := walk_spec s h0
  simp only [walkOutcome, hd, if_pos hover] at hspec
  obtain ⟨hcause, hdst, hlen, -⟩ := hspec
  exact ⟨_, eq_raised_of_cause hcause, hlen.trans (List.length_take_of_le hover.le), dstOut_of_dst hdst hlen⟩

/-- Settles O31: the check of the input length, and `walk_of_overflow`. -/
theorem hwalkCapacityFaults : Obligations.HwalkCapacityFaults := by
  intro s
  refine ⟨_, exec_eq_finish .hwalk s, fun hbad => ?_, fun hok hpass hd hover => ?_⟩
  · rw [finishCommand_of_raised (i := .hwalk) (hwalkBody_of_bad (s := startCommand .hwalk s) hbad)]
    exact ⟨rfl, rfl, rfl, rfl⟩
  · obtain ⟨t, hraised, hlen, hout⟩ := walk_of_overflow (s := startCommand .hwalk s) rfl hd hover
    have hbody := (hwalkBody_of_ok (s := startCommand .hwalk s) hok hpass).trans hraised
    rw [finishCommand_of_raised (i := .hwalk) hbody]
    exact ⟨rfl, rfl, hlen, hout⟩

/-! ## The acts of the host (O54) -/

/-! ### A write of CMD -/

theorem wordOf_fieldsOf (w : BitVec 8) : wordOf (fieldsOf w) = w := by
  calc wordOf (fieldsOf w) = w.extractLsb' (0 + 3) 5 ++ w.extractLsb' 0 3 := rfl
    _ = w.extractLsb' 0 (5 + 3) := BitVec.extractLsb'_append_extractLsb'_eq_extractLsb' rfl
    _ = w := BitVec.extractLsb'_eq_self

/-- The table of R61 read from word to command. -/
theorem encode_of_decode {w : BitVec 8} {i : Instr} (h : decode w = .command i) : encode i = w := by
  have hw := wordOf_fieldsOf w
  unfold decode at h
  generalize fieldsOf w = f at h hw
  obtain ⟨rsv, op⟩ := f
  simp only at h
  split at h
  case isTrue => cases h
  case isFalse hrsv =>
    obtain rfl : rsv = 0#5 := not_not.1 hrsv
    rw [← hw]
    split at h <;> cases h
    all_goals
      rename_i hop
      exact congrArg (fun o => wordOf ⟨0#5, o⟩) (BitVec.eq_of_toNat_eq hop.symm)

/-- A write of `CMD` to an idle block starts a command, or a reserved word: `CMD` takes the word, and STATUS is not 0
from then on (R29, R62, R145). -/
theorem cmdWrite_spec {s : State} {v : Nat} {es : List Event} (hb : s.busy = false)
    (he : s.host.events = .hwr 0 v :: es) :
    ∃ t, step s = .next t ∧ t.regs.cmd = BitVec.ofNat 8 v ∧ t.regs.status ≠ statusNone := by
  cases hd : decode (BitVec.ofNat 8 v) with
  | reserved r =>
    refine ⟨runReserved (BitVec.ofNat 8 v) (popEvent s), ?_, rfl, show statusFault ≠ statusNone by decide⟩
    simp only [step, hb, he, startWord, hd, Bool.false_eq_true, if_false]
  | command i =>
    rw [← encode_of_decode hd]
    cases hn : busyFor s with
    | zero =>
      refine ⟨_, (step_of_command hb he hn hd).trans (exec_eq_finish i _), ?_, ?_⟩
      · rw [cmd_finishCommand, cmd_startCommand]
      · have hend := completed_finishCommand i _ (errcode_startCommand i (popBusy (popEvent s)))
        rcases hend with ⟨hs, -⟩ | ⟨hs, -⟩
        · rw [hs]; decide
        · rw [hs]; decide
    | succ n =>
      refine ⟨_, step_of_start hb he hn hd, cmd_startCommand i _, ?_⟩
      rw [status_startCommand]
      decide

/-! ### Any other act -/

/-- What an act of the host that is no write of `CMD` leaves alone (R45): all but the memories and the registers that
the host can write. -/
def HostKeeps (s t : State) : Prop :=
  t.params = s.params ∧ t.work = s.work ∧ t.draws = s.draws ∧ t.mems.dst = s.mems.dst ∧
    t.regs = { s.regs with srcLen := t.regs.srcLen, bitLen := t.regs.bitLen, nsym := t.regs.nsym }

theorem sameBlock.hostKeeps {s t : State} (h : sameBlock s t) : HostKeeps s t := by
  obtain ⟨hp, hr, hm, hw, hd⟩ := h
  exact ⟨hp.symm, hw.symm, hd.symm, hm ▸ rfl, hr ▸ rfl⟩

theorem hostKeeps_writeReg (r v : Nat) (s : State) : HostKeeps s (writeReg r v s) := by
  unfold writeReg
  split <;> exact ⟨rfl, rfl, rfl, rfl, rfl⟩

theorem hostKeeps_writeSrc (i : Nat) (v : Byte) (s : State) : HostKeeps s (writeSrc i v s) := by
  unfold writeSrc
  split <;> exact ⟨rfl, rfl, rfl, rfl, rfl⟩

theorem hostKeeps_writeBbuf (i : Nat) (v : Bool) (s : State) : HostKeeps s (writeBbuf i v s) := by
  unfold writeBbuf
  split <;> exact ⟨rfl, rfl, rfl, rfl, rfl⟩

theorem hostKeeps_writeCt (i : Nat) (e : CtEntry) (s : State) : HostKeeps s (writeCt i e s) := by
  unfold writeCt
  split <;> exact ⟨rfl, rfl, rfl, rfl, rfl⟩

theorem hostKeeps_idleEvent {e : Event} (he : e ≠ .reset) (s : State) : HostKeeps s (idleEvent e s) := by
  cases e with
  | hwr r v => exact hostKeeps_writeReg r v s
  | mwrSrc i v => exact hostKeeps_writeSrc i v s
  | mwrBbuf i v => exact hostKeeps_writeBbuf i v s
  | mwrCt i e => exact hostKeeps_writeCt i e s
  | hrd | mrd | mwrDst | wait => exact ⟨rfl, rfl, rfl, rfl, rfl⟩
  | reset => exact absurd rfl he

/-- The acts of the host that only read (R45). -/
def IsRead (e : Event) : Prop := (∃ r, e = .hrd r) ∨ (∃ m i, e = .mrd m i) ∨ e = .wait

theorem IsRead.ne_cmdWrite {e : Event} (h : IsRead e) (v : Nat) : e ≠ .hwr 0 v := by
  rcases h with ⟨r, rfl⟩ | ⟨m, i, rfl⟩ | rfl <;> exact Event.noConfusion

theorem sameBlock_idleEvent {e : Event} (h : IsRead e) (s : State) : sameBlock s (idleEvent e s) := by
  rcases h with ⟨r, rfl⟩ | ⟨m, i, rfl⟩ | rfl <;> exact sameBlock_note s _

/-- Settles O54: a busy block stays the same whatever the act (`sameBlock_busyTurn`); an idle one takes a write of `CMD`
by `cmdWrite_spec`, and any other act by `idleEvent`. -/
theorem onlyCmdWriteHasSideEffect : Obligations.OnlyCmdWriteHasSideEffect := by
  intro s e es he hturn hne
  cases hb : s.busy with
  | true =>
    have hsame : sameBlock s (busyTurn s) := sameBlock_busyTurn (by simpa [he] using hne)
    exact ⟨_, step_of_turn hb (hturn hb), fun _ => hsame, fun _ => hsame.hostKeeps,
      fun _ hidle => Bool.noConfusion hidle⟩
  | false =>
    by_cases hcmd : ∃ v, e = .hwr 0 v
    · obtain ⟨v, rfl⟩ := hcmd
      obtain ⟨t, hstep, hword, hstatus⟩ := cmdWrite_spec hb he
      refine ⟨t, hstep, fun hr => absurd rfl (IsRead.ne_cmdWrite hr v), fun hno => absurd rfl (hno v), ?_⟩
      rintro w - hw
      cases hw
      exact ⟨by simpa using hword, hstatus⟩
    · have hno : ∀ v, e ≠ .hwr 0 v := fun v hv => hcmd ⟨v, hv⟩
      have hpop := sameBlock_popEvent s
      exact ⟨_, step_of_event hb he hno, fun hr => hpop.trans (sameBlock_idleEvent hr _),
        fun _ => hostKeeps_idleEvent hne (popEvent s), fun w _ hw => absurd hw (hno w.toNat)⟩

end Sys2Proof.Machine

/-! # The encoding family: what each command writes, where it stops, and what it leaves alone

First what each body ends with, once, as a function of its inputs: a cause where it faults, and what it wrote. From that
the results (O48, O21), and the frames (O22, O25, O32, O38, O46); then the command words (O1, O2, O9). -/

/-! ## What each body ends with -/

namespace Sys2Proof.Machine

/-! ### A run and its outcome -/

/-- `r` ends with the outcome `out`: it raises the cause `out.1` or none, and leaves a state of which `P` says that
`out.2` is what it wrote. -/
def Run.Ends {β : Type} (r : Run) (out : Option Cause × β) (P : β → State → Prop) : Prop :=
  r.cause = out.1 ∧ P out.2 r.state

/-- What a run that writes `xs` at 0, 1, … up to the capacity ends with (R55, R56). -/
def fitted {α : Type} (cap : Nat) (xs : List α) : Option Cause × List α :=
  if cap < xs.length then (some .capacity, xs.take cap) else (none, xs)

section
variable {α β : Type} {r : Run} {P : β → State → Prop} {s : State}

theorem ends_raised {c : Cause} {x : β} (h : P x s) : (Run.raised c s).Ends (some c, x) P := ⟨rfl, h⟩

theorem ends_fitted {cap : Nat} {xs : List α} {P : List α → State → Prop}
    (h : r.Holds (fun t => xs.length ≤ cap ∧ P xs t)
      fun c t => c = .capacity ∧ cap < xs.length ∧ P (xs.take cap) t) : r.Ends (fitted cap xs) P := by
  unfold fitted
  cases r with
  | done t =>
    obtain ⟨hfits, ht⟩ := h
    rw [if_neg (Nat.not_lt.2 hfits)]
    exact ⟨rfl, ht⟩
  | raised c t =>
    obtain ⟨rfl, hover, ht⟩ := h
    rw [if_pos hover]
    exact ⟨rfl, ht⟩

/-- After a run that raised nothing, the next one starts from its state. -/
theorem andThen_of_cause_none (h : r.cause = none) (f : State → Run) : r.andThen f = f r.state := by
  cases r with
  | done t => rfl
  | raised c t => cases h

theorem andThen_of_cause_some {c : Cause} (h : r.cause = some c) (f : State → Run) :
    r.andThen f = .raised c r.state := by
  rw [eq_raised_of_cause h, andThen_raised, state_raised]

end

/-! ### Output buffers -/

/-- From `s` to `t` the Bytes `xs` have been written to DST at 0, 1, …, and `DST_LEN` is their number. -/
structure PutDst (s : State) (xs : List Byte) (t : State) : Prop where
  dst : t.mems.dst = putFrom s.mems.dst 0 xs
  dstLen : t.regs.dstLen = xs.length

/-- From `s` to `t` the bits `xs` have been written to BBUF at 0, 1, …, and `BIT_LEN` is their number. -/
structure PutBits (s : State) (xs : Bits) (t : State) : Prop where
  bbuf : t.mems.bbuf = putFrom s.mems.bbuf 0 (xs.map liveCell)
  bitLen : t.regs.bitLen = xs.length

theorem putDst_nil {s : State} (h : s.regs.dstLen = 0) : PutDst s [] s := ⟨rfl, h⟩

theorem putBits_nil {s : State} (h : s.regs.bitLen = 0) : PutBits s [] s := ⟨rfl, h⟩

theorem read_putFrom_above {α : Type} (m : Memory α) {xs : List α} {a : Nat} (h : xs.length ≤ a) :
    Memory.read (putFrom m 0 xs) a = Memory.read m a := by
  rw [read_putFrom, if_neg (by omega)]

section
variable {s t : State}

theorem PutDst.out {xs : List Byte} (h : PutDst s xs t) : dstOut t = xs.map some := dstOut_of_dst h.dst h.dstLen

theorem PutDst.above {xs : List Byte} (h : PutDst s xs t) {a : Nat} (ha : t.regs.dstLen ≤ a) :
    Memory.read t.mems.dst a = Memory.read s.mems.dst a := by
  rw [h.dst]
  exact read_putFrom_above _ (h.dstLen ▸ ha)

theorem PutBits.out {xs : Bits} (h : PutBits s xs t) : bitOut t = xs.map some := bitOut_of_bbuf h.bbuf h.bitLen

theorem PutBits.above {xs : Bits} (h : PutBits s xs t) {a : Nat} (ha : t.regs.bitLen ≤ a) :
    Memory.read t.mems.bbuf a = Memory.read s.mems.bbuf a := by
  rw [h.bbuf]
  exact read_putFrom_above _ (by rw [List.length_map]; exact h.bitLen ▸ ha)

end

/-! ### PACK -/

/-- The cause and the Bytes PACK ends with (R80, R81). -/
def packOutcome (p : Params) (bits : Bits) : Option Cause × List Byte :=
  if p.bitCap < bits.length then (some .capacity, []) else fitted p.dstCap (packBytes bits)

/-- The `PAD` PACK ends with: it is set once the input length is in range (R80). -/
def packPad (p : Params) (bits : Bits) : Byte :=
  if p.bitCap < bits.length then 0#8 else BitVec.ofNat 8 (padOf bits.length)

/-- How PACK's body leaves a state it started from (R63). -/
structure PackEnd (s : State) (xs : List Byte) (t : State) : Prop where
  put : PutDst s xs t
  kept : KeptButDst (s.updRegs fun r => { r with pad := packPad s.params (bbufBits s) }) t
  work : PackWork s t

/-- Everything PACK's body can do, from the registers its start has cleared. -/
theorem packBody_ends {s : State} (h0 : s.regs.dstLen = 0) (hpad : s.regs.pad = 0#8) :
    (packBody s).Ends (packOutcome s.params (bbufBits s)) (PackEnd s) := by
  unfold packOutcome
  have hlen : (bbufBits s).length = s.regs.bitLen := length_bbufBits s
  by_cases hbad : s.params.bitCap < (bbufBits s).length
  · rw [if_pos hbad, packBody_of_bad (hlen ▸ hbad)]
    have hkept : KeptButDst (s.updRegs fun r => { r with pad := packPad s.params (bbufBits s) }) s := by
      rw [packPad, if_pos hbad, ← hpad]
      exact KeptButDst.refl s
    exact ends_raised ⟨putDst_nil h0, hkept, rfl, rfl, rfl, rfl⟩
  · rw [if_neg hbad]
    have hp : packPad s.params (bbufBits s) = BitVec.ofNat 8 (padOf s.regs.bitLen) := by
      rw [packPad, if_neg hbad, hlen]
    refine ends_fitted ((packBody_spec s (by omega)).mono ?_ ?_)
    · rintro t ⟨hdst, hdl, hfits, hkept, hwork⟩
      exact ⟨hfits, ⟨hdst, hdl⟩, hp ▸ hkept, hwork⟩
    · rintro c t ⟨rfl, hover, hnone, hsome, hkept, hwork⟩
      refine ⟨rfl, hover, ?_, hp ▸ hkept, hwork⟩
      rcases Nat.eq_zero_or_pos s.params.dstCap with hz | hpos
      · obtain ⟨hdst, hdl⟩ := hnone hz
        rw [hz]
        exact ⟨hdst, hdl.trans h0⟩
      · obtain ⟨hdst, hdl⟩ := hsome hpos
        exact ⟨hdst, hdl.trans (List.length_take_of_le hover.le).symm⟩

/-! ### UNPACK -/

/-- The cause and the bits the unpack phase ends with (R83, R84). -/
def unpackOutcome (bitCap : Nat) (B : List Byte) : Option Cause × Bits :=
  if B.length = 0 then (some .emptyBuffer, [])
  else if 8 * (B.length - 1) < (B.getD 0 0#8).toNat then (some .padExceeds, [])
  else fitted bitCap (unpackBits B)

/-- How an unpacking leaves a state it started from, with `pad` in `PAD` (R63). -/
structure UnpackEnd (s : State) (pad : Byte) (xs : Bits) (t : State) : Prop where
  put : PutBits s xs t
  pad : t.regs.pad = pad
  kept : KeptButBits s t

theorem length_unpackBits (B : List Byte) :
    (unpackBits B).length = 8 * (B.length - 1) - (B.getD 0 0#8).toNat := by
  rw [unpackBits, List.length_map, List.length_range]

theorem srcBytes_getD_zero {s : State} (h : 1 ≤ s.regs.srcLen) : (srcBytes s).getD 0 0#8 = srcRead s 0 := by
  rw [List.getD_eq_getElem _ _ (by rw [length_srcBytes]; exact h), srcBytes_getElem]

theorem unpackPhase_of_empty {s : State} (h : s.regs.srcLen = 0) : unpackPhase s = .raised .emptyBuffer s := by
  rw [unpackPhase, raiseIf_pos _ (by omega), andThen_raised]

theorem unpackPhase_of_padExceeds {s : State} (hpos : 1 ≤ s.regs.srcLen)
    (h : 8 * (s.regs.srcLen - 1) < (srcRead s 0).toNat) :
    unpackPhase s = .raised .padExceeds (s.updRegs fun r => { r with pad := srcRead s 0 }) := by
  rw [unpackPhase, raiseIf_neg _ (by omega), andThen_done]
  dsimp only [updRegs_regs]
  rw [raiseIf_pos _ h, andThen_raised]

/-- Everything the unpack phase can do, from the registers the command start has cleared. -/
theorem unpackPhase_ends {s : State} (h0 : s.regs.bitLen = 0) (hpad : s.regs.pad = 0#8) :
    (unpackPhase s).Ends (unpackOutcome s.params.bitCap (srcBytes s))
      (UnpackEnd s ((srcBytes s).getD 0 0#8)) := by
  unfold unpackOutcome
  rw [length_srcBytes]
  by_cases hempty : s.regs.srcLen = 0
  · rw [if_pos hempty]
    have hfirst : (srcBytes s).getD 0 0#8 = 0#8 := by simp [srcBytes, hempty]
    rw [unpackPhase_of_empty hempty]
    exact ends_raised ⟨putBits_nil h0, hpad.trans hfirst.symm, KeptButBits.refl s⟩
  · rw [if_neg hempty]
    have hpos : 1 ≤ s.regs.srcLen := by omega
    rw [srcBytes_getD_zero hpos]
    by_cases hexc : 8 * (s.regs.srcLen - 1) < (srcRead s 0).toNat
    · rw [if_pos hexc, unpackPhase_of_padExceeds hpos hexc]
      exact ends_raised ⟨⟨rfl, h0⟩, rfl, by constructor <;> rfl⟩
    · rw [if_neg hexc]
      have hlen := length_unpackBits (srcBytes s)
      rw [length_srcBytes, srcBytes_getD_zero hpos] at hlen
      have hspec := unpackPhase_spec s h0
      rw [srcBits_eq_unpackBits s hpos] at hspec
      refine ends_fitted (hspec.mono ?_ ?_)
      · rintro t ⟨-, -, hfits, hp, hout, hkept⟩
        exact ⟨hlen ▸ hfits, ⟨hout.bbuf, hout.len⟩, hp, hkept⟩
      · rintro c t (⟨-, hz, -⟩ | ⟨-, -, hlt, -⟩ | ⟨-, -, hc, hover, hp, hout, hkept⟩)
        · omega
        · omega
        · exact ⟨hc, hlen ▸ hover, ⟨hout.bbuf, hout.len⟩, hp, hkept⟩

/-- The cause and the bits UNPACK ends with (R83). -/
def unpackBodyOutcome (p : Params) (B : List Byte) : Option Cause × Bits :=
  if p.srcCap < B.length then (some .capacity, []) else unpackOutcome p.bitCap B

/-- The `PAD` UNPACK ends with: it is set once the input length is in range (R83). -/
def unpackPad (p : Params) (B : List Byte) : Byte := if p.srcCap < B.length then 0#8 else B.getD 0 0#8

theorem unpackBody_ends {s : State} (h0 : s.regs.bitLen = 0) (hpad : s.regs.pad = 0#8) :
    (unpackBody s).Ends (unpackBodyOutcome s.params (srcBytes s))
      (UnpackEnd s (unpackPad s.params (srcBytes s))) := by
  unfold unpackBodyOutcome unpackPad
  rw [length_srcBytes]
  split
  case isTrue hbad =>
    rw [unpackBody_of_bad hbad]
    exact ends_raised ⟨putBits_nil h0, hpad, KeptButBits.refl s⟩
  case isFalse hok =>
    rw [unpackBody_of_ok (Nat.le_of_not_lt hok)]
    exact unpackPhase_ends h0 hpad

/-! ### HWALK -/

/-- The cause and the Bytes HWALK ends with (R100, R103). -/
def hwalkOutcome (p : Params) (nsym : Nat) (codes : List (Byte × Bits)) (bits : Bits) : Option Cause × List Byte :=
  if p.bitCap < bits.length then (some .capacity, [])
  else if tablePasses codes = false then (some .badTable, [])
  else walkOutcome p.dstCap nsym codes bits

/-- How HWALK's body, or the walk in it, leaves a state it started from (R63). -/
structure WalkEnd (s : State) (xs : List Byte) (t : State) : Prop where
  put : PutDst s xs t
  kept : KeptButDst s t
  work : WalkWork s t

theorem walkEnd_nil {s : State} (h0 : s.regs.dstLen = 0) : WalkEnd s [] s :=
  ⟨putDst_nil h0, KeptButDst.refl s, rfl, rfl, rfl, rfl, rfl, rfl⟩

theorem walk_ends {s : State} (h0 : s.regs.dstLen = 0) :
    (walk s).Ends (walkOutcome s.params.dstCap s.regs.nsym (codeList s.mems.ct) (bbufBits s)) (WalkEnd s) := by
  obtain ⟨hcause, hdst, hdl, hkept, hwork⟩ := walk_spec s h0
  exact ⟨hcause, ⟨hdst, hdl⟩, hkept, hwork⟩

theorem hwalkBody_ends {s : State} (h0 : s.regs.dstLen = 0) :
    (hwalkBody s).Ends (hwalkOutcome s.params s.regs.nsym (codeList s.mems.ct) (bbufBits s)) (WalkEnd s) := by
  unfold hwalkOutcome
  rw [length_bbufBits]
  split
  case isTrue hbad =>
    rw [hwalkBody_of_bad hbad]
    exact ends_raised (walkEnd_nil h0)
  case isFalse hok =>
    split
    case isTrue htable =>
      rw [hwalkBody_of_badTable (Nat.le_of_not_lt hok) htable]
      exact ends_raised (walkEnd_nil h0)
    case isFalse htable =>
      rw [hwalkBody_of_ok (Nat.le_of_not_lt hok) (Bool.eq_true_of_not_eq_false htable)]
      exact walk_ends h0

/-! ### RLED -/

/-- The cause and the Bytes RLED ends with (R130, R131). -/
def rledOutcome (p : Params) (B : List Byte) : Option Cause × List Byte :=
  if p.srcCap < B.length then (some .capacity, [])
  else if B.length % 2 = 1 then (some .oddLength, [])
  else fitted p.dstCap (rleExpand B)

/-- How RLED's body leaves a state it started from (R63). -/
structure RleEnd (s : State) (xs : List Byte) (t : State) : Prop where
  put : PutDst s xs t
  kept : KeptButDst s t
  work : RleWork s t

theorem rleEnd_nil {s : State} (h0 : s.regs.dstLen = 0) : RleEnd s [] s :=
  ⟨putDst_nil h0, KeptButDst.refl s, rfl, rfl, rfl, rfl, rfl⟩

theorem rledBody_ends {s : State} (h0 : s.regs.dstLen = 0) :
    (rledBody s).Ends (rledOutcome s.params (srcBytes s)) (RleEnd s) := by
  unfold rledOutcome
  rw [length_srcBytes]
  split
  case isTrue hbad =>
    rw [rledBody_of_bad hbad]
    exact ends_raised (rleEnd_nil h0)
  case isFalse hok =>
    have hok : s.regs.srcLen ≤ s.params.srcCap := Nat.le_of_not_lt hok
    split
    case isTrue hodd =>
      rw [rledBody_of_odd hok hodd]
      exact ends_raised (rleEnd_nil h0)
    case isFalse hodd =>
      have heven : s.regs.srcLen % 2 = 0 := by omega
      rw [rledBody_of_even hok heven]
      have hout : Out s.mems.dst [] (s.updWork fun w => { w with di := 0 }) := ⟨rfl, h0, rfl⟩
      have hstart : KeptButDst s (s.updWork fun w => { w with di := 0 }) := (KeptButDst.refl s).updWork _
      refine ends_fitted ((rledLoop_spec (s.updWork fun w => { w with di := 0 }) heven hout).mono ?_ ?_)
      · rintro t ⟨ho, hfits, hkept, hwork⟩
        exact ⟨hfits, ⟨ho.dst, ho.len⟩, hstart.trans hkept, hwork⟩
      · rintro c t ⟨rfl, hover, ho, hkept, hwork⟩
        exact ⟨rfl, hover, ⟨ho.dst, ho.len⟩, hstart.trans hkept, hwork⟩

/-! ### HDEC -/

/-- What a command leaves in DST, BBUF and `PAD`. -/
structure Output where
  dst : List Byte
  bits : Bits
  pad : Byte

/-- The cause and the output HDEC ends with (R105): a payload that does not unpack is never walked. -/
def hdecOutcome (p : Params) (nsym : Nat) (codes : List (Byte × Bits)) (B : List Byte) : Option Cause × Output :=
  if p.srcCap < B.length then (some .capacity, ⟨[], [], 0#8⟩)
  else if tablePasses codes = false then (some .badTable, ⟨[], [], 0#8⟩)
  else match unpackOutcome p.bitCap B with
    | (some c, bits) => (some c, ⟨[], bits, B.getD 0 0#8⟩)
    | (none, bits) =>
      ((walkOutcome p.dstCap nsym codes bits).1, ⟨(walkOutcome p.dstCap nsym codes bits).2, bits, B.getD 0 0#8⟩)

/-- How HDEC's body leaves a state it started from; what no body writes is `keeps_body`'s (R63). -/
structure HdecEnd (s : State) (o : Output) (t : State) : Prop where
  putDst : PutDst s o.dst t
  putBits : PutBits s o.bits t
  pad : t.regs.pad = o.pad
  work : t.work.bc = s.work.bc ∧ t.work.rv = s.work.rv ∧ t.work.rc = s.work.rc

section
variable {s t u : State} {pad : Byte} {bits : Bits} {xs : List Byte}

theorem hdecEnd_nil (hd : s.regs.dstLen = 0) (hb : s.regs.bitLen = 0) (hpad : s.regs.pad = 0#8) :
    HdecEnd s ⟨[], [], 0#8⟩ s :=
  ⟨putDst_nil hd, putBits_nil hb, hpad, rfl, rfl, rfl⟩

/-- HDEC where its unpack phase has faulted. -/
theorem UnpackEnd.hdecEnd (h : UnpackEnd s pad bits t) (h0 : s.regs.dstLen = 0) : HdecEnd s ⟨[], bits, pad⟩ t :=
  ⟨⟨h.kept.dst, h.kept.dstLen.trans h0⟩, h.put, h.pad, h.kept.bc, h.kept.rv, h.kept.rc⟩

/-- HDEC where its walk has ended. -/
theorem WalkEnd.hdecEnd (h : WalkEnd t xs u) (g : UnpackEnd s pad bits t) : HdecEnd s ⟨xs, bits, pad⟩ u := by
  obtain ⟨-, hbc, -, -, hrv, hrc⟩ := h.work
  exact ⟨⟨h.put.dst.trans (by rw [g.kept.dst]), h.put.dstLen⟩,
    ⟨h.kept.bbuf.trans g.put.bbuf, h.kept.bitLen.trans g.put.bitLen⟩, h.kept.pad.trans g.pad,
    hbc.trans g.kept.bc, hrv.trans g.kept.rv, hrc.trans g.kept.rc⟩

end

/-- Everything HDEC's body can do, from the registers its start has cleared. The walk reads the bits just unpacked
(`bbufBits_of_bbuf`). -/
theorem hdecBody_ends {s : State} (hd : s.regs.dstLen = 0) (hb : s.regs.bitLen = 0) (hpad : s.regs.pad = 0#8) :
    (hdecBody s).Ends (hdecOutcome s.params s.regs.nsym (codeList s.mems.ct) (srcBytes s)) (HdecEnd s) := by
  unfold hdecOutcome
  rw [length_srcBytes]
  split
  case isTrue hbad =>
    rw [hdecBody_of_bad hbad]
    exact ends_raised (hdecEnd_nil hd hb hpad)
  case isFalse hok =>
    split
    case isTrue htable =>
      rw [hdecBody_of_badTable (Nat.le_of_not_lt hok) htable]
      exact ends_raised (hdecEnd_nil hd hb hpad)
    case isFalse htable =>
      rw [hdecBody_of_ok (Nat.le_of_not_lt hok) (Bool.eq_true_of_not_eq_false htable)]
      obtain ⟨hcause, hend⟩ := unpackPhase_ends hb hpad
      generalize unpackOutcome s.params.bitCap (srcBytes s) = out at hcause hend
      obtain ⟨_ | c, bits⟩ := out
      case none =>
        rw [andThen_of_cause_none hcause]
        obtain ⟨hwcause, hwend⟩ := walk_ends (hend.kept.dstLen.trans hd)
        rw [bbufBits_of_bbuf hend.put.bbuf hend.put.bitLen, hend.kept.params, hend.kept.nsym, hend.kept.ct]
          at hwcause hwend
        exact ⟨hwcause, hwend.hdecEnd hend⟩
      case some =>
        rw [andThen_of_cause_some hcause]
        exact ends_raised (hend.hdecEnd hd)

end Sys2Proof.Machine

/-! ## The result depends only on the inputs (O48) -/

namespace Sys2Proof.Machine

/-! ### Completion -/

/-- The STATUS of a completion (R30, R193). -/
def statusOf : Option Cause → BitVec 8
  | none => statusOk
  | some _ => statusFault

/-- The ERRCODE of a completion (R13, R192). -/
def errcodeOf : Option Cause → BitVec 8
  | none => 0#8
  | some c => c.code

/-- The state after a completion: the cause in STATUS and ERRCODE, `p` in PROGRESS, and nothing else but the count of
commands has changed (R30, R193). -/
def completion (c : Option Cause) (p : Nat) (u : State) : State :=
  { u.updRegs (fun r => { r with status := statusOf c, errcode := errcodeOf c, progress := p }) with
    draws := u.draws + 1 }

theorem settle_eq_completion (n : Nat) {r : Run} (h : r.state.regs.errcode = 0#8) :
    ∃ p, settle n r = completion r.cause p r.state := by
  cases r with
  | done u =>
    refine ⟨n, ?_⟩
    rw [settle_done, succeed, completion, Run.cause, errcodeOf, ← h]
    rfl
  | raised c u => exact ⟨_, rfl⟩

/-- A command is its start, its body and its completion. -/
theorem eq_completion_of_exec {i : Instr} {s t : State} (h : exec i s = .next t) :
    ∃ p, t = completion (body i (startCommand i s)).cause p (body i (startCommand i s)).state := by
  rw [exec_eq_finish] at h
  cases h
  exact settle_eq_completion _ ((keeps_body i _).state.errcode.trans (errcode_startCommand i s))

/-! ### The outcome of every command -/

/-- The cause and the output each command ends with, a function of its inputs alone (`outcome_congr`). What a command
does not write is empty or 0 here, and `Shows` says nothing of it. -/
def outcome (i : Instr) (s : State) : Option Cause × Output :=
  match i with
  | .pack =>
    ((packOutcome s.params (bbufBits s)).1,
      ⟨(packOutcome s.params (bbufBits s)).2, [], packPad s.params (bbufBits s)⟩)
  | .unpack =>
    ((unpackBodyOutcome s.params (srcBytes s)).1,
      ⟨[], (unpackBodyOutcome s.params (srcBytes s)).2, unpackPad s.params (srcBytes s)⟩)
  | .hwalk =>
    ((hwalkOutcome s.params s.regs.nsym (codeList s.mems.ct) (bbufBits s)).1,
      ⟨(hwalkOutcome s.params s.regs.nsym (codeList s.mems.ct) (bbufBits s)).2, [], 0#8⟩)
  | .hdec => hdecOutcome s.params s.regs.nsym (codeList s.mems.ct) (srcBytes s)
  | .rled => ((rledOutcome s.params (srcBytes s)).1, ⟨(rledOutcome s.params (srcBytes s)).2, [], 0#8⟩)

/-- The output stands where the command writes it (R63). -/
structure Shows (i : Instr) (o : Output) (t : State) : Prop where
  dst : writesDst i = true → dstOut t = o.dst.map some
  bits : writesBbuf i = true → bitOut t = o.bits.map some
  pad : writesPad i = true → t.regs.pad = o.pad

/-- Every command ends with its outcome. -/
theorem body_ends (i : Instr) (s : State) : (body i (startCommand i s)).Ends (outcome i s) (Shows i) := by
  cases i with
  | pack =>
    obtain ⟨hcause, hend⟩ := packBody_ends (s := startCommand .pack s) rfl rfl
    exact ⟨hcause, fun _ => hend.put.out, fun hw => Bool.noConfusion hw, fun _ => hend.kept.pad⟩
  | unpack =>
    obtain ⟨hcause, hend⟩ := unpackBody_ends (s := startCommand .unpack s) rfl rfl
    exact ⟨hcause, fun hw => Bool.noConfusion hw, fun _ => hend.put.out, fun _ => hend.pad⟩
  | hwalk =>
    obtain ⟨hcause, hend⟩ := hwalkBody_ends (s := startCommand .hwalk s) rfl
    exact ⟨hcause, fun _ => hend.put.out, fun hw => Bool.noConfusion hw, fun hw => Bool.noConfusion hw⟩
  | hdec =>
    obtain ⟨hcause, hend⟩ := hdecBody_ends (s := startCommand .hdec s) rfl rfl rfl
    exact ⟨hcause, fun _ => hend.putDst.out, fun _ => hend.putBits.out, fun _ => hend.pad⟩
  | rled =>
    obtain ⟨hcause, hend⟩ := rledBody_ends (s := startCommand .rled s) rfl
    exact ⟨hcause, fun _ => hend.put.out, fun hw => Bool.noConfusion hw, fun hw => Bool.noConfusion hw⟩

/-- Only the degenerate walk reads `NSYM` (R17, R104). -/
theorem walkOutcome_congr {codes : List (Byte × Bits)} {n n' : Nat} (h : degenerateByte codes ≠ none → n = n')
    (cap : Nat) : walkOutcome cap n codes = walkOutcome cap n' codes := by
  funext bits
  unfold walkOutcome
  cases hd : degenerateByte codes with
  | none => rfl
  | some b => rw [h (by rw [hd]; exact Option.some_ne_none b)]

theorem outcome_congr {i : Instr} {s s' : State} (h : sameInputs i s s') : outcome i s = outcome i s' := by
  cases i with
  | pack =>
    obtain ⟨hp, hbits⟩ := h
    simp only [outcome, hp, hbits]
  | unpack | rled =>
    obtain ⟨hp, hsrc⟩ := h
    simp only [outcome, hp, hsrc]
  | hwalk =>
    obtain ⟨hp, hbits, hcodes, hnsym⟩ := h
    rw [hcodes] at hnsym
    simp only [outcome, hwalkOutcome, walkOutcome_congr hnsym, hp, hbits, hcodes]
  | hdec =>
    obtain ⟨hp, hsrc, hcodes, hnsym⟩ := h
    rw [hcodes] at hnsym
    simp only [outcome, hdecOutcome, walkOutcome_congr hnsym, hp, hsrc, hcodes]

/-- The completion of a command shows its outcome: cause and output. -/
theorem exec_shows {i : Instr} {s t : State} (h : exec i s = .next t) :
    t.regs.status = statusOf (outcome i s).1 ∧ t.regs.errcode = errcodeOf (outcome i s).1 ∧
      Shows i (outcome i s).2 t := by
  obtain ⟨hcause, hshows⟩ := body_ends i s
  obtain ⟨p, rfl⟩ := eq_completion_of_exec h
  rw [← hcause]
  exact ⟨rfl, rfl, hshows.dst, hshows.bits, hshows.pad⟩

/-- Settles O48: both runs show the one outcome of their inputs (`exec_shows`, `outcome_congr`). -/
theorem resultDependsOnlyOnInputs : Obligations.ResultDependsOnlyOnInputs := by
  intro i s s' t u hin ht hu
  obtain ⟨hst, het, hshow⟩ := exec_shows ht
  obtain ⟨hsu, heu, hshow'⟩ := exec_shows hu
  rw [← outcome_congr hin] at hsu heu hshow'
  exact ⟨hst.trans hsu.symm, het.trans heu.symm, fun hw => (hshow.dst hw).trans (hshow'.dst hw).symm,
    fun hw => (hshow.bits hw).trans (hshow'.bits hw).symm, fun hw => (hshow.pad hw).trans (hshow'.pad hw).symm⟩

/-! ## The shape of a packed payload (O21) -/

theorem statusOf_eq_ok {c : Option Cause} (h : statusOf c = statusOk) : c = none := by
  cases c with
  | none => rfl
  | some c => exact absurd h statusOk_ne_fault.symm

/-- Where PACK raises nothing it has written the whole payload. -/
theorem packOutcome_of_none {p : Params} {bits : Bits} (h : (packOutcome p bits).1 = none) :
    (packOutcome p bits).2 = packBytes bits := by
  unfold packOutcome fitted at h ⊢
  split at h
  case isTrue => cases h
  case isFalse hok =>
    split at h
    case isTrue => cases h
    case isFalse hfits => rw [if_neg hok, if_neg hfits]

/-- The Bytes of a list of elements that all hold a value. -/
theorem map_getD_map_some (xs : List Byte) : ((xs.map some).map fun x => x.getD 0#8) = xs := by
  rw [List.map_map]
  exact List.map_id xs

theorem payloadBit_packBytes_bbufBits {s : State} {j : Nat} (h : j < (padded (bbufBits s)).length) :
    payloadBit (packBytes (bbufBits s)) j = if j < s.regs.bitLen then bitRead s j else false := by
  rw [payloadBit_packBytes _ _ h, packBit_reads s j h]

/-- Settles O21: DST holds `packBytes` of the bits, whose first Byte, length and bits are known. -/
theorem packedPayloadHasItsShape : Obligations.PackedPayloadHasItsShape := by
  intro s t h hok
  obtain ⟨hstatus, -, hshow⟩ := exec_shows h
  have hnone : (packOutcome s.params (bbufBits s)).1 = none := statusOf_eq_ok (hstatus.symm.trans hok)
  have hout : dstOut t = (packBytes (bbufBits s)).map some :=
    (hshow.dst rfl).trans (congrArg _ (packOutcome_of_none hnone))
  intro B
  have hB : B = packBytes (bbufBits s) := by
    rw [show B = (dstOut t).map fun x => x.getD 0#8 from rfl, hout, map_getD_map_some]
  have hlen : B.length = 1 + (s.regs.bitLen + 7) / 8 := by rw [hB, length_packBytes_bbufBits]
  have hpadded : (padded (bbufBits s)).length = 8 * (B.length - 1) := by
    rw [hlen, length_padded, length_bbufBits, padOf]
    omega
  refine ⟨?_, hlen, fun j hj => ?_, fun j hj hlt => ?_⟩
  · rw [hB, show (packBytes (bbufBits s)).getD 0 0#8 = BitVec.ofNat 8 (padOf (bbufBits s).length) from rfl,
      length_bbufBits, BitVec.toNat_ofNat, padOf]
    omega
  · rw [hB, payloadBit_packBytes_bbufBits (by rw [hpadded, hlen]; omega), if_pos hj]
  · rw [hB, payloadBit_packBytes_bbufBits (hpadded ▸ hlt), if_neg (Nat.not_lt.2 hj)]

end Sys2Proof.Machine

/-! ## The frames (O22, O25, O32, O38, O46)

A command's frame is that of its body, from the state its start leaves: the start and the completion write no memory
content and no working register. -/

namespace Sys2Proof.Machine

/-- Settles O22, by what PACK's body ends with (`packBody_ends`). -/
theorem packFrame : Obligations.PackFrame := by
  intro s t h
  obtain ⟨-, hput, hkept, hsi, hnode, hrv, hrc⟩ := packBody_ends (s := startCommand .pack s) rfl rfl
  obtain ⟨p, rfl⟩ := eq_completion_of_exec h
  exact ⟨hkept.params, hkept.host, hkept.srcLen, hkept.bitLen, hkept.nsym, hkept.src, hkept.bbuf, hkept.ct,
    fun _ => hput.above, hsi, hnode, hrv, hrc⟩

/-- An element of BBUF above what UNPACK or HDEC wrote: it keeps its bit, and the start took its value away (R29,
R33). -/
theorem PutBits.above_stale {i : Instr} {s t : State} {xs : Bits} (h : PutBits (startCommand i s) xs t)
    (hi : (startCommand i s).mems.bbuf = markStale s.mems.bbuf) {a : Nat} (ha : t.regs.bitLen ≤ a) :
    (Memory.read t.mems.bbuf a).map BitCell.bit = (Memory.read s.mems.bbuf a).map BitCell.bit ∧
      liveBit t.mems.bbuf a = none := by
  have hread := h.above ha
  refine ⟨by rw [hread, bit_read_startCommand], ?_⟩
  rw [liveBit, hread, hi]
  exact liveBit_markStale s.mems.bbuf a

/-- Settles O25, by what UNPACK's body ends with (`unpackBody_ends`). -/
theorem unpackFrame : Obligations.UnpackFrame := by
  intro s t h
  obtain ⟨-, hput, -, hkept⟩ := unpackBody_ends (s := startCommand .unpack s) rfl rfl
  obtain ⟨p, rfl⟩ := eq_completion_of_exec h
  exact ⟨hkept.params, hkept.host, hkept.srcLen, hkept.dstLen, hkept.nsym, hkept.src, hkept.dst, hkept.ct,
    fun _ => hput.above_stale rfl, hkept.bc, hkept.di, hkept.node, hkept.rv, hkept.rc⟩

/-- Settles O32, by what the two bodies end with (`hwalkBody_ends`, `rledBody_ends`). -/
theorem hwalkAndRledFrame : Obligations.HwalkAndRledFrame := by
  refine ⟨fun s t h => ?_, fun s t h => ?_⟩
  · obtain ⟨-, hput, hkept, hwork⟩ := hwalkBody_ends (s := startCommand .hwalk s) rfl
    obtain ⟨p, rfl⟩ := eq_completion_of_exec h
    exact ⟨hkept.params, hkept.host, hkept.srcLen, hkept.bitLen, hkept.nsym, hkept.pad, hkept.src, hkept.bbuf,
      hkept.ct, fun _ => hput.above, hwork⟩
  · obtain ⟨-, hput, hkept, hwork⟩ := rledBody_ends (s := startCommand .rled s) rfl
    obtain ⟨p, rfl⟩ := eq_completion_of_exec h
    exact ⟨hkept.params, hkept.host, hkept.srcLen, hkept.bitLen, hkept.nsym, hkept.pad, hkept.src, hkept.bbuf,
      hkept.ct, fun _ => hput.above, hwork⟩

/-- Settles O38, by what HDEC's body ends with (`hdecBody_ends`) and what no body writes (`keeps_body`). -/
theorem hdecFrame : Obligations.HdecFrame := by
  intro s t h
  obtain ⟨-, hdst, hbits, -, hwork⟩ := hdecBody_ends (s := startCommand .hdec s) rfl rfl rfl
  have hkept := (keeps_body .hdec (startCommand .hdec s)).state
  obtain ⟨p, rfl⟩ := eq_completion_of_exec h
  exact ⟨hkept.params, hkept.host, hkept.srcLen, hkept.nsym, hkept.src, hkept.ct,
    fun _ => hbits.above_stale rfl, fun _ => hdst.above, hwork⟩

/-- Settles O46, by what no body writes (`keeps_body`). -/
theorem noCommandWritesItsOperands : Obligations.NoCommandWritesItsOperands := by
  intro i s t h
  have hkept := (keeps_body i (startCommand i s)).state
  obtain ⟨p, rfl⟩ := eq_completion_of_exec h
  exact ⟨hkept.src.trans (src_startCommand i s), hkept.ct.trans (ct_startCommand i s),
    hkept.srcLen.trans (srcLen_startCommand i s), hkept.nsym.trans (nsym_startCommand i s)⟩

end Sys2Proof.Machine

/-! ## The command words (O1, O2, O9) -/

namespace Sys2Proof.Machine

/-- Settles O1: the seven words. -/
theorem fiveWordsDecode : Obligations.FiveWordsDecode :=
  ⟨decode_encode .pack, decode_encode .unpack, decode_encode .hwalk, decode_encode .hdec, decode_encode .rled,
    by decide, by decide⟩

theorem decode_eq_command_iff {w : BitVec 8} {i : Instr} : decode w = .command i ↔ w = encode i :=
  ⟨fun h => (encode_of_decode h).symm, fun h => h ▸ decode_encode i⟩

theorem toOption_eq_some_iff {d : Decoded} {i : Instr} : d.toOption = some i ↔ d = .command i := by
  cases d with
  | command j => simp [Decoded.toOption]
  | reserved r => simp [Decoded.toOption]

theorem decodeTableWord_eq_some_iff {n w : Nat} {i : Instr} :
    decodeTableWord n w = some i ↔ n = 8 ∧ w = (encode i).toNat := by
  unfold decodeTableWord
  split
  case isTrue h =>
    obtain ⟨hn, hw⟩ := h
    have hnat : (BitVec.ofNat 8 w).toNat = w := BitVec.toNat_ofNat w 8 ▸ Nat.mod_eq_of_lt hw
    rw [toOption_eq_some_iff, decode_eq_command_iff, ← BitVec.toNat_inj, hnat]
    exact ⟨fun h => ⟨hn, h⟩, fun h => h.2⟩
  case isFalse h => exact ⟨nofun, fun ⟨hn, hw⟩ => absurd ⟨hn, hw ▸ (encode i).isLt⟩ h⟩

/-- Settles O2: `decode` is the inverse of `encode`, and the host's form is `decode` on words of 8 bits. -/
theorem decodeAgreesWithEncode : Obligations.DecodeAgreesWithEncode :=
  ⟨fun _ _ => decode_eq_command_iff, fun _ _ _ => decodeTableWord_eq_some_iff⟩

theorem isReserved_iff (w : BitVec 8) : (∃ r, decode w = .reserved r) ↔ ∀ i, w ≠ encode i := by
  constructor
  · rintro ⟨r, hr⟩ i rfl
    rw [decode_encode] at hr
    cases hr
  · intro hne
    cases hd : decode w with
    | command i => exact absurd (encode_of_decode hd).symm (hne i)
    | reserved r => exact ⟨r, rfl⟩

theorem step_of_reserved {s : State} {v : Nat} {es : List Event} {r : Reserved} (hb : s.busy = false)
    (he : s.host.events = .hwr 0 v :: es) (hd : decode (BitVec.ofNat 8 v) = .reserved r) :
    step s = .next (runReserved (BitVec.ofNat 8 v) (popEvent s)) := by
  simp only [step, hb, he, startWord, hd, Bool.false_eq_true, if_false]

/-- Settles O9: the reserved words are those of no command, and one written ends at once (`step_of_reserved`). -/
theorem reservedWordFaultsAtOnce : Obligations.ReservedWordFaultsAtOnce := by
  refine ⟨fun w => ?_, fun s v es r hb he _ hd => ?_⟩
  · rw [isReserved_iff]
    constructor
    · exact fun h => ⟨h .pack, h .unpack, h .hwalk, h .hdec, h .rled⟩
    · rintro ⟨hpack, hunpack, hhwalk, hhdec, hrled⟩ i
      cases i with
      | pack => exact hpack
      | unpack => exact hunpack
      | hwalk => exact hhwalk
      | hdec => exact hhdec
      | rled => exact hrled
  · refine ⟨_, step_of_reserved hb he hd, rfl, rfl, rfl, rfl, rfl, rfl, rfl, rfl, rfl, rfl, rfl, ?_⟩
    show s.host.events.tail = es
    rw [he, List.tail_cons]

end Sys2Proof.Machine

/-! # The bit packer family: PACK and UNPACK against the payload

First what a completed command shows, element by element; then the results of PACK (O20) and of UNPACK (O24, O26), and
that UNPACK undoes PACK (O27). All of it is read off the outcomes of the encoding family (`exec_shows`). -/

/-! ## What a completion shows -/

namespace Sys2Proof.Machine

theorem fitted_of_fits {α : Type} {cap : Nat} {xs : List α} (h : xs.length ≤ cap) : fitted cap xs = (none, xs) :=
  if_neg (Nat.not_lt.2 h)

theorem fitted_of_overflow {α : Type} {cap : Nat} {xs : List α} (h : cap < xs.length) :
    fitted cap xs = (some .capacity, xs.take cap) :=
  if_pos h

section
variable {s t : State}

/-- A successful command has counted all its source elements (R19, R30). -/
theorem progress_of_success {i : Instr} (h : exec i s = .next t) (hok : t.regs.status = statusOk) :
    t.regs.progress = sourceCount i (startCommand i s) := by
  rw [exec_eq_finish] at h
  cases h
  rcases completed_finishCommand i _ (errcode_startCommand i s) with ⟨-, -, hprog⟩ | ⟨hfault, -⟩
  · exact hprog
  · exact absurd (hok.symm.trans hfault) statusOk_ne_fault

theorem dstLen_of_dstOut {xs : List Byte} (h : dstOut t = xs.map some) : t.regs.dstLen = xs.length := by
  simpa [dstOut] using congrArg List.length h

theorem bitLen_of_bitOut {xs : Bits} (h : bitOut t = xs.map some) : t.regs.bitLen = xs.length := by
  simpa [bitOut] using congrArg List.length h

theorem read_of_dstOut {xs : List Byte} (h : dstOut t = xs.map some) {m : Nat} (hm : m < xs.length) :
    Memory.read t.mems.dst m = some xs[m] := by
  have hget := congrArg (·[m]?) h
  simpa [dstOut, dstLen_of_dstOut h, hm] using hget

theorem liveBit_of_bitOut {xs : Bits} (h : bitOut t = xs.map some) {j : Nat} (hj : j < xs.length) :
    liveBit t.mems.bbuf j = some xs[j] := by
  have hget := congrArg (·[j]?) h
  simpa [bitOut, bitLen_of_bitOut h, hj] using hget

end

/-! ## PACK (O20) -/

/-- PACK raises nothing exactly where its bits and its payload are within the capacities (R80). -/
theorem packOutcome_eq_none_iff (p : Params) (bits : Bits) :
    (packOutcome p bits).1 = none ↔ bits.length ≤ p.bitCap ∧ (packBytes bits).length ≤ p.dstCap := by
  unfold packOutcome fitted
  split
  case isTrue hbad => exact iff_of_false (Option.some_ne_none _) fun h => Nat.not_le.2 hbad h.1
  case isFalse hok =>
    split
    case isTrue hover => exact iff_of_false (Option.some_ne_none _) fun h => Nat.not_le.2 hover h.2
    case isFalse hfits => exact iff_of_true rfl ⟨Nat.le_of_not_lt hok, Nat.le_of_not_lt hfits⟩

/-- A successful PACK: the whole payload stands in DST, and its padding count in `PAD` (R81). -/
theorem pack_success {s t : State} (h : exec .pack s = .next t) (hok : t.regs.status = statusOk) :
    dstOut t = (packBytes (bbufBits s)).map some ∧ t.regs.pad = BitVec.ofNat 8 (padOf s.regs.bitLen) := by
  obtain ⟨hstatus, -, hshow⟩ := exec_shows h
  have hnone : (packOutcome s.params (bbufBits s)).1 = none := statusOf_eq_ok (hstatus.symm.trans hok)
  obtain ⟨hbits, -⟩ := (packOutcome_eq_none_iff _ _).1 hnone
  refine ⟨(hshow.dst rfl).trans (congrArg _ (packOutcome_of_none hnone)), (hshow.pad rfl).trans ?_⟩
  rw [outcome, packPad, if_neg (Nat.not_lt.2 hbits), length_bbufBits]

theorem bitsValue_eq_sum (xs : Bits) :
    bitsValue xs = ∑ k ∈ Finset.range xs.length, (xs.getD k false).toNat * 2 ^ (xs.length - 1 - k) := by
  induction xs with
  | nil => rfl
  | cons x xs ih =>
    rw [bitsValue, ih, List.length_cons, Finset.sum_range_succ', Nat.add_comm]
    congr 1
    refine Finset.sum_congr rfl fun k _ => ?_
    rw [List.getD_cons_succ, show xs.length + 1 - 1 - (k + 1) = xs.length - 1 - k by omega]

/-- A data Byte is the sum R81 gives. -/
theorem toNat_dataByte {bits : Bits} {m : Nat} (h : m < (padded bits).length / 8) :
    (dataByte bits m).toNat =
      ∑ k ∈ Finset.range 8, ((padded bits).getD (8 * m + k) false).toNat * 2 ^ (7 - k) := by
  have hlen : (((padded bits).drop (8 * m)).take 8).length = 8 := by simp; omega
  have hlt := bitsValue_lt (((padded bits).drop (8 * m)).take 8)
  rw [hlen] at hlt
  rw [dataByte, BitVec.toNat_ofNat, Nat.mod_eq_of_lt hlt, bitsValue_eq_sum, hlen]
  refine Finset.sum_congr rfl fun k hk => ?_
  simp [Finset.mem_range.1 hk]

theorem packBytes_getElem_zero {bits : Bits} (h : 0 < (packBytes bits).length) :
    (packBytes bits)[0] = BitVec.ofNat 8 (padOf bits.length) := rfl

theorem packBytes_getElem_succ {bits : Bits} {m : Nat} (h : m + 1 < (packBytes bits).length) :
    (packBytes bits)[m + 1] = dataByte bits m := by
  simp [packBytes]

/-- Settles O20: PACK of bits that fit succeeds (`packOutcome_eq_none_iff`), DST then holds `packBytes` of them, and
each data Byte is its sum (`toNat_dataByte`). -/
theorem packWritesPayload : Obligations.PackWritesPayload := by
  intro s hbits n P hfits
  have hpadded : (padded (bbufBits s)).length = n + P := by rw [length_padded, length_bbufBits]; rfl
  have hlen : (packBytes (bbufBits s)).length = 1 + (n + P) / 8 := by rw [length_packBytes, hpadded]
  have hnone : (packOutcome s.params (bbufBits s)).1 = none :=
    (packOutcome_eq_none_iff _ _).2 ⟨by rwa [length_bbufBits], by rwa [hlen]⟩
  have hexec := exec_eq_finish .pack s
  obtain ⟨hstatus, herr, -⟩ := exec_shows hexec
  rw [outcome, hnone] at hstatus herr
  obtain ⟨hout, hpad⟩ := pack_success hexec hstatus
  refine ⟨_, hexec, hstatus, herr, progress_of_success hexec hstatus, hpad, (dstLen_of_dstOut hout).trans hlen, ?_,
    fun m hpos hm => ?_⟩
  · rw [read_of_dstOut hout (by omega), packBytes_getElem_zero, length_bbufBits]
    rfl
  · obtain ⟨m, rfl⟩ := Nat.exists_eq_succ_of_ne_zero (Nat.ne_of_gt hpos)
    rw [read_of_dstOut hout (by omega), packBytes_getElem_succ, Option.map_some,
      toNat_dataByte (by rw [hpadded]; exact hm), padded, length_bbufBits]
    rfl

/-! ## UNPACK (O24, O26) -/

/-- A completed UNPACK shows its outcome (R83, R84). -/
theorem unpack_shows {s t : State} {c : Option Cause} {xs : Bits} (h : exec .unpack s = .next t)
    (ho : unpackBodyOutcome s.params (srcBytes s) = (c, xs)) :
    t.regs.status = statusOf c ∧ t.regs.errcode = errcodeOf c ∧ t.regs.pad = unpackPad s.params (srcBytes s) ∧
      bitOut t = xs.map some := by
  obtain ⟨hstatus, herr, hshow⟩ := exec_shows h
  have hbits := hshow.bits rfl
  rw [outcome, ho] at hstatus herr hbits
  exact ⟨hstatus, herr, hshow.pad rfl, hbits⟩

section
variable {p : Params} {B : List Byte}

theorem unpackPad_of_fits (h : B.length ≤ p.srcCap) : unpackPad p B = B.getD 0 0#8 := if_neg (Nat.not_lt.2 h)

theorem unpackPad_of_tooLong (h : p.srcCap < B.length) : unpackPad p B = 0#8 := if_pos h

theorem unpackBodyOutcome_of_tooLong (h : p.srcCap < B.length) : unpackBodyOutcome p B = (some .capacity, []) :=
  if_pos h

theorem unpackBodyOutcome_nil : unpackBodyOutcome p [] = (some .emptyBuffer, []) :=
  if_neg (Nat.not_lt_zero p.srcCap)

theorem unpackBodyOutcome_of_padExceeds (hcap : B.length ≤ p.srcCap) (hpos : 1 ≤ B.length)
    (h : 8 * (B.length - 1) < (B.getD 0 0#8).toNat) : unpackBodyOutcome p B = (some .padExceeds, []) := by
  rw [unpackBodyOutcome, if_neg (Nat.not_lt.2 hcap), unpackOutcome, if_neg (by omega), if_pos h]

theorem unpackBodyOutcome_of_payload (hcap : B.length ≤ p.srcCap) (hpos : 1 ≤ B.length)
    (h : (B.getD 0 0#8).toNat ≤ 8 * (B.length - 1)) : unpackBodyOutcome p B = fitted p.bitCap (unpackBits B) := by
  rw [unpackBodyOutcome, if_neg (Nat.not_lt.2 hcap), unpackOutcome, if_neg (by omega), if_neg (Nat.not_lt.2 h)]

end

section
variable {s t : State}

/-- `unpackBodyOutcome_of_payload` for the payload in SRC. -/
theorem unpackBodyOutcome_srcBytes (hcap : s.regs.srcLen ≤ s.params.srcCap) (hpos : 1 ≤ s.regs.srcLen)
    (h : (srcRead s 0).toNat ≤ 8 * (s.regs.srcLen - 1)) :
    unpackBodyOutcome s.params (srcBytes s) =
      fitted s.params.bitCap (srcBits s (8 * (s.regs.srcLen - 1) - (srcRead s 0).toNat)) := by
  rw [srcBits_eq_unpackBits s hpos]
  apply unpackBodyOutcome_of_payload
  · rwa [length_srcBytes]
  · rwa [length_srcBytes]
  · rwa [length_srcBytes, srcBytes_getD_zero hpos]

theorem unpackPad_srcBytes (hcap : s.regs.srcLen ≤ s.params.srcCap) (hpos : 1 ≤ s.regs.srcLen) :
    unpackPad s.params (srcBytes s) = srcRead s 0 := by
  rw [unpackPad_of_fits (by rwa [length_srcBytes]), srcBytes_getD_zero hpos]

theorem take_srcBits {n k : Nat} (h : k ≤ n) : (srcBits s n).take k = srcBits s k := by
  rw [srcBits, ← List.map_take, List.take_range, Nat.min_eq_left h, srcBits]

theorem bitLen_of_srcBits {n : Nat} (h : bitOut t = (srcBits s n).map some) : t.regs.bitLen = n :=
  (bitLen_of_bitOut h).trans (length_srcBits s n)

theorem liveBit_of_srcBits {n : Nat} (h : bitOut t = (srcBits s n).map some) {j : Nat} (hj : j < n) :
    liveBit t.mems.bbuf j = some ((srcRead s (1 + j / 8)).getLsbD (7 - j % 8)) := by
  rw [liveBit_of_bitOut h (by rwa [length_srcBits])]
  simp [srcBits]

end

/-- Settles O24: UNPACK's outcome is the bits of the payload in SRC (`unpackBodyOutcome_srcBytes`), all of which fit. -/
theorem unpackWritesBits : Obligations.UnpackWritesBits := by
  intro s hcap hpos hpad hfits
  have hexec := exec_eq_finish .unpack s
  obtain ⟨hstatus, herr, hp, hout⟩ := unpack_shows hexec ((unpackBodyOutcome_srcBytes hcap hpos hpad).trans
    (fitted_of_fits (by rwa [length_srcBits])))
  have hlen := bitLen_of_srcBits hout
  exact ⟨_, hexec, hstatus, herr, progress_of_success hexec hstatus, hp.trans (unpackPad_srcBytes hcap hpos), hlen,
    fun j hj => liveBit_of_srcBits hout (hlen ▸ hj)⟩

/-- Settles O26: each clause is one branch of UNPACK's outcome, in R83's order. -/
theorem unpackFaults : Obligations.UnpackFaults := by
  intro s
  have hexec := exec_eq_finish .unpack s
  have hl := length_srcBytes s
  refine ⟨_, hexec, fun hlong => ?_, fun hempty => ?_, fun hcap hpos hpad => ?_, fun hcap hpos hover => ?_⟩
  · rw [← hl] at hlong
    obtain ⟨hstatus, herr, hp, hout⟩ := unpack_shows hexec (unpackBodyOutcome_of_tooLong hlong)
    exact ⟨hstatus, herr, hp.trans (unpackPad_of_tooLong hlong), bitLen_of_bitOut hout⟩
  · have hnil : srcBytes s = [] := List.eq_nil_of_length_eq_zero (hl.trans hempty)
    obtain ⟨hstatus, herr, hp, hout⟩ := unpack_shows hexec (hnil ▸ unpackBodyOutcome_nil)
    rw [hnil, unpackPad_of_fits (Nat.zero_le _)] at hp
    exact ⟨hstatus, herr, hp, bitLen_of_bitOut hout⟩
  · have houtcome := unpackBodyOutcome_of_padExceeds (hl ▸ hcap) (hl ▸ hpos) (by rwa [hl, srcBytes_getD_zero hpos])
    obtain ⟨hstatus, herr, hp, hout⟩ := unpack_shows hexec houtcome
    exact ⟨hstatus, herr, hp.trans (unpackPad_srcBytes hcap hpos), bitLen_of_bitOut hout⟩
  · have houtcome := (unpackBodyOutcome_srcBytes hcap hpos (by omega)).trans
      (fitted_of_overflow (by rw [length_srcBits]; omega))
    rw [take_srcBits (by omega)] at houtcome
    obtain ⟨hstatus, herr, hp, hout⟩ := unpack_shows hexec houtcome
    exact ⟨hstatus, herr, hp.trans (unpackPad_srcBytes hcap hpos), bitLen_of_srcBits hout,
      fun j hj => liveBit_of_srcBits hout hj⟩

/-! ## UNPACK undoes PACK (O27) -/

theorem getD_zero_packBytes (bits : Bits) : (packBytes bits).getD 0 0#8 = BitVec.ofNat 8 (padOf bits.length) := rfl

/-- The padding count of a payload made by PACK never exceeds the bits present (R65). -/
theorem pad_packBytes_le (bits : Bits) :
    ((packBytes bits).getD 0 0#8).toNat ≤ 8 * ((packBytes bits).length - 1) := by
  have hmod := length_padded_mod bits
  have hlt := padOf_lt bits.length
  have hlen := length_padded bits
  rw [getD_zero_packBytes, length_packBytes, BitVec.toNat_ofNat]
  omega

/-- UNPACK of a payload made by PACK faults on capacity, or gives back the bits (R85). -/
theorem unpackBodyOutcome_packBytes (p : Params) (bits : Bits) :
    (∃ xs, unpackBodyOutcome p (packBytes bits) = (some .capacity, xs)) ∨
      (packBytes bits).length ≤ p.srcCap ∧ unpackBodyOutcome p (packBytes bits) = (none, bits) := by
  rcases Nat.lt_or_ge p.srcCap (packBytes bits).length with hlong | hcap
  · exact .inl ⟨_, unpackBodyOutcome_of_tooLong hlong⟩
  · have houtcome : unpackBodyOutcome p (packBytes bits) = fitted p.bitCap bits := by
      rw [unpackBodyOutcome_of_payload hcap (by rw [length_packBytes]; omega) (pad_packBytes_le bits),
        unpackBits_packBytes]
    rcases Nat.lt_or_ge p.bitCap bits.length with hover | hfits
    · exact .inl ⟨_, houtcome.trans (fitted_of_overflow hover)⟩
    · exact .inr ⟨hcap, houtcome.trans (fitted_of_fits hfits)⟩

/-- Settles O27: forwards by `unpackBodyOutcome_packBytes`, whose inverse law is `unpackBits_packBytes`; backwards the
payload is one PACK made, and has PACK's shape (`packedPayloadHasItsShape`). -/
theorem unpackUndoesPack : Obligations.UnpackUndoesPack := by
  refine ⟨fun s t s' u hpack hok hsrc hunpack => ?_, fun s t u _ _ hpack hok hout => ?_⟩
  · obtain ⟨hout, hpad⟩ := pack_success hpack hok
    have hB : srcBytes s' = packBytes (bbufBits s) :=
      List.map_injective_iff.2 (Option.some_injective Byte) (hsrc.trans hout)
    rcases unpackBodyOutcome_packBytes s'.params (bbufBits s) with ⟨xs, hfault⟩ | ⟨hcap, hbits⟩
    · obtain ⟨-, herr, -⟩ := unpack_shows hunpack (hB ▸ hfault)
      rw [herr]
      exact ⟨by decide, by decide, fun h => absurd rfl h⟩
    · obtain ⟨hstatus, herr, hp, hbitOut⟩ := unpack_shows hunpack (hB ▸ hbits)
      rw [herr]
      refine ⟨by decide, by decide, fun _ => ⟨hstatus, ?_, hbitOut⟩⟩
      rw [hp, hB, unpackPad_of_fits hcap, getD_zero_packBytes, length_bbufBits, hpad]
  · obtain ⟨hfirst, hlen, -, hzero⟩ := packedPayloadHasItsShape t u hpack hok
    rw [hout, map_getD_map_some] at hfirst hlen hzero
    exact ⟨hfirst, hlen, hzero⟩

end Sys2Proof.Machine

/-! # The Huffman decoding family: HWALK and HDEC against the greedy match and the encoder

First the outcomes branch by branch, on sequences: the walk against the greedy match and the concatenation of codes,
and HDEC's outcome as UNPACK's followed by HWALK's. Then what a completed command leaves, and from both the results of
HWALK (O28, O29, O30), of HDEC (O34, O35, O37, O39), and of the table check in both (O33). -/

/-! ## The outcomes, branch by branch -/

namespace Sys2Proof.Machine

/-! ### The walk -/

section
variable {cap n : Nat} {codes : List (Byte × Bits)} {bits : Bits} {b : Byte}

theorem walkOutcome_of_noBits (hd : degenerateByte codes = some b) (hfits : n ≤ cap) :
    walkOutcome cap n codes [] = (none, List.replicate n b) := by
  simp only [walkOutcome, hd, List.length_nil, ne_eq, not_true_eq_false, if_false, if_neg (Nat.not_lt.2 hfits)]

theorem walkOutcome_of_tooManyCopies (hd : degenerateByte codes = some b) (hover : cap < n) :
    walkOutcome cap n codes [] = (some .capacity, List.replicate cap b) := by
  simp only [walkOutcome, hd, List.length_nil, ne_eq, not_true_eq_false, if_false, if_pos hover]

theorem walkOutcome_of_bits (hd : degenerateByte codes = some b) (h : bits ≠ []) :
    walkOutcome cap n codes bits = (some .corruptStream, []) := by
  simp only [walkOutcome, hd, if_pos (mt List.eq_nil_of_length_eq_zero h)]

/-- An ordinary walk whose output fits ends as the greedy match does (R106). -/
theorem walkOutcome_of_greedy (hd : degenerateByte codes = none) (hfits : (greedy codes [] bits).1.length ≤ cap) :
    walkOutcome cap n codes bits =
      (if (greedy codes [] bits).2 = [] then none else some .corruptStream, (greedy codes [] bits).1) := by
  simp only [walkOutcome, hd, if_neg (Nat.not_lt.2 hfits)]
  split <;> rfl

/-- An ordinary walk of a concatenation of codes that fits (R109). -/
theorem walkOutcome_of_decodes (g : PrefixFree codes) (hd : degenerateByte codes = none) {out : List Byte}
    (h : Decodes codes bits out) (hfits : out.length ≤ cap) : walkOutcome cap n codes bits = (none, out) := by
  have hgreedy := greedy_of_decodes g h
  rw [walkOutcome_of_greedy hd (by rwa [hgreedy]), hgreedy, if_pos rfl]

/-- An ordinary walk that does not fault has decoded its bits (R109). -/
theorem decodes_of_walkOutcome (hd : degenerateByte codes = none) (h : (walkOutcome cap n codes bits).1 = none) :
    ∃ out, Decodes codes bits out ∧ out.length ≤ cap := by
  simp only [walkOutcome, hd] at h
  split at h
  case isTrue => cases h
  case isFalse hfits =>
    split at h
    case isTrue hend => exact ⟨_, decodes_of_greedy codes bits [] _ (Prod.ext rfl hend), Nat.le_of_not_lt hfits⟩
    case isFalse => cases h

theorem walkOutcome_ne_badTable : (walkOutcome cap n codes bits).1 ≠ some .badTable := by
  unfold walkOutcome
  cases degenerateByte codes <;> dsimp only <;> split_ifs <;> simp

end

/-! ### HWALK and HDEC -/

section
variable {p : Params} {n : Nat} {codes : List (Byte × Bits)} {bits : Bits} {B : List Byte}

theorem hwalkOutcome_of_badTable (hlen : bits.length ≤ p.bitCap) (hp : tablePasses codes = false) :
    hwalkOutcome p n codes bits = (some .badTable, []) := by
  rw [hwalkOutcome, if_neg (Nat.not_lt.2 hlen), if_pos hp]

theorem hwalkOutcome_of_passes (hlen : bits.length ≤ p.bitCap) (hp : tablePasses codes = true) :
    hwalkOutcome p n codes bits = walkOutcome p.dstCap n codes bits := by
  rw [hwalkOutcome, if_neg (Nat.not_lt.2 hlen), if_neg (by simp [hp])]

theorem hdecOutcome_of_tooLong (h : p.srcCap < B.length) :
    hdecOutcome p n codes B = (some .capacity, ⟨[], [], 0#8⟩) :=
  if_pos h

theorem hdecOutcome_of_badTable (hlen : B.length ≤ p.srcCap) (hp : tablePasses codes = false) :
    hdecOutcome p n codes B = (some .badTable, ⟨[], [], 0#8⟩) := by
  rw [hdecOutcome, if_neg (Nat.not_lt.2 hlen), if_pos hp]

/-- Bits that UNPACK gives fit BBUF (R83). -/
theorem length_le_of_unpackBodyOutcome (h : unpackBodyOutcome p B = (none, bits)) : bits.length ≤ p.bitCap := by
  unfold unpackBodyOutcome unpackOutcome fitted at h
  split_ifs at h with _ _ _ hover <;> cases h
  exact Nat.le_of_not_lt hover

/-- With a passing table HDEC faults where UNPACK does (R111). -/
theorem hdecOutcome_of_unpackFault (hp : tablePasses codes = true) {c : Cause}
    (h : unpackBodyOutcome p B = (some c, bits)) :
    hdecOutcome p n codes B = (some c, ⟨[], bits, unpackPad p B⟩) := by
  rcases Nat.lt_or_ge p.srcCap B.length with hlong | hcap
  · rw [unpackBodyOutcome_of_tooLong hlong] at h
    cases h
    rw [hdecOutcome_of_tooLong hlong, unpackPad_of_tooLong hlong]
  · rw [unpackBodyOutcome, if_neg (Nat.not_lt.2 hcap)] at h
    rw [hdecOutcome, if_neg (Nat.not_lt.2 hcap), if_neg (by simp [hp]), h, unpackPad_of_fits hcap]

/-- With a passing table HDEC ends as HWALK does on the bits UNPACK gives (R111). -/
theorem hdecOutcome_of_unpacked (hp : tablePasses codes = true) (h : unpackBodyOutcome p B = (none, bits)) :
    hdecOutcome p n codes B =
      ((hwalkOutcome p n codes bits).1, ⟨(hwalkOutcome p n codes bits).2, bits, unpackPad p B⟩) := by
  rw [hwalkOutcome_of_passes (length_le_of_unpackBodyOutcome h) hp]
  rcases Nat.lt_or_ge p.srcCap B.length with hlong | hcap
  · rw [unpackBodyOutcome_of_tooLong hlong] at h
    cases h
  · rw [unpackBodyOutcome, if_neg (Nat.not_lt.2 hcap)] at h
    rw [hdecOutcome, if_neg (Nat.not_lt.2 hcap), if_neg (by simp [hp]), h, unpackPad_of_fits hcap]

/-- A payload made by PACK that fits unpacks to its bits (R85). -/
theorem unpackBodyOutcome_packBytes_of_fits (hcap : (packBytes bits).length ≤ p.srcCap)
    (hfits : bits.length ≤ p.bitCap) : unpackBodyOutcome p (packBytes bits) = (none, bits) := by
  rw [unpackBodyOutcome_of_payload hcap (by rw [length_packBytes]; omega) (pad_packBytes_le bits),
    unpackBits_packBytes, fitted_of_fits hfits]

/-! ### The table check -/

theorem unpackBodyOutcome_ne_badTable : (unpackBodyOutcome p B).1 ≠ some .badTable := by
  unfold unpackBodyOutcome unpackOutcome fitted
  split_ifs <;> simp

/-- HWALK raises `E_BAD_TABLE` exactly where the table fails (R100). -/
theorem hwalkOutcome_eq_badTable_iff (hlen : bits.length ≤ p.bitCap) :
    (hwalkOutcome p n codes bits).1 = some .badTable ↔ tablePasses codes = false := by
  cases hp : tablePasses codes with
  | false => exact iff_of_true (by rw [hwalkOutcome_of_badTable hlen hp]) rfl
  | true => exact iff_of_false (by rw [hwalkOutcome_of_passes hlen hp]; exact walkOutcome_ne_badTable) (by decide)

/-- HDEC raises `E_BAD_TABLE` exactly where the table fails (R100): its two parts do not raise it. -/
theorem hdecOutcome_eq_badTable_iff (hlen : B.length ≤ p.srcCap) :
    (hdecOutcome p n codes B).1 = some .badTable ↔ tablePasses codes = false := by
  cases hp : tablePasses codes with
  | false => exact iff_of_true (by rw [hdecOutcome_of_badTable hlen hp]) rfl
  | true =>
    refine iff_of_false ?_ (by decide)
    have hunpack := unpackBodyOutcome_ne_badTable (p := p) (B := B)
    rcases ho : unpackBodyOutcome p B with ⟨_ | c, bits⟩
    · rw [hdecOutcome_of_unpacked hp ho, hwalkOutcome_eq_badTable_iff (length_le_of_unpackBodyOutcome ho), hp]
      decide
    · rw [ho] at hunpack
      rwa [hdecOutcome_of_unpackFault hp ho]

end

theorem errcodeOf_eq_badTable_iff (c : Option Cause) : errcodeOf c = 5#8 ↔ c = some .badTable := by
  rcases c with _ | c
  · decide
  · cases c <;> decide

/-- R100 in terms of `Valid` and `Code`. -/
theorem tablePasses_codeList_eq_false_iff (ct : Memory CtEntry) : tablePasses (codeList ct) = false ↔
    (∀ b < 256, codeOf ct b = none) ∨ ∃ a b c d, a < 256 ∧ b < 256 ∧ a ≠ b ∧
      codeOf ct a = some c ∧ codeOf ct b = some d ∧ c <+: d := by
  rw [← Bool.not_eq_true, tablePasses_iff, Classical.not_and_iff_not_or_not, not_not]
  refine or_congr ?_ ?_
  · rw [List.eq_nil_iff_forall_not_mem]
    constructor
    · intro h b hb
      refine Option.eq_none_iff_forall_ne_some.2 fun c hc => h (BitVec.ofNat 8 b, c) ?_
      rwa [mem_codeList, BitVec.toNat_ofNat, Nat.mod_eq_of_lt hb]
    · rintro h ⟨b, c⟩ hm
      rw [mem_codeList, h b.toNat b.isLt] at hm
      cases hm
  · constructor
    · intro h
      push Not at h
      obtain ⟨⟨a, c⟩, hc, ⟨b, d⟩, hd, hpre, hne⟩ := h
      exact ⟨a.toNat, b.toNat, c, d, a.isLt, b.isLt, fun h => hne (BitVec.eq_of_toNat_eq h),
        (mem_codeList ct a c).1 hc, (mem_codeList ct b d).1 hd, hpre⟩
    · rintro ⟨a, b, c, d, ha, hb, hne, hc, hd, hpre⟩ h
      have hab : BitVec.ofNat 8 a = BitVec.ofNat 8 b := by
        refine h (BitVec.ofNat 8 a, c) ?_ (BitVec.ofNat 8 b, d) ?_ hpre
        · rwa [mem_codeList, BitVec.toNat_ofNat, Nat.mod_eq_of_lt ha]
        · rwa [mem_codeList, BitVec.toNat_ofNat, Nat.mod_eq_of_lt hb]
      have hnat := congrArg BitVec.toNat hab
      rw [BitVec.toNat_ofNat, BitVec.toNat_ofNat, Nat.mod_eq_of_lt ha, Nat.mod_eq_of_lt hb] at hnat
      exact hne hnat

end Sys2Proof.Machine

/-! ## What a completed command leaves -/

namespace Sys2Proof.Machine

section
variable {s t : State}

theorem unpack_leaves {o : Option Cause × Bits} (h : exec .unpack s = .next t)
    (ho : unpackBodyOutcome s.params (srcBytes s) = o) :
    t.regs.status = statusOf o.1 ∧ t.regs.errcode = errcodeOf o.1 ∧ t.regs.pad = unpackPad s.params (srcBytes s) ∧
      PutBits (startCommand .unpack s) o.2 t := by
  subst ho
  obtain ⟨hstatus, herr, hshow⟩ := exec_shows h
  obtain ⟨-, hend⟩ := unpackBody_ends (s := startCommand .unpack s) rfl rfl
  obtain ⟨q, rfl⟩ := eq_completion_of_exec h
  exact ⟨hstatus, herr, hshow.pad rfl, hend.put.bbuf, hend.put.bitLen⟩

theorem hwalk_leaves {o : Option Cause × List Byte} (h : exec .hwalk s = .next t)
    (ho : hwalkOutcome s.params s.regs.nsym (codeList s.mems.ct) (bbufBits s) = o) :
    t.regs.status = statusOf o.1 ∧ t.regs.errcode = errcodeOf o.1 ∧ PutDst s o.2 t := by
  subst ho
  obtain ⟨hstatus, herr, -⟩ := exec_shows h
  obtain ⟨-, hend⟩ := hwalkBody_ends (s := startCommand .hwalk s) rfl
  obtain ⟨q, rfl⟩ := eq_completion_of_exec h
  exact ⟨hstatus, herr, hend.put.dst, hend.put.dstLen⟩

theorem hdec_leaves {o : Option Cause × Output} (h : exec .hdec s = .next t)
    (ho : hdecOutcome s.params s.regs.nsym (codeList s.mems.ct) (srcBytes s) = o) :
    t.regs.status = statusOf o.1 ∧ t.regs.errcode = errcodeOf o.1 ∧ t.regs.pad = o.2.pad ∧
      PutBits (startCommand .hdec s) o.2.bits t ∧ PutDst s o.2.dst t := by
  subst ho
  obtain ⟨hstatus, herr, -⟩ := exec_shows h
  obtain ⟨-, hend⟩ := hdecBody_ends (s := startCommand .hdec s) rfl rfl rfl
  obtain ⟨q, rfl⟩ := eq_completion_of_exec h
  exact ⟨hstatus, herr, hend.pad, ⟨hend.putBits.bbuf, hend.putBits.bitLen⟩, hend.putDst.dst, hend.putDst.dstLen⟩

/-- HWALK whose table passes ends as its walk does. -/
theorem hwalk_leaves_walk {o : Option Cause × List Byte} (h : exec .hwalk s = .next t)
    (hlen : s.regs.bitLen ≤ s.params.bitCap) (hp : tablePasses (codeList s.mems.ct) = true)
    (ho : walkOutcome s.params.dstCap s.regs.nsym (codeList s.mems.ct) (bbufBits s) = o) :
    t.regs.status = statusOf o.1 ∧ t.regs.errcode = errcodeOf o.1 ∧ PutDst s o.2 t :=
  hwalk_leaves h ((hwalkOutcome_of_passes (by rwa [length_bbufBits]) hp).trans ho)

/-- What HWALK leaves of the memories when it has written nothing. -/
theorem mems_of_hwalk_nil (h : exec .hwalk s = .next t) (hput : PutDst s [] t) : t.mems = s.mems := by
  obtain ⟨-, -, -, -, -, -, hsrc, hbbuf, hct, -⟩ := hwalkAndRledFrame.1 s t h
  rw [show t.mems = ⟨t.mems.src, t.mems.dst, t.mems.bbuf, t.mems.ct⟩ from rfl, hsrc, hbbuf, hct, hput.dst]
  rfl

/-- HDEC with a failing table leaves no output (R105). -/
theorem hdec_leaves_badTable (h : exec .hdec s = .next t) (hlen : s.regs.srcLen ≤ s.params.srcCap)
    (hp : tablePasses (codeList s.mems.ct) = false) :
    t.regs.status = 0x06#8 ∧ t.regs.errcode = 5#8 ∧ t.regs.pad = 0#8 ∧ t.regs.bitLen = 0 ∧ t.regs.dstLen = 0 ∧
      t.mems.dst = s.mems.dst ∧
      ∀ a, (Memory.read t.mems.bbuf a).map BitCell.bit = (Memory.read s.mems.bbuf a).map BitCell.bit := by
  obtain ⟨hstatus, herr, hpad, hbits, hdst⟩ :=
    hdec_leaves h (hdecOutcome_of_badTable (by rwa [length_srcBytes]) hp)
  exact ⟨hstatus, herr, hpad, hbits.bitLen, hdst.dstLen, hdst.dst,
    fun a => (hbits.above_stale rfl (by rw [hbits.bitLen]; exact Nat.zero_le a)).1⟩

end

end Sys2Proof.Machine

/-! ## HWALK (O28, O29, O30) -/

namespace Sys2Proof.Machine

theorem bbufBits_eq_nil {s : State} (h : s.regs.bitLen = 0) : bbufBits s = [] :=
  List.eq_nil_of_length_eq_zero ((length_bbufBits s).trans h)

/-- Settles O29: the three branches of the degenerate walk's outcome. -/
theorem hwalkDegenerateTable : Obligations.HwalkDegenerateTable := by
  intro s b hlen hd
  have hexec := exec_eq_finish .hwalk s
  have hp := tablePasses_of_degenerate hd
  refine ⟨_, hexec, fun hzero hfits => ?_, fun hbits => ?_, fun hzero hover => ?_⟩
  · obtain ⟨hstatus, herr, hput⟩ := hwalk_leaves_walk hexec hlen hp
      (bbufBits_eq_nil hzero ▸ walkOutcome_of_noBits hd hfits)
    exact ⟨hstatus, herr, hput.dstLen.trans List.length_replicate, hput.out.trans List.map_replicate⟩
  · obtain ⟨hstatus, herr, hput⟩ := hwalk_leaves_walk hexec hlen hp
      (walkOutcome_of_bits hd fun hnil => hbits (by rw [← length_bbufBits, hnil, List.length_nil]))
    exact ⟨hstatus, herr, hput.dstLen, mems_of_hwalk_nil hexec hput⟩
  · obtain ⟨hstatus, herr, hput⟩ := hwalk_leaves_walk hexec hlen hp
      (bbufBits_eq_nil hzero ▸ walkOutcome_of_tooManyCopies hd hover)
    exact ⟨hstatus, herr, hput.dstLen.trans List.length_replicate, hput.out.trans List.map_replicate⟩

/-- Settles O30: an output that fits is the greedy match's, and so is the fault (`walkOutcome_of_greedy`). -/
theorem hwalkIsGreedyMatch : Obligations.HwalkIsGreedyMatch := by
  intro s hlen hp hd hfits
  have hexec := exec_eq_finish .hwalk s
  obtain ⟨hstatus, herr, hput⟩ := hwalk_leaves_walk hexec hlen hp (walkOutcome_of_greedy hd hfits)
  refine ⟨_, hexec, hput.dstLen, hput.out, fun hend => ?_, fun hend => ?_⟩
  · rw [if_pos hend] at hstatus herr
    exact ⟨hstatus, herr⟩
  · rw [if_neg hend] at hstatus herr
    exact ⟨hstatus, herr⟩

/-- HWALK with an ordinary table decodes a concatenation of codes that fits (R109). -/
theorem hwalk_of_decodes {s t : State} {out : List Byte} (hexec : exec .hwalk s = .next t)
    (hlen : s.regs.bitLen ≤ s.params.bitCap) (hp : tablePasses (codeList s.mems.ct) = true)
    (hd : degenerateByte (codeList s.mems.ct) = none) (h : Decodes (codeList s.mems.ct) (bbufBits s) out)
    (hfits : out.length ≤ s.params.dstCap) :
    t.regs.status = 0x02#8 ∧ t.regs.errcode = 0#8 ∧ t.regs.progress = s.regs.bitLen ∧
      t.regs.dstLen = out.length ∧ dstOut t = out.map some := by
  obtain ⟨hstatus, herr, hput⟩ :=
    hwalk_leaves_walk hexec hlen hp (walkOutcome_of_decodes (prefixFree_codeList hp hd) hd h hfits)
  exact ⟨hstatus, herr, progress_of_success hexec hstatus, hput.dstLen, hput.out⟩

/-- HWALK with a degenerate table succeeds exactly where there are no bits and the copies fit (R109). -/
theorem hwalk_degenerate_status_iff {s t : State} {b : Byte} (hexec : exec .hwalk s = .next t)
    (hlen : s.regs.bitLen ≤ s.params.bitCap) (hd : degenerateByte (codeList s.mems.ct) = some b) :
    t.regs.status = 0x02#8 ↔ s.regs.bitLen = 0 ∧ s.regs.nsym ≤ s.params.dstCap := by
  obtain ⟨t', hexec', hok, hbits, hover⟩ := hwalkDegenerateTable s b hlen hd
  cases hexec.symm.trans hexec'
  refine ⟨fun hstatus => ?_, fun ⟨hzero, hfits⟩ => (hok hzero hfits).1⟩
  by_contra hne
  have hfault : t.regs.status = 0x06#8 := by
    by_cases hzero : s.regs.bitLen = 0
    · exact (hover hzero (Nat.lt_of_not_le fun hfits => hne ⟨hzero, hfits⟩)).1
    · exact (hbits hzero).1
  exact statusOk_ne_fault (hstatus.symm.trans hfault)

/-- Settles O28: the ordinary walk succeeds on what `Decodes` has (`hwalk_of_decodes`) and on nothing else
(`decodes_of_walkOutcome`); `Decodes` is a function because the greedy match is (`greedy_of_decodes`). -/
theorem hwalkDecodesConcatenation : Obligations.HwalkDecodesConcatenation := by
  refine ⟨fun s hlen hp hd => ?_, fun s b hlen hd => ?_⟩
  · have hexec := exec_eq_finish .hwalk s
    refine ⟨_, hexec, ⟨fun hok => ?_, fun ⟨out, h, hfits⟩ => (hwalk_of_decodes hexec hlen hp hd h hfits).1⟩,
      fun out => hwalk_of_decodes hexec hlen hp hd, fun bits out out' h h' => ?_⟩
    · obtain ⟨hstatus, -⟩ := hwalk_leaves_walk hexec hlen hp rfl
      exact decodes_of_walkOutcome hd (statusOf_eq_ok (hstatus.symm.trans hok))
    · have g := prefixFree_codeList hp hd
      exact congrArg Prod.fst ((greedy_of_decodes g h).symm.trans (greedy_of_decodes g h'))
  · obtain ⟨t, hexec, hdone, -⟩ := hwalkDegenerateTable s b hlen hd
    have hiff := hwalk_degenerate_status_iff hexec hlen hd
    refine ⟨t, hexec, hiff, fun hok => ?_⟩
    obtain ⟨hzero, hfits⟩ := hiff.1 hok
    exact (hdone hzero hfits).2.2.2

end Sys2Proof.Machine

/-! ## The table check (O33) -/

namespace Sys2Proof.Machine

/-- Settles O33: the cause is `E_BAD_TABLE` exactly where the table fails, by the two outcomes, and a failing table is
what R100 says (`tablePasses_codeList_eq_false_iff`). -/
theorem badTableFaults : Obligations.BadTableFaults := by
  intro s bad
  have hbad : tablePasses (codeList s.mems.ct) = false ↔ bad := tablePasses_codeList_eq_false_iff s.mems.ct
  refine ⟨fun hlen => ?_, fun hlen => ?_⟩
  · have hexec := exec_eq_finish .hwalk s
    have hlen : (bbufBits s).length ≤ s.params.bitCap := by rwa [length_bbufBits]
    refine ⟨_, hexec, ?_, fun h => ?_⟩
    · obtain ⟨-, herr, -⟩ := hwalk_leaves hexec rfl
      rw [herr, errcodeOf_eq_badTable_iff, hwalkOutcome_eq_badTable_iff hlen, hbad]
    · obtain ⟨hstatus, -, hput⟩ := hwalk_leaves hexec (hwalkOutcome_of_badTable hlen (hbad.2 h))
      exact ⟨hstatus, hput.dstLen, mems_of_hwalk_nil hexec hput⟩
  · have hexec := exec_eq_finish .hdec s
    refine ⟨_, hexec, ?_, fun h => ?_⟩
    · obtain ⟨-, herr, -⟩ := hdec_leaves hexec rfl
      rw [herr, errcodeOf_eq_badTable_iff, hdecOutcome_eq_badTable_iff (by rwa [length_srcBytes]), hbad]
    · obtain ⟨hstatus, -, hpad, hbitLen, hdstLen, hdst, hbits⟩ := hdec_leaves_badTable hexec hlen (hbad.2 h)
      obtain ⟨hsrc, hct, -⟩ := noCommandWritesItsOperands .hdec s _ hexec
      refine ⟨hstatus, hdstLen, hbitLen, hpad, ?_, hbits⟩
      change _ = Mems.mk s.mems.src s.mems.dst _ s.mems.ct
      rw [← hsrc, ← hdst, ← hct]

end Sys2Proof.Machine

/-! ## HDEC (O34, O35, O37, O39) -/

namespace Sys2Proof.Machine

/-- Settles O34: HDEC's outcome is UNPACK's, and where UNPACK succeeds HWALK's on its bits
(`hdecOutcome_of_unpackFault`, `hdecOutcome_of_unpacked`); the memories are what those outcomes put there. -/
theorem hdecIsUnpackThenHwalk : Obligations.HdecIsUnpackThenHwalk := by
  intro s t u w ht hu hw
  refine ⟨fun hp => ?_, fun hp hlen => (hdec_leaves_badTable ht hlen hp).2⟩
  rcases ho : unpackBodyOutcome s.params (srcBytes s) with ⟨_ | c, bits⟩ <;>
    obtain ⟨hustatus, huerr, hupad, hubits⟩ := unpack_leaves hu ho
  case none =>
    refine ⟨fun hfault => absurd (hustatus.symm.trans hfault) statusOk_ne_fault, fun _ => ?_⟩
    obtain ⟨htstatus, hterr, htpad, htbits, htdst⟩ := hdec_leaves ht (hdecOutcome_of_unpacked hp ho)
    obtain ⟨hwstatus, hwerr, hwdst⟩ := hwalk_leaves hw rfl
    obtain ⟨huparams, -, -, -, hunsym, -, hudst, huct, -⟩ := unpackFrame s u hu
    obtain ⟨-, -, -, hwbitLen, -, hwpad, -, hwbbuf, -⟩ := hwalkAndRledFrame.1 u w hw
    rw [bbufBits_of_bbuf hubits.bbuf hubits.bitLen, huparams, hunsym, huct] at hwstatus hwerr hwdst
    exact ⟨htstatus.trans hwstatus.symm, hterr.trans hwerr.symm, htpad.trans (hwpad.trans hupad).symm,
      htbits.bbuf.trans (hwbbuf.trans hubits.bbuf).symm, htbits.bitLen.trans (hwbitLen.trans hubits.bitLen).symm,
      htdst.dst.trans (hudst ▸ hwdst.dst).symm, htdst.dstLen.trans hwdst.dstLen.symm⟩
  case some =>
    obtain ⟨htstatus, hterr, -⟩ := hdec_leaves ht (hdecOutcome_of_unpackFault hp ho)
    exact ⟨fun _ => ⟨htstatus, hterr.trans huerr.symm⟩,
      fun hok => absurd (hok.symm.trans hustatus) statusOk_ne_fault⟩

/-- A fault of HDEC's unpacking: nothing has been written to DST (R105). -/
theorem hdec_of_unpackFault {s t : State} {c : Cause} {bits : Bits} (h : exec .hdec s = .next t)
    (hp : tablePasses (codeList s.mems.ct) = true) (ho : unpackBodyOutcome s.params (srcBytes s) = (some c, bits)) :
    t.regs.status = 0x06#8 ∧ t.regs.errcode = c.code ∧ t.regs.pad = unpackPad s.params (srcBytes s) ∧
      t.regs.bitLen = bits.length ∧ t.regs.dstLen = 0 := by
  obtain ⟨hstatus, herr, hpad, hbits, hdst⟩ := hdec_leaves h (hdecOutcome_of_unpackFault hp ho)
  exact ⟨hstatus, herr, hpad, hbits.bitLen, hdst.dstLen⟩

/-- Settles O39: the check of the input length, then the branches of UNPACK's outcome in R83's order. -/
theorem hdecFaultsBeforeWalk : Obligations.HdecFaultsBeforeWalk := by
  intro s
  have hexec := exec_eq_finish .hdec s
  have hl := length_srcBytes s
  refine ⟨_, hexec, fun hlong => ?_, fun hp hempty => ?_, fun hp hcap hpos hpad => ?_, fun hp hcap hpos hover => ?_⟩
  · obtain ⟨hstatus, herr, hpad, hbits, hdst⟩ := hdec_leaves hexec (hdecOutcome_of_tooLong (hl ▸ hlong))
    exact ⟨hstatus, herr, hpad, hbits.bitLen, hdst.dstLen⟩
  · have hnil : srcBytes s = [] := List.eq_nil_of_length_eq_zero (hl.trans hempty)
    have hfault := hdec_of_unpackFault hexec hp (hnil ▸ unpackBodyOutcome_nil)
    rwa [hnil, unpackPad_of_fits (Nat.zero_le _)] at hfault
  · have houtcome := unpackBodyOutcome_of_padExceeds (hl ▸ hcap) (hl ▸ hpos) (by rwa [hl, srcBytes_getD_zero hpos])
    have hfault := hdec_of_unpackFault hexec hp houtcome
    rwa [unpackPad_srcBytes hcap hpos] at hfault
  · have houtcome := (unpackBodyOutcome_srcBytes hcap hpos (by omega)).trans
      (fitted_of_overflow (by rw [length_srcBits]; omega))
    rw [take_srcBits (by omega)] at houtcome
    have hfault := hdec_of_unpackFault hexec hp houtcome
    rwa [unpackPad_srcBytes hcap hpos, length_srcBits] at hfault

/-! ### Packed codes -/

theorem codeIn_mem {T : List (Byte × Bits)} {b : Byte} (h : ∃ c, (b, c) ∈ T) : (b, codeIn T b) ∈ T := by
  obtain ⟨c, hc⟩ := h
  unfold codeIn
  cases hf : T.find? (fun e => e.1 == b) with
  | none => exact absurd (beq_self_eq_true b) (List.find?_eq_none.1 hf (b, c) hc)
  | some e =>
    have hb : e.1 = b := by simpa using List.find?_some hf
    exact hb ▸ List.mem_of_find?_eq_some hf

theorem decodes_encodeBits {T : List (Byte × Bits)} : ∀ d : List Byte, (∀ b ∈ d, ∃ c, (b, c) ∈ T) →
    Decodes T (encodeBits T d) d
  | [], _ => .nil
  | b :: d, h => .cons b (codeIn T b) _ d (codeIn_mem (h b List.mem_cons_self))
      (decodes_encodeBits d fun x hx => h x (List.mem_cons_of_mem b hx))

theorem encodeBits_degenerate (b : Byte) (d : List Byte) : encodeBits [(b, [])] d = [] := by
  refine List.flatMap_eq_nil_iff.2 fun x _ => ?_
  unfold codeIn
  cases h : b == x <;> simp [h]

/-- The walk decodes the codes of any Bytes, with any table that passes and has those codes; a degenerate table has
them in `NSYM` alone (R104, R109). -/
theorem walkOutcome_encodeBits {cap : Nat} {ct : Memory CtEntry} {d : List Byte}
    (hp : tablePasses (codeList ct) = true) (hcodes : ∀ b ∈ d, ∃ c, (b, c) ∈ codeList ct) (hfits : d.length ≤ cap) :
    walkOutcome cap d.length (codeList ct) (encodeBits (codeList ct) d) = (none, d) := by
  cases hd : degenerateByte (codeList ct) with
  | none => exact walkOutcome_of_decodes (prefixFree_codeList hp hd) hd (decodes_encodeBits d hcodes) hfits
  | some b =>
    have hT := degenerateByte_eq_some.1 hd
    have hrep : d = List.replicate d.length b := by
      refine List.eq_replicate_of_mem fun x hx => ?_
      obtain ⟨c, hc⟩ := hcodes x hx
      rw [hT, List.mem_singleton] at hc
      exact congrArg Prod.fst hc
    rw [hT] at hd ⊢
    rw [encodeBits_degenerate, walkOutcome_of_noBits hd hfits, ← hrep]

/-- Settles O35: the payload unpacks to the codes (`unpackBodyOutcome_packBytes_of_fits`), and the walk decodes them
(`walkOutcome_encodeBits`). -/
theorem hdecDecodesPackedCodes : Obligations.HdecDecodesPackedCodes := by
  intro s d hp hcodes hsrc hnsym hcap hbits hfits
  have hexec := exec_eq_finish .hdec s
  rw [huffmanPayload] at hsrc
  have hcap : (packBytes (encodeBits (codeList s.mems.ct) d)).length ≤ s.params.srcCap := by
    rwa [← hsrc, length_srcBytes]
  have houtcome := hdecOutcome_of_unpacked (n := s.regs.nsym) hp (unpackBodyOutcome_packBytes_of_fits hcap hbits)
  rw [hwalkOutcome_of_passes hbits hp, hnsym, walkOutcome_encodeBits hp hcodes hfits, unpackPad_of_fits hcap,
    getD_zero_packBytes, ← hnsym, ← hsrc] at houtcome
  obtain ⟨hstatus, herr, hpad, hput, hdst⟩ := hdec_leaves hexec houtcome
  refine ⟨_, hexec, hstatus, herr, progress_of_success hexec hstatus, ?_, hput.out, hdst.dstLen, hdst.out⟩
  have hlt := padOf_lt (encodeBits (codeList s.mems.ct) d).length
  rw [hpad, BitVec.toNat_ofNat, Nat.mod_eq_of_lt (by omega)]

/-! ### The codes of a tree -/

theorem fst_deriveCodes (tree : HuffNode) : (deriveCodes tree).map Prod.fst = tree.bytes := by
  induction tree with
  | leaf b => rfl
  | node l r ihl ihr =>
    rw [deriveCodes, HuffNode.bytes, List.map_append, List.map_map, List.map_map, ← ihl, ← ihr]
    rfl

theorem mem_bytes_iff {tree : HuffNode} {b : Byte} : b ∈ tree.bytes ↔ ∃ c, (b, c) ∈ deriveCodes tree := by
  rw [← fst_deriveCodes, List.mem_map]
  exact ⟨fun ⟨e, he, hb⟩ => ⟨e.2, hb ▸ he⟩, fun ⟨c, hc⟩ => ⟨(b, c), hc, rfl⟩⟩

theorem mem_deriveCodes_node {l r : HuffNode} {b : Byte} {c : Bits} : (b, c) ∈ deriveCodes (.node l r) ↔
    (∃ c', (b, c') ∈ deriveCodes l ∧ false :: c' = c) ∨ ∃ c', (b, c') ∈ deriveCodes r ∧ true :: c' = c := by
  simp [deriveCodes]

/-- No path of a tree leads through a leaf (R164). -/
theorem deriveCodes_apart {tree : HuffNode} : ∀ {a b : Byte} {c d : Bits}, (a, c) ∈ deriveCodes tree →
    (b, d) ∈ deriveCodes tree → c <+: d → a = b := by
  induction tree with
  | leaf x =>
    intro a b c d hc hd _
    rw [deriveCodes, List.mem_singleton] at hc hd
    exact congrArg Prod.fst (hc.trans hd.symm)
  | node l r ihl ihr =>
    intro a b c d hc hd hpre
    rcases mem_deriveCodes_node.1 hc with ⟨c, hc', rfl⟩ | ⟨c, hc', rfl⟩ <;>
      rcases mem_deriveCodes_node.1 hd with ⟨d, hd', rfl⟩ | ⟨d, hd', rfl⟩ <;>
      obtain ⟨hbit, hpre⟩ := List.cons_prefix_cons.1 hpre
    · exact ihl hc' hd' hpre
    · cases hbit
    · cases hbit
    · exact ihr hc' hd' hpre

theorem tablePasses_deriveCodes (tree : HuffNode) : tablePasses (deriveCodes tree) = true := by
  refine (tablePasses_iff _).2 ⟨fun hnil => ?_, fun e he f hf => deriveCodes_apart he hf⟩
  induction tree with
  | leaf b => cases hnil
  | node l r ihl _ =>
    rw [deriveCodes, List.append_eq_nil_iff, List.map_eq_nil_iff] at hnil
    exact ihl hnil.1

/-! ### Two lists of the same codes -/

theorem tablePasses_congr {T U : List (Byte × Bits)} (h : ∀ e, e ∈ T ↔ e ∈ U) : tablePasses T = tablePasses U := by
  rw [Bool.eq_iff_iff, tablePasses_iff, tablePasses_iff, Ne, Ne, List.eq_nil_iff_forall_not_mem,
    List.eq_nil_iff_forall_not_mem]
  simp only [h]

/-- Codes are the same whatever order a table of one code a Byte lists them in. -/
theorem codeIn_codeList {ct : Memory CtEntry} {U : List (Byte × Bits)} (h : ∀ e, e ∈ codeList ct ↔ e ∈ U) {b : Byte}
    (hb : ∃ c, (b, c) ∈ U) : codeIn (codeList ct) b = codeIn U b := by
  have hct : (b, codeIn (codeList ct) b) ∈ codeList ct := codeIn_mem (hb.imp fun c => (h (b, c)).2)
  have hU : (b, codeIn U b) ∈ codeList ct := (h _).2 (codeIn_mem hb)
  exact congrArg Prod.snd (codeList_inj hct hU rfl)

/-- Settles O37: `CT` lists the codes of the tree, which pass the check (`tablePasses_deriveCodes`); the rest is
`hdecDecodesPackedCodes`. -/
theorem hdecInvertsHuffmanEncode : Obligations.HdecInvertsHuffmanEncode := by
  intro s d tree _ _ hbytes hcodes hsrc hnsym hcap hbits hfits
  have hsame : ∀ e, e ∈ codeList s.mems.ct ↔ e ∈ deriveCodes tree := fun e =>
    (mem_codeList s.mems.ct e.1 e.2).trans (hcodes e.1 e.2)
  have hhas : ∀ b ∈ d, ∃ c, (b, c) ∈ deriveCodes tree := fun b hb => mem_bytes_iff.1 ((hbytes b).1 hb)
  have hencode : encodeBits (codeList s.mems.ct) d = encodeBits (deriveCodes tree) d :=
    List.flatMap_congr fun b hb => codeIn_codeList hsame (hhas b hb)
  obtain ⟨t, hexec, hstatus, -, -, -, -, -, hout⟩ := hdecDecodesPackedCodes s d
    ((tablePasses_congr hsame).trans (tablePasses_deriveCodes tree))
    (fun b hb => (hhas b hb).imp fun c => (hsame (b, c)).2)
    (by rwa [huffmanPayload, hencode]) hnsym hcap (by rwa [hencode]) hfits
  exact ⟨t, hexec, hstatus, hout⟩

end Sys2Proof.Machine

/-! # The RLE family: RLED against the expansion of its pairs

RLED's outcome, and what a completed RLED leaves; from that the result (O40), the faults (O41), pairs of count 0 (O42),
and that RLED inverts the environment's encoder (O43). -/

namespace Sys2Proof.Machine

/-! ## The outcome of RLED -/

section
variable {p : Params} {B : List Byte}

theorem rledOutcome_of_tooLong (h : p.srcCap < B.length) : rledOutcome p B = (some .capacity, []) := if_pos h

theorem rledOutcome_of_odd (hcap : B.length ≤ p.srcCap) (h : B.length % 2 = 1) :
    rledOutcome p B = (some .oddLength, []) := by
  rw [rledOutcome, if_neg (Nat.not_lt.2 hcap), if_pos h]

theorem rledOutcome_of_even (hcap : B.length ≤ p.srcCap) (h : B.length % 2 = 0) :
    rledOutcome p B = fitted p.dstCap (rleExpand B) := by
  rw [rledOutcome, if_neg (Nat.not_lt.2 hcap), if_neg (by omega)]

/-- A pair of count 0 within the capacity of SRC does not change the outcome (R132). -/
theorem rledOutcome_zeroCount {v : Byte} {before after : List Byte} (heven : before.length % 2 = 0)
    (hcap : (before ++ [v, 0#8] ++ after).length ≤ p.srcCap) :
    rledOutcome p (before ++ [v, 0#8] ++ after) = rledOutcome p (before ++ after) := by
  have hexpand : rleExpand (before ++ [v, 0#8] ++ after) = rleExpand (before ++ after) := by
    rw [List.append_assoc, rleExpand_append _ before heven, rleExpand_append _ before heven]
    rfl
  have hlen : (before ++ [v, 0#8] ++ after).length = (before ++ after).length + 2 := by
    simp only [List.length_append, List.length_cons, List.length_nil]
    omega
  have hcap' : (before ++ after).length ≤ p.srcCap := by omega
  rcases Nat.mod_two_eq_zero_or_one (before ++ after).length with h | h
  · rw [rledOutcome_of_even hcap (by omega), rledOutcome_of_even hcap' h, hexpand]
  · rw [rledOutcome_of_odd hcap (by omega), rledOutcome_of_odd hcap' h]

end

/-! ## What a completed RLED leaves -/

section
variable {s t : State}

theorem rled_leaves {o : Option Cause × List Byte} (h : exec .rled s = .next t)
    (ho : rledOutcome s.params (srcBytes s) = o) :
    t.regs.status = statusOf o.1 ∧ t.regs.errcode = errcodeOf o.1 ∧ PutDst s o.2 t := by
  subst ho
  obtain ⟨hstatus, herr, -⟩ := exec_shows h
  obtain ⟨-, hend⟩ := rledBody_ends (s := startCommand .rled s) rfl
  obtain ⟨q, rfl⟩ := eq_completion_of_exec h
  exact ⟨hstatus, herr, hend.put.dst, hend.put.dstLen⟩

/-- RLED of whole pairs within the capacity of SRC writes their expansion, or as much of it as fits (R130, R131). -/
theorem rled_leaves_expansion {o : Option Cause × List Byte} (h : exec .rled s = .next t)
    (hcap : s.regs.srcLen ≤ s.params.srcCap) (heven : s.regs.srcLen % 2 = 0)
    (ho : fitted s.params.dstCap (rleExpand (srcBytes s)) = o) :
    t.regs.status = statusOf o.1 ∧ t.regs.errcode = errcodeOf o.1 ∧ PutDst s o.2 t := by
  rw [← length_srcBytes s] at hcap heven
  exact rled_leaves h ((rledOutcome_of_even hcap heven).trans ho)

/-- What RLED leaves of the memories when it has written nothing. -/
theorem mems_of_rled_nil (h : exec .rled s = .next t) (hput : PutDst s [] t) : t.mems = s.mems := by
  obtain ⟨-, -, -, -, -, -, hsrc, hbbuf, hct, -⟩ := hwalkAndRledFrame.2 s t h
  rw [show t.mems = ⟨t.mems.src, t.mems.dst, t.mems.bbuf, t.mems.ct⟩ from rfl, hsrc, hbbuf, hct, hput.dst]
  rfl

end

/-! ## The length of the expansion -/

theorem srcBytes_getD {s : State} {i : Nat} (h : i < s.regs.srcLen) : (srcBytes s).getD i 0#8 = srcRead s i := by
  rw [List.getD_eq_getElem _ _ (by rwa [length_srcBytes]), srcBytes_getElem]

/-- The expansion of the pairs in SRC is as long as the sum of their counts (R131). -/
theorem length_rleExpand_srcBytes {s : State} (heven : s.regs.srcLen % 2 = 0) :
    (rleExpand (srcBytes s)).length = ∑ k ∈ Finset.range (s.regs.srcLen / 2), (srcRead s (2 * k + 1)).toNat := by
  rw [length_rleExpand _ (by rwa [length_srcBytes]), length_srcBytes]
  refine Finset.sum_congr rfl fun k hk => ?_
  have hlt := Finset.mem_range.1 hk
  rw [srcBytes_getD (by omega)]

theorem sum_toNat_le (f : Nat → Byte) (m : Nat) : (∑ k ∈ Finset.range m, (f k).toNat) ≤ 255 * m := by
  have hle := Finset.sum_le_card_nsmul (Finset.range m) (fun k => (f k).toNat) 255
    fun k _ => Nat.le_of_lt_succ (f k).isLt
  rwa [Finset.card_range, smul_eq_mul, Nat.mul_comm] at hle

/-! ## The results -/

/-- Settles O40: an expansion that fits is written whole (`rled_leaves_expansion`); its length is the sum of the counts
(`length_rleExpand_srcBytes`). -/
theorem rledExpandsPairs : Obligations.RledExpandsPairs := by
  intro s hcap heven hfits
  have hexec := exec_eq_finish .rled s
  obtain ⟨hstatus, herr, hput⟩ := rled_leaves_expansion hexec hcap heven (fitted_of_fits hfits)
  have hlen := hput.dstLen.trans (length_rleExpand_srcBytes heven)
  exact ⟨_, hexec, hstatus, herr, progress_of_success hexec hstatus, hput.out, hlen,
    hlen.trans_le (sum_toNat_le _ _)⟩

/-- Settles O41: the three branches of RLED's outcome that raise, in R130's order. -/
theorem rledFaults : Obligations.RledFaults := by
  intro s
  have hexec := exec_eq_finish .rled s
  have hl := length_srcBytes s
  refine ⟨_, hexec, fun hlong => ?_, fun hcap hodd => ?_, fun hcap heven hover => ?_⟩
  · obtain ⟨hstatus, herr, hput⟩ := rled_leaves hexec (rledOutcome_of_tooLong (hl ▸ hlong))
    exact ⟨hstatus, herr, hput.dstLen, mems_of_rled_nil hexec hput⟩
  · obtain ⟨hstatus, herr, hput⟩ := rled_leaves hexec (rledOutcome_of_odd (hl ▸ hcap) (hl ▸ hodd))
    exact ⟨hstatus, herr, hput.dstLen, mems_of_rled_nil hexec hput⟩
  · obtain ⟨hstatus, herr, hput⟩ := rled_leaves_expansion hexec hcap heven (fitted_of_overflow hover)
    exact ⟨hstatus, herr, hput.dstLen.trans (List.length_take_of_le hover.le), hput.out⟩

/-- Settles O42: RLED has one outcome with the pair and without it (`rledOutcome_zeroCount`). -/
theorem zeroCountPairVanishes : Obligations.ZeroCountPairVanishes := by
  intro s s' v before after heven hparams hB hB' hcap
  have hexec := exec_eq_finish .rled s
  have hexec' := exec_eq_finish .rled s'
  rw [← length_srcBytes s, hB] at hcap
  have houtcome : rledOutcome s.params (srcBytes s) = rledOutcome s'.params (srcBytes s') := by
    rw [hB, hB', ← hparams, rledOutcome_zeroCount heven hcap]
  obtain ⟨hstatus, herr, hput⟩ := rled_leaves hexec houtcome
  obtain ⟨hstatus', herr', hput'⟩ := rled_leaves hexec' rfl
  exact ⟨_, _, hexec, hexec', hstatus.trans hstatus'.symm, herr.trans herr'.symm, hput.out.trans hput'.out.symm⟩

/-! ## RLED inverts the encoder (O43) -/

theorem length_rleEncode_mod_two : ∀ d : List Byte, (rleEncode d).length % 2 = 0
  | [] => rfl
  | x :: xs => (rleExpand_rleRuns xs x 1 (by decide)).2

/-- The expansion undoes the encoder (R168). -/
theorem rleExpand_rleEncode : ∀ d : List Byte, rleExpand (rleEncode d) = d
  | [] => rfl
  | x :: xs => (rleExpand_rleRuns xs x 1 (by decide)).1

/-- Settles O43: the encoder writes whole pairs, so RLED completes with their expansion (`rledExpandsPairs`), which
gives the Bytes back (`rleExpand_rleEncode`, by induction over the runs in `rleExpand_rleRuns`). -/
theorem rledInvertsRleEncode : Obligations.RledInvertsRleEncode := by
  intro s d hB hcap hfits
  have heven : s.regs.srcLen % 2 = 0 := by rw [← length_srcBytes s, hB, length_rleEncode_mod_two]
  have hexpand : rleExpand (srcBytes s) = d := by rw [hB, rleExpand_rleEncode]
  obtain ⟨t, hexec, hstatus, -, -, hout, -⟩ := rledExpandsPairs s hcap heven (by rwa [hexpand])
  rw [hexpand] at hout
  exact ⟨t, hexec, hstatus, dstLen_of_dstOut hout, hout⟩

end Sys2Proof.Machine

/-! # The host family: what the host's acts do to an idle block, and to a busy one

First the write of `CMD` (O6, O7, O53), then the other acts on an idle block (O11, O12, O14, O15), then those on a busy
one (O16) and the `wait` that outlasts a command (O18). -/

/-! ## The write of `CMD` (O6, O7, O53) -/

namespace Sys2Proof.Machine

section
variable {s : State}

theorem events_popEvent {e : Event} {es : List Event} (he : s.host.events = e :: es) :
    (popEvent s).host.events = es :=
  congrArg List.tail he

theorem popEvent_of_cons {e : Event} {es : List Event} (he : s.host.events = e :: es) :
    popEvent s = { s with host := { s.host with events := es } } := by
  rw [← events_popEvent he]
  rfl

/-- The step of a write of `CMD` to an idle block, whatever the word (R145). -/
theorem step_of_cmdWrite {v : Nat} {es : List Event} (hb : s.busy = false) (he : s.host.events = .hwr 0 v :: es) :
    step s = startWord (BitVec.ofNat 8 v) (popEvent s) := by
  simp only [step, hb, he, Bool.false_eq_true, if_false]

/-- Clearing bit 0 of STATUS makes the block idle (R12). -/
theorem busy_withFetchWord (s : State) (n w : Nat) : (s.withFetchWord n w).busy = false := by
  have hbit : (s.regs.status &&& 0xFE#8).getLsbD 0 = (s.regs.status.getLsbD 0 && false) := BitVec.getLsbD_and
  exact hbit.trans (Bool.and_false _)

end

/-- Settles O6: the step of a command's write (`step_of_command`), with the plan written out. -/
theorem stepRunsDecodedCommand : Obligations.StepRunsDecodedCommand := by
  intro s v es i hb he h0 hd
  rw [step_of_command hb he h0 hd, popEvent_of_cons he]
  rfl

/-- Settles O7: the planned word is the command's (`decodeTableWord_eq_some_iff`), and its step takes off the host's
lists what `withFetchWord` put there. -/
theorem fetchedWordIsRun : Obligations.FetchedWordIsRun := by
  intro s n w i hw
  obtain ⟨-, rfl⟩ := decodeTableWord_eq_some_iff.1 hw
  have hword : BitVec.ofNat 8 ((encode i).toNat % 256) = encode i := by
    rw [Nat.mod_eq_of_lt (encode i).isLt, BitVec.ofNat_toNat, BitVec.setWidth_eq]
  exact step_of_command (busy_withFetchWord s n _) rfl rfl (by rw [hword, decode_encode])

/-- Settles O53: both writes start the same word, on the same rest of the plan. -/
theorem wideCmdWriteIsCut : Obligations.WideCmdWriteIsCut := by
  intro s v es hb he
  have hword : BitVec.ofNat 8 (v % 256) = BitVec.ofNat 8 v := BitVec.eq_of_toNat_eq (by simp)
  rw [step_of_cmdWrite hb he, ← hword, popEvent_of_cons he]
  symm
  exact step_of_cmdWrite (es := es) hb rfl

/-! ## The registers of an idle block (O11, O12) -/

/-- The nine registers in the order of their numbers, and 0 for a reserved number (R20, R141). -/
theorem readReg_eq_getD : ∀ (r : Nat) (s : State), readReg r s =
    ([s.regs.cmd.toNat, s.regs.status.toNat, s.regs.errcode.toNat, s.regs.srcLen, s.regs.dstLen, s.regs.bitLen,
      s.regs.nsym, s.regs.pad.toNat, s.regs.progress] : List Nat).getD r 0
  | 0, _ | 1, _ | 2, _ | 3, _ | 4, _ | 5, _ | 6, _ | 7, _ | 8, _ => rfl
  | r + 9, s => readReg_reserved (Nat.le_add_left 9 r) s

/-- A write of a length register, cut to `LENW` bits (R142). -/
theorem writeReg_of_length {r : Nat} (h : r = 3 ∨ r = 5 ∨ r = 6) (v : Nat) (s : State) :
    writeReg r v s = s.updRegs fun g => { g with
      srcLen := if r = 3 then v % 2 ^ s.params.lenw else g.srcLen
      bitLen := if r = 5 then v % 2 ^ s.params.lenw else g.bitLen
      nsym := if r = 6 then v % 2 ^ s.params.lenw else g.nsym } := by
  rcases h with rfl | rfl | rfl <;> rfl

/-- Settles O11: the step is the read, and the value is the register's (`readReg_eq_getD`). -/
theorem idleHostReadsRegister : Obligations.IdleHostReadsRegister := by
  intro s r es hb he
  refine ⟨_, step_of_event hb he nofun, (sameBlock_popEvent s).trans (sameBlock_note _ _), events_popEvent he, ?_⟩
  rw [idleEvent, readReg_eq_getD]
  rfl

/-- Settles O12: the step is the write, of one of the three length registers (`writeReg_of_length`). -/
theorem idleHostWritesLengthRegister : Obligations.IdleHostWritesLengthRegister := by
  intro s r v es hb he hr
  refine ⟨_, step_of_event hb he ?_, ?_⟩
  · rintro _ ⟨⟩
    omega
  · rw [idleEvent, writeReg_of_length hr]
    exact ⟨events_popEvent he, rfl, rfl, rfl, rfl⟩

/-! ## The memories of an idle block (O14, O15) -/

section
variable {s : State} {i : Nat}

theorem srcValue_of_written {u : Byte} (hi : i < s.params.srcCap) (h : Memory.read s.mems.src i = some u) :
    srcValue s i = some u :=
  (if_pos hi).trans h

theorem dstValue_of_written {u : Byte} (hi : i < s.params.dstCap) (hl : i < s.regs.dstLen)
    (h : Memory.read s.mems.dst i = some u) : dstValue s i = some u :=
  (if_pos ⟨hi, hl⟩).trans h

theorem bbufValue_of_live {c : BitCell} (hi : i < s.params.bitCap) (h : Memory.read s.mems.bbuf i = some c)
    (hlive : c.live = true) : bbufValue s i = some c.bit := by
  rw [bbufValue, if_pos hi, liveBit, h]
  exact if_pos hlive

theorem ctRead_of_written {f : CtEntry} (h : Memory.read s.mems.ct i = some f) : ctRead s i = f := by
  rw [ctRead, h, Option.getD_some]

/-- An entry nothing has written has `V = 0` (R32). -/
theorem v_ctRead_of_unwritten (h : Memory.read s.mems.ct i = none) : (ctRead s i).v = false := by
  rw [ctRead, h, Option.getD_none]

end

/-- Settles O14: the step is the read, and each memory's read is its element where there is one. -/
theorem idleHostReadsMemory : Obligations.IdleHostReadsMemory := by
  intro s m i es hb he
  refine ⟨_, peek m i (popEvent s), step_of_event hb he nofun, (sameBlock_popEvent s).trans (sameBlock_note _ _),
    events_popEvent he, rfl, ?_, ?_, ?_, ?_⟩
  · rintro rfl
    refine ⟨_, rfl, fun hi u hu => ?_⟩
    rw [srcValue_of_written (s := popEvent s) hi hu, Option.getD_some]
  · rintro rfl
    refine ⟨_, rfl, fun hi hl u hu => ?_⟩
    rw [dstValue_of_written (s := popEvent s) hi hl hu, Option.getD_some]
  · rintro rfl
    refine ⟨_, rfl, fun hi c hc hlive => ?_⟩
    rw [bbufValue_of_live (s := popEvent s) hi hc hlive, Option.getD_some]
  · rintro rfl
    refine ⟨_, rfl, fun hi => ?_⟩
    rw [if_pos hi]
    exact ⟨fun f => ctRead_of_written (s := popEvent s), v_ctRead_of_unwritten (s := popEvent s)⟩

/-- What `mwr SRC[i], v` does: the element below the capacity, and nothing else (R144). -/
theorem writeSrc_spec (i : Nat) (v : Byte) (s : State) :
    let t := writeSrc i v s
    t.regs = s.regs ∧ t.params = s.params ∧ t.work = s.work ∧ t.mems.dst = s.mems.dst ∧ t.mems.bbuf = s.mems.bbuf ∧
      t.mems.ct = s.mems.ct ∧
      ∀ a, Memory.read t.mems.src a = if a = i ∧ i < s.params.srcCap then some v else Memory.read s.mems.src a := by
  unfold writeSrc
  split
  case isTrue hi => exact ⟨rfl, rfl, rfl, rfl, rfl, rfl, fun a => by simp [read_write, hi]⟩
  case isFalse hi => exact ⟨rfl, rfl, rfl, rfl, rfl, rfl, fun a => by simp [hi]⟩

/-- What `mwr BBUF[i], v` does: the element below the capacity takes the value, and nothing else changes (R144). -/
theorem writeBbuf_spec (i : Nat) (v : Bool) (s : State) :
    let t := writeBbuf i v s
    t.regs = s.regs ∧ t.params = s.params ∧ t.work = s.work ∧ t.mems.src = s.mems.src ∧ t.mems.dst = s.mems.dst ∧
      t.mems.ct = s.mems.ct ∧
      ∀ a, liveBit t.mems.bbuf a = if a = i ∧ i < s.params.bitCap then some v else liveBit s.mems.bbuf a := by
  unfold writeBbuf
  split
  case isTrue hi => exact ⟨rfl, rfl, rfl, rfl, rfl, rfl, fun a => by simp [liveBit_write, hi]⟩
  case isFalse hi => exact ⟨rfl, rfl, rfl, rfl, rfl, rfl, fun a => by simp [hi]⟩

/-- What `mwr CT[i], f` does: the whole entry below 256, and nothing else (R144). -/
theorem writeCt_spec (i : Nat) (f : CtEntry) (s : State) :
    let t := writeCt i f s
    t.regs = s.regs ∧ t.params = s.params ∧ t.work = s.work ∧ t.mems.src = s.mems.src ∧ t.mems.dst = s.mems.dst ∧
      t.mems.bbuf = s.mems.bbuf ∧
      ∀ a, Memory.read t.mems.ct a = if a = i ∧ i < 256 then some f else Memory.read s.mems.ct a := by
  unfold writeCt
  split
  case isTrue hi => exact ⟨rfl, rfl, rfl, rfl, rfl, rfl, fun a => by simp [read_write, hi]⟩
  case isFalse hi => exact ⟨rfl, rfl, rfl, rfl, rfl, rfl, fun a => by simp [hi]⟩

/-- Settles O15: the step is the write, one spec lemma per memory; a write of DST is no write. -/
theorem idleHostWritesMemory : Obligations.IdleHostWritesMemory := by
  intro s e es hb he
  refine ⟨?_, ?_, ?_, ?_⟩
  · rintro i v rfl
    exact ⟨_, step_of_event hb he nofun, writeSrc_spec i v (popEvent s)⟩
  · rintro i v rfl
    exact ⟨_, step_of_event hb he nofun, sameBlock_popEvent s⟩
  · rintro i v rfl
    exact ⟨_, step_of_event hb he nofun, writeBbuf_spec i v (popEvent s)⟩
  · rintro i f rfl
    exact ⟨_, step_of_event hb he nofun, writeCt_spec i f (popEvent s)⟩

/-! ## A turn of the host while the block is busy (O16) -/

section
variable {s : State}

theorem busyTurn_of_cons {e : Event} {es : List Event} (he : s.host.events = e :: es) :
    busyTurn s = busyEvent e (tickBusy (popEvent s)) := by
  simp only [busyTurn, he]

theorem exists_busyTime_of_busyFor {n : Nat} (h : busyFor s = n + 1) : ∃ ts, s.host.busyTime = (n + 1) :: ts := by
  cases ht : s.host.busyTime with
  | nil =>
    rw [busyFor, ht] at h
    cases h
  | cons m ts => exact ⟨ts, by rw [← h, busyFor_of_cons ht]⟩

/-- A turn of the host uses up one of the command's turns. -/
theorem busyFor_busyTurn {n : Nat} (h : busyFor s = n + 1) (hr : s.host.events.head? ≠ some .reset) :
    busyFor (busyTurn s) = n := by
  obtain ⟨ts, hts⟩ := exists_busyTime_of_busyFor h
  exact busyFor_of_cons (busyTime_busyTurn hts hr)

end

/-- STATUS reads as it is while busy, and `wait` is one such read (R72, R146). -/
theorem seen_busyEvent_status {e : Event} (h : e = .hrd 1 ∨ e = .wait) (s : State) :
    (busyEvent e s).host.seen = .reg 1 s.regs.status.toNat :: s.host.seen := by
  rcases h with rfl | rfl <;> rfl

theorem busyEvent_progress (s : State) : busyEvent (.hrd 8) s = noteProgress (busyProgress s) s := rfl

theorem lastProgress_busyReadReg {r : Nat} (h : r ≠ 8) (s : State) :
    (busyReadReg r s).host.lastProgress = s.host.lastProgress := by
  unfold busyReadReg
  split
  case h_2 => contradiction
  all_goals rfl

/-- Only a read of PROGRESS changes the host's record of it. -/
theorem lastProgress_busyEvent {e : Event} (h : e ≠ .hrd 8) (s : State) :
    (busyEvent e s).host.lastProgress = s.host.lastProgress := by
  cases e with
  | hrd r => exact lastProgress_busyReadReg (fun hr => h (congrArg Event.hrd hr)) s
  | hwr | mrd | mwrSrc | mwrDst | mwrBbuf | mwrCt | wait | reset => rfl

/-- Settles O16: the block stays (`sameBlock_busyTurn`), a turn passes (`busyFor_busyTurn`), and a read of PROGRESS lies
between the last one and the number of source elements (`busyProgress`). -/
theorem busyHostCannotDisturb : Obligations.BusyHostCannotDisturb := by
  intro s n e es hs hn he hne
  have hb : s.busy = true := busy_of_status hs (by decide)
  have hhead : s.host.events.head? ≠ some .reset := by simpa [he] using hne
  refine ⟨busyTurn s, step_of_turn hb (hn ▸ Nat.succ_ne_zero n), sameBlock_busyTurn hhead,
    busyFor_busyTurn hn hhead, ?_⟩
  rw [busyTurn_of_cons he]
  refine ⟨fun hstatus => ?_, ?_, fun hother => lastProgress_busyEvent hother _⟩
  · rw [seen_busyEvent_status hstatus]
    show Seen.reg 1 s.regs.status.toNat :: s.host.seen = _
    rw [hs]
    rfl
  · rintro rfl
    have hcount : runningCount s = runningCount (tickBusy (popEvent s)) :=
      sameBlock.runningCount_eq ⟨rfl, rfl, rfl, rfl, rfl⟩
    rw [busyEvent_progress, hcount]
    exact ⟨rfl, lastProgress_le_busyProgress (tickBusy (popEvent s)),
      busyProgress_le_runningCount (s := tickBusy (popEvent s))⟩

/-! ## Every wait ends (O18) -/

theorem busy_finishRunning (s : State) : (finishRunning s).busy = false := by
  unfold finishRunning
  split
  · exact busy_finishCommand _ s
  · exact busy_takeFault _ _ s

@[simp] theorem host_finishRunning (s : State) : (finishRunning s).host = s.host := by
  unfold finishRunning
  split
  · exact host_finishCommand _ s
  · rfl

section
variable {s : State} {es : List Event}

/-- BUSY is bit 0 of STATUS (R12). -/
theorem status_even_of_idle (hb : s.busy = false) : s.regs.status.toNat % 2 = 0 := by
  rw [State.busy, BitVec.getLsbD, Nat.testBit_zero, decide_eq_false_iff_not] at hb
  omega

/-- A `wait` is over: the block is idle, the plan goes on with `es`, and the last read of STATUS shows `BUSY = 0`
(R147). -/
def WaitOver (es : List Event) (t : State) : Prop :=
  t.busy = false ∧ t.host.events = es ∧ ∃ v, t.host.seen.head? = some (.reg 1 v) ∧ v % 2 = 0

/-- On an idle block a `wait` is over with its first read of STATUS. -/
theorem run_wait_idle (hb : s.busy = false) (he : s.host.events = .wait :: es) :
    ∃ t, Host.Core.run core 1 s = .next t ∧ WaitOver es t :=
  ⟨_, run_of_step (step_of_event hb he nofun), hb, events_popEvent he, s.regs.status.toNat, rfl,
    status_even_of_idle hb⟩

/-- A turn of `wait` on a busy block leaves the `wait` to be done (R147). -/
theorem events_busyTurn_wait (he : s.host.events = .wait :: es) : (busyTurn s).host.events = .wait :: es := by
  rw [busyTurn_of_cons he]
  exact congrArg (List.cons Event.wait) (events_popEvent he)

end

/-- On a busy block a `wait` lasts for the turns left, the completion, and the read that shows `BUSY = 0`. -/
theorem run_wait_busy {es : List Event} : ∀ (n : Nat) {s : State}, s.busy = true → busyFor s = n →
    s.host.events = .wait :: es → ∃ t, Host.Core.run core (n + 2) s = .next t ∧ WaitOver es t
  | 0, s, hb, h0, he => by
    rw [run_of_step (step_of_complete hb h0)]
    exact run_wait_idle (busy_finishRunning _) (by rw [host_finishRunning]; exact he)
  | n + 1, s, hb, hn, he => by
    have hhead : s.host.events.head? ≠ some .reset := by simp [he]
    rw [run_of_step (step_of_turn hb (hn ▸ Nat.succ_ne_zero n))]
    exact run_wait_busy n ((sameBlock_busyTurn hhead).busy_eq.trans hb) (busyFor_busyTurn hn hhead)
      (events_busyTurn_wait he)

/-- Settles O18, by induction on the turns left (`run_wait_busy`); an idle block ends the `wait` at once. -/
theorem everyWaitEnds : Obligations.EveryWaitEnds := by
  intro s es he
  cases hb : s.busy with
  | false =>
    obtain ⟨t, hrun, hidle, hplan, v, hseen, heven⟩ := run_wait_idle hb he
    exact ⟨1, t, v, Nat.le_add_left 1 (busyFor s + 1), hrun, hidle, hplan, hseen, heven⟩
  | true =>
    obtain ⟨t, hrun, hidle, hplan, v, hseen, heven⟩ := run_wait_busy (busyFor s) hb rfl he
    exact ⟨busyFor s + 2, t, v, Nat.le_refl _, hrun, hidle, hplan, hseen, heven⟩

end Sys2Proof.Machine

/-! # The environment family: the codes the software around the block derives (O36)

Each property is an induction on the tree; that the codes pass the check is `tablePasses_deriveCodes`. -/

namespace Sys2Proof.Machine

theorem length_bytes_pos (tree : HuffNode) : 0 < tree.bytes.length := by
  induction tree with
  | leaf b => exact Nat.zero_lt_one
  | node l r ihl _ =>
    rw [HuffNode.bytes, List.length_append]
    exact Nat.add_pos_left ihl _

/-- A tree's depth is below the number of its leaves (R164). -/
theorem length_code_lt_length_bytes {tree : HuffNode} : ∀ {b : Byte} {c : Bits}, (b, c) ∈ deriveCodes tree →
    c.length < tree.bytes.length := by
  induction tree with
  | leaf x =>
    intro b c h
    rw [deriveCodes, List.mem_singleton] at h
    cases h
    exact Nat.zero_lt_one
  | node l r ihl ihr =>
    intro b c h
    have hl : 0 < l.bytes.length := length_bytes_pos l
    have hr : 0 < r.bytes.length := length_bytes_pos r
    rw [HuffNode.bytes, List.length_append]
    rcases mem_deriveCodes_node.1 h with ⟨c, hc, rfl⟩ | ⟨c, hc, rfl⟩
    · exact Nat.add_lt_add_of_lt_of_le (ihl hc) hr
    · rw [Nat.add_comm]
      exact Nat.add_lt_add_of_lt_of_le (ihr hc) hl

/-- There are 256 Bytes. -/
theorem length_le_of_nodup {l : List Byte} (h : l.Nodup) : l.length ≤ 256 := by
  have hcard := (h.map BitVec.toFin_injective).length_le_card
  rwa [List.length_map, Fintype.card_fin] at hcard

/-- Only a root that is a leaf has an empty code, and it is the only code (R164). -/
theorem length_deriveCodes_of_nil_mem {tree : HuffNode} {b : Byte} (h : (b, []) ∈ deriveCodes tree) :
    (deriveCodes tree).length = 1 := by
  cases tree with
  | leaf x => rfl
  | node l r => rcases mem_deriveCodes_node.1 h with ⟨c, _, hc⟩ | ⟨c, _, hc⟩ <;> cases hc

/-- Every internal node has both children, so a bit sequence followed from the root ends inside the tree or passes a
leaf (R164). -/
theorem deriveCodes_complete (tree : HuffNode) : ∀ bits : Bits,
    ∃ b c, (b, c) ∈ deriveCodes tree ∧ (bits <+: c ∨ c <+: bits) := by
  induction tree with
  | leaf b => exact fun bits => ⟨b, [], List.mem_singleton_self _, .inr List.nil_prefix⟩
  | node l r ihl ihr =>
    intro bits
    cases bits with
    | nil =>
      obtain ⟨b, c, hc, -⟩ := ihl []
      exact ⟨b, false :: c, mem_deriveCodes_node.2 (.inl ⟨c, hc, rfl⟩), .inl List.nil_prefix⟩
    | cons x bits =>
      cases x with
      | false =>
        obtain ⟨b, c, hc, hpre⟩ := ihl bits
        exact ⟨b, false :: c, mem_deriveCodes_node.2 (.inl ⟨c, hc, rfl⟩), by simpa using hpre⟩
      | true =>
        obtain ⟨b, c, hc, hpre⟩ := ihr bits
        exact ⟨b, true :: c, mem_deriveCodes_node.2 (.inr ⟨c, hc, rfl⟩), by simpa using hpre⟩

/-- Settles O36, one lemma per property: the check (`tablePasses_deriveCodes`), the depth of the tree
(`length_code_lt_length_bytes`), the empty code and completeness. -/
theorem derivedCodesPassCheck : Obligations.DerivedCodesPassCheck := by
  intro tree hnodup
  refine ⟨tablePasses_deriveCodes tree, fun e he => ?_, fun ⟨e, he, hnil⟩ => ?_, fun bits => ?_⟩
  · have hdepth : e.2.length < tree.bytes.length := length_code_lt_length_bytes he
    have hleaves : tree.bytes.length ≤ 256 := length_le_of_nodup hnodup
    omega
  · exact length_deriveCodes_of_nil_mem (b := e.1) (hnil ▸ he)
  · obtain ⟨b, c, hc, hpre⟩ := deriveCodes_complete tree bits
    exact ⟨(b, c), hc, hpre⟩

end Sys2Proof.Machine

/-! # The exceptions family: the causes of each command's faults, and what a command leaves free

First the causes, read off the outcome of each command (O45); then two runs that differ in the draw counter alone: from
an input the host has written, every piece of pseudocode ends the same but for the counter (O49). -/

/-! ## The causes of each command (O45) -/

namespace Sys2Proof.Machine

section
variable {c : Cause} {p : Params} {n cap : Nat} {codes : List (Byte × Bits)} {bits : Bits} {B : List Byte}

theorem cause_of_fitted {α : Type} {xs : List α} (h : (fitted cap xs).1 = some c) : c = .capacity := by
  unfold fitted at h
  split at h <;> cases h
  rfl

theorem cause_of_packOutcome (h : (packOutcome p bits).1 = some c) : c = .capacity := by
  unfold packOutcome at h
  split at h
  · cases h
    rfl
  · exact cause_of_fitted h

theorem cause_of_unpackBodyOutcome (h : (unpackBodyOutcome p B).1 = some c) :
    c = .emptyBuffer ∨ c = .padExceeds ∨ c = .capacity := by
  unfold unpackBodyOutcome unpackOutcome at h
  split_ifs at h
  · cases h
    exact .inr (.inr rfl)
  · cases h
    exact .inl rfl
  · cases h
    exact .inr (.inl rfl)
  · exact .inr (.inr (cause_of_fitted h))

theorem cause_of_walkOutcome (h : (walkOutcome cap n codes bits).1 = some c) :
    c = .corruptStream ∨ c = .capacity := by
  unfold walkOutcome at h
  cases hd : degenerateByte codes with
  | none | some b =>
    simp only [hd] at h
    split_ifs at h <;> cases h <;> simp

theorem cause_of_hwalkOutcome (h : (hwalkOutcome p n codes bits).1 = some c) :
    c = .badTable ∨ c = .corruptStream ∨ c = .capacity := by
  unfold hwalkOutcome at h
  split_ifs at h
  · cases h
    exact .inr (.inr rfl)
  · cases h
    exact .inl rfl
  · exact .inr (cause_of_walkOutcome h)

theorem cause_of_rledOutcome (h : (rledOutcome p B).1 = some c) : c = .oddLength ∨ c = .capacity := by
  unfold rledOutcome at h
  split_ifs at h
  · cases h
    exact .inr rfl
  · cases h
    exact .inl rfl
  · exact .inr (cause_of_fitted h)

/-- HDEC faults as UNPACK or as HWALK does (R111). -/
theorem cause_of_hdecOutcome (h : (hdecOutcome p n codes B).1 = some c) :
    (unpackBodyOutcome p B).1 = some c ∨ c = .badTable ∨ ∃ bits, (hwalkOutcome p n codes bits).1 = some c := by
  rcases Nat.lt_or_ge p.srcCap B.length with hlong | hcap
  · rw [hdecOutcome_of_tooLong hlong] at h
    exact .inl (by rwa [unpackBodyOutcome_of_tooLong hlong])
  cases hp : tablePasses codes with
  | false =>
    rw [hdecOutcome_of_badTable hcap hp] at h
    cases h
    exact .inr (.inl rfl)
  | true =>
    rcases ho : unpackBodyOutcome p B with ⟨_ | d, bits⟩
    · rw [hdecOutcome_of_unpacked hp ho] at h
      exact .inr (.inr ⟨bits, h⟩)
    · rw [hdecOutcome_of_unpackFault hp ho] at h
      exact .inl h

end

/-- The causes a command can end with: the "commands" column of R192. -/
def causesOf : Instr → List Cause
  | .pack => [.capacity]
  | .unpack => [.emptyBuffer, .padExceeds, .capacity]
  | .hwalk => [.badTable, .corruptStream, .capacity]
  | .hdec => [.emptyBuffer, .padExceeds, .badTable, .corruptStream, .capacity]
  | .rled => [.oddLength, .capacity]

theorem mem_causesOf_of_outcome {i : Instr} {s : State} {c : Cause} (h : (outcome i s).1 = some c) :
    c ∈ causesOf i := by
  cases i with
  | pack => simp [causesOf, cause_of_packOutcome h]
  | unpack => simpa [causesOf] using cause_of_unpackBodyOutcome h
  | hwalk => simpa [causesOf] using cause_of_hwalkOutcome h
  | hdec =>
    rcases cause_of_hdecOutcome h with hunpack | rfl | ⟨bits, hwalk⟩
    · rcases cause_of_unpackBodyOutcome hunpack with rfl | rfl | rfl <;> decide
    · decide
    · rcases cause_of_hwalkOutcome hwalk with rfl | rfl | rfl <;> decide
  | rled => simpa [causesOf] using cause_of_rledOutcome h

/-- Settles O45: a faulting command shows the code of its outcome's cause (`exec_shows`), which is among `causesOf`. -/
theorem causesByCommand : Obligations.CausesByCommand := by
  intro i s t h hfault
  obtain ⟨hstatus, herr, -⟩ := exec_shows h
  cases hc : (outcome i s).1 with
  | none =>
    rw [hc] at hstatus
    exact absurd (hstatus.symm.trans hfault) statusOk_ne_fault
  | some c =>
    have hcode : c.code.toNat ∈ (causesOf i).map fun c => c.code.toNat :=
      List.mem_map_of_mem (mem_causesOf_of_outcome hc)
    rw [herr, hc]
    cases i <;> exact hcode

end Sys2Proof.Machine

/-! ## Inputs that hold a value leave nothing free (O49) -/

namespace Sys2Proof.Machine

/-! ### Another draw -/

/-- The same state with another value of the draw counter. -/
def State.redraw (s : State) (d : Nat) : State := { s with draws := d }

/-- The same end of a piece of pseudocode, with another value of the draw counter. -/
def Run.redraw (d : Nat) : Run → Run
  | .done s => .done (s.redraw d)
  | .raised c s => .raised c (s.redraw d)

/-- The first `n` elements of SRC hold a value (R33). -/
def SrcWritten (n : Nat) (s : State) : Prop := ∀ j < n, (Memory.read s.mems.src j).isSome = true

/-- The first `n` elements of BBUF hold a value (R33). -/
def BitsLive (n : Nat) (s : State) : Prop := ∀ j < n, (liveBit s.mems.bbuf j).isSome = true

section
variable {s : State} {d n : Nat}

@[simp] theorem redraw_regs : (s.redraw d).regs = s.regs := rfl
@[simp] theorem redraw_mems : (s.redraw d).mems = s.mems := rfl
@[simp] theorem redraw_work : (s.redraw d).work = s.work := rfl
theorem updWork_redraw (f : Work → Work) : (s.redraw d).updWork f = (s.updWork f).redraw d := rfl
theorem updRegs_redraw (f : Regs → Regs) : (s.redraw d).updRegs f = (s.updRegs f).redraw d := rfl

/-- An element that holds a value reads as it, whatever the draw. -/
theorem srcRead_redraw (h : SrcWritten n s) {j : Nat} (hj : j < n) : srcRead (s.redraw d) j = srcRead s j := by
  obtain ⟨v, hv⟩ := Option.isSome_iff_exists.1 (h j hj)
  simp only [srcRead, State.redraw, hv, Option.getD_some]

theorem bitRead_redraw (h : BitsLive n s) {j : Nat} (hj : j < n) : bitRead (s.redraw d) j = bitRead s j := by
  obtain ⟨x, hx⟩ := Option.isSome_iff_exists.1 (h j hj)
  simp only [bitRead, State.redraw, hx, Option.getD_some]

/-- No pseudocode writes SRC (R63). -/
theorem Run.Keeps.srcWritten {r : Run} (h : r.Keeps s) (hs : SrcWritten n s) :
    r.Holds (SrcWritten n) fun _ _ => True :=
  h.mono (fun t hk => by rwa [SrcWritten, hk.src]) fun _ _ _ => trivial

/-! ### The rules of pseudocode -/

/-- Two pieces in a row give the same for every draw when each does, the second from where the first ends. -/
theorem Run.Holds.andThen_redraw {r : Run} {f g : State → Run} {E : Cause → State → Prop}
    (h : r.Holds (fun t => g (t.redraw d) = (f t).redraw d) E) :
    (r.redraw d).andThen g = (r.andThen f).redraw d := by
  cases r with
  | done t => exact h
  | raised c t => rfl

theorem andThen_redraw (r : Run) {f g : State → Run} (h : ∀ t, g (t.redraw d) = (f t).redraw d) :
    (r.redraw d).andThen g = (r.andThen f).redraw d := by
  cases r with
  | done t => exact h t
  | raised c t => rfl

theorem raiseIf_redraw (p : Prop) [Decidable p] (c : Cause) :
    raiseIf p c (s.redraw d) = (raiseIf p c s).redraw d := by
  unfold raiseIf
  split <;> rfl

/-- A check and what follows it where it passes. -/
theorem check_redraw {p : Prop} [Decidable p] {f g : State → Run} (c : Cause)
    (h : ¬p → g (s.redraw d) = (f s).redraw d) :
    (raiseIf p c (s.redraw d)).andThen g = ((raiseIf p c s).andThen f).redraw d := by
  rw [raiseIf_redraw]
  exact (holds_raiseIf (E := fun _ _ => True) (fun _ => trivial) h).andThen_redraw

/-- A loop gives the same for every draw when each round does, under an invariant of the rounds. -/
theorem forUp_redraw (P : State → Prop) {f : Nat → State → Run} (n k : Nat) (hs : P s)
    (hf : ∀ j t, k ≤ j → j < k + n → P t → f j (t.redraw d) = (f j t).redraw d)
    (hP : ∀ j t, P t → (f j t).Holds P fun _ _ => True) :
    forUp f n k (s.redraw d) = (forUp f n k s).redraw d := by
  induction n generalizing k s with
  | zero => rfl
  | succ n ih =>
    rw [forUp_succ, forUp_succ, hf k s (Nat.le_refl k) (by omega) hs]
    refine ((hP k s hs).mono (fun t ht => ?_) fun _ _ h => h).andThen_redraw
    exact ih (k + 1) ht fun j u hj hj' => hf j u (by omega) (by omega)

theorem forEach_redraw {α : Type} {f : α → State → Run} (hf : ∀ x t, f x (t.redraw d) = (f x t).redraw d) :
    ∀ (xs : List α) (s : State), forEach f xs (s.redraw d) = (forEach f xs s).redraw d
  | [], _ => rfl
  | x :: xs, s => by
    rw [forEach_cons, forEach_cons, hf]
    exact andThen_redraw _ (forEach_redraw hf xs)

theorem dstWrite_redraw (i : Nat) (v : Byte) : dstWrite i v (s.redraw d) = (dstWrite i v s).redraw d := by
  rcases Nat.lt_or_ge i s.params.dstCap with h | h
  · rw [dstWrite_of_room h, dstWrite_of_room (s := s.redraw d) h]
    rfl
  · rw [dstWrite_of_full h, dstWrite_of_full (s := s.redraw d) h]
    rfl

theorem bitWrite_redraw (i : Nat) (v : Bool) : bitWrite i v (s.redraw d) = (bitWrite i v s).redraw d := by
  rcases Nat.lt_or_ge i s.params.bitCap with h | h
  · rw [bitWrite_of_room h, bitWrite_of_room (s := s.redraw d) h]
    rfl
  · rw [bitWrite_of_full h, bitWrite_of_full (s := s.redraw d) h]
    rfl

theorem emitByte_redraw (v : Byte) : emitByte v (s.redraw d) = (emitByte v s).redraw d := by
  rw [emitByte, dstWrite_redraw]
  exact andThen_redraw _ fun _ => rfl

theorem emitMany_redraw (v : Byte) (m k : Nat) :
    forUp (fun _ => emitByte v) m k (s.redraw d) = (forUp (fun _ => emitByte v) m k s).redraw d :=
  forUp_redraw (fun _ => True) m k trivial (fun _ _ _ _ _ => emitByte_redraw v)
    fun _ t _ => holds_emitByte v t (fun _ => trivial) fun _ => trivial

/-! ### PACK -/

/-- What PACK's loop needs of a state: its `n` bits hold a value, and `NB` counts them. -/
structure PackReady (n : Nat) (s : State) : Prop where
  live : BitsLive n s
  nb : s.work.nb = n

theorem packBit_redraw (k : Nat) (h : PackReady n s) : packBit k (s.redraw d) = (packBit k s).redraw d := by
  have hx : (if k < (s.redraw d).work.nb then bitRead (s.redraw d) k else false) =
      if k < s.work.nb then bitRead s k else false :=
    if_ctx_congr Iff.rfl (fun hk => bitRead_redraw h.live (h.nb ▸ hk)) fun _ => rfl
  unfold packBit
  rw [hx]
  simp only [updWork_redraw, redraw_work, emitByte_redraw]
  split
  · exact andThen_redraw _ fun _ => rfl
  · rfl

theorem packReady_packBit (k : Nat) (h : PackReady n s) : (packBit k s).Holds (PackReady n) fun _ _ => True := by
  unfold packBit
  dsimp only
  split
  · refine (holds_emitByte (Q := PackReady n) (E := fun _ _ => True) _ _ (fun _ => trivial) fun _ => ?_).andThen ?_
    · exact ⟨h.live, h.nb⟩
    · exact fun t ht => ⟨ht.live, ht.nb⟩
  · exact ⟨h.live, h.nb⟩

theorem packBody_redraw (h : BitsLive s.regs.bitLen s) : packBody (s.redraw d) = (packBody s).redraw d := by
  unfold packBody
  refine check_redraw _ fun _ => ?_
  simp only [redraw_regs, updWork_redraw, updRegs_redraw, dstWrite_redraw]
  refine ((holds_dstWrite (Q := PackReady s.regs.bitLen) (E := fun _ _ => True) _ _ _ (fun _ => trivial)
    fun _ => ?_).mono (fun t ht => ?_) fun _ _ h => h).andThen_redraw
  · exact ⟨h, rfl⟩
  · rw [updWork_redraw]
    refine forUp_redraw (PackReady s.regs.bitLen) _ 0 ?_ (fun k u _ _ => packBit_redraw k)
      fun k u => packReady_packBit k
    exact ⟨ht.live, ht.nb⟩

/-! ### UNPACK -/

theorem unpackBit_redraw (k : Nat) (s : State) : unpackBit k (s.redraw d) = (unpackBit k s).redraw d := by
  simp only [unpackBit, redraw_work, bitWrite_redraw]
  split
  · exact andThen_redraw _ fun _ => rfl
  · rfl

theorem unpackByte_redraw {i : Nat} (h : SrcWritten n s) (hi : i < n) :
    unpackByte i (s.redraw d) = (unpackByte i s).redraw d := by
  unfold unpackByte
  rw [srcRead_redraw h hi]
  exact forEach_redraw unpackBit_redraw _ (s.updWork fun w => { w with si := i, sh := srcRead s i })

theorem unpackPhase_redraw (h : SrcWritten s.regs.srcLen s) :
    unpackPhase (s.redraw d) = (unpackPhase s).redraw d := by
  unfold unpackPhase
  refine check_redraw _ fun hpos => ?_
  dsimp only
  rw [srcRead_redraw h (by rw [redraw_regs] at hpos; omega)]
  refine check_redraw (s := s.updRegs fun r => { r with pad := srcRead s 0 }) (d := d) _ fun _ => ?_
  simp only [updWork_redraw, redraw_regs]
  refine forUp_redraw (SrcWritten s.regs.srcLen) _ 1 ?_ ?_ ?_
  · exact h
  · exact fun i t _ hi ht => unpackByte_redraw ht (by omega)
  · exact fun i t => (keeps_unpackByte i t).srcWritten

/-- The bits UNPACK has written hold a value. -/
theorem bitsLive_unpackPhase (h0 : s.regs.bitLen = 0) :
    (unpackPhase s).Holds (fun t => BitsLive t.regs.bitLen t) fun _ _ => True := by
  refine (unpackPhase_spec s h0).mono ?_ fun _ _ _ => trivial
  rintro t ⟨-, -, -, -, hout, -⟩ j hj
  rw [hout.len] at hj
  rw [hout.bbuf, liveBit_putFrom, dif_pos hj, Option.isSome_some]

theorem unpackBody_redraw (h : SrcWritten s.regs.srcLen s) : unpackBody (s.redraw d) = (unpackBody s).redraw d :=
  check_redraw _ fun _ => unpackPhase_redraw h

/-! ### The walk -/

theorem walkBit_redraw {k : Nat} (codes : List (Byte × Bits)) (h : BitsLive n s) (hk : k < n) :
    walkBit codes k (s.redraw d) = (walkBit codes k s).redraw d := by
  simp only [walkBit, bitRead_redraw h hk, updWork_redraw, redraw_work, emitByte_redraw]
  split
  · exact andThen_redraw _ fun _ => rfl
  · rfl
  · rfl

theorem bitsLive_walkBit (codes : List (Byte × Bits)) (k : Nat) (h : BitsLive n s) :
    (walkBit codes k s).Holds (BitsLive n) fun _ _ => True := by
  unfold walkBit
  dsimp only
  split
  · refine (holds_emitByte (Q := BitsLive n) (E := fun _ _ => True) _ _ (fun _ => trivial) fun _ => ?_).andThen ?_
    · exact h
    · exact fun t ht => ht
  · exact h
  · exact trivial

theorem treeWalk_redraw (codes : List (Byte × Bits)) (h : BitsLive s.regs.bitLen s) :
    treeWalk codes (s.redraw d) = (treeWalk codes s).redraw d := by
  simp only [treeWalk, redraw_regs, updWork_redraw]
  rw [forUp_redraw (BitsLive s.regs.bitLen)]
  case hs => exact h
  case hf => exact fun k t _ hk ht => walkBit_redraw codes ht (by omega)
  case hP => exact fun k t => bitsLive_walkBit codes k
  exact andThen_redraw _ fun t => raiseIf_redraw _ _

theorem degenerateWalk_redraw (b : Byte) : degenerateWalk b (s.redraw d) = (degenerateWalk b s).redraw d :=
  check_redraw _ fun _ => emitMany_redraw b _ 1

theorem walk_redraw (h : BitsLive s.regs.bitLen s) : walk (s.redraw d) = (walk s).redraw d := by
  simp only [walk, redraw_mems, updWork_redraw]
  split
  · exact degenerateWalk_redraw _
  · exact treeWalk_redraw _ h

theorem hwalkBody_redraw (h : BitsLive s.regs.bitLen s) : hwalkBody (s.redraw d) = (hwalkBody s).redraw d :=
  check_redraw _ fun _ => check_redraw _ fun _ => walk_redraw h

/-- The walk of HDEC reads the bits just unpacked, and they hold a value. -/
theorem hdecBody_redraw (h : SrcWritten s.regs.srcLen s) (h0 : s.regs.bitLen = 0) :
    hdecBody (s.redraw d) = (hdecBody s).redraw d := by
  refine check_redraw _ fun _ => check_redraw _ fun _ => ?_
  rw [unpackPhase_redraw h]
  exact ((bitsLive_unpackPhase h0).mono (fun _ => walk_redraw) fun _ _ h => h).andThen_redraw

/-! ### RLED -/

theorem rlePair_redraw {k : Nat} (h : SrcWritten n s) (hk : 2 * k + 1 < n) :
    rlePair k (s.redraw d) = (rlePair k s).redraw d := by
  unfold rlePair
  rw [srcRead_redraw h hk, srcRead_redraw h (Nat.lt_of_succ_lt hk)]
  simp only [updWork_redraw]
  exact emitMany_redraw _ _ 1

theorem rledBody_redraw (h : SrcWritten s.regs.srcLen s) : rledBody (s.redraw d) = (rledBody s).redraw d := by
  refine check_redraw _ fun _ => check_redraw _ fun hodd => ?_
  exact forUp_redraw (s := s.updWork fun w => { w with di := 0 }) (SrcWritten s.regs.srcLen) _ 0 h
    (fun k t _ hk ht => rlePair_redraw ht (by rw [redraw_regs] at hk; omega))
    fun k t => (keeps_rlePair k t).srcWritten

end

/-! ### A whole command -/

/-- No body meets a free value where the host has written its input (R204, R222). -/
theorem body_redraw {i : Instr} {s : State} (h : inputReady i s) (d : Nat) :
    body i (startCommand i (s.redraw d)) = (body i (startCommand i s)).redraw d := by
  cases i with
  | pack => exact packBody_redraw (s := startCommand .pack s) h
  | unpack => exact unpackBody_redraw (s := startCommand .unpack s) h
  | hwalk => exact hwalkBody_redraw (s := startCommand .hwalk s) h
  | hdec => exact hdecBody_redraw (s := startCommand .hdec s) h rfl
  | rled => exact rledBody_redraw (s := startCommand .rled s) h

/-- The draw of a completion shows in PROGRESS after a fault and nowhere else (R19, R193). -/
theorem settle_redraw (n d : Nat) (r : Run) :
    (settle n r).mems = (settle n (r.redraw d)).mems ∧ (settle n r).work = (settle n (r.redraw d)).work ∧
      (settle n r).regs = { (settle n (r.redraw d)).regs with progress := (settle n r).regs.progress } ∧
      ((settle n r).regs.status = statusOk → (settle n r).regs = (settle n (r.redraw d)).regs) := by
  cases r with
  | done s => exact ⟨rfl, rfl, rfl, fun _ => rfl⟩
  | raised c s => exact ⟨rfl, rfl, rfl, fun hok => absurd hok.symm statusOk_ne_fault⟩

theorem sourceCount_redraw (i : Instr) (s : State) (d : Nat) :
    sourceCount i (startCommand i (s.redraw d)) = sourceCount i (startCommand i s) := by
  cases i <;> rfl

/-- Settles O49: the body ends the same but for the counter (`body_redraw`), and so does the completion
(`settle_redraw`). -/
theorem writtenInputsLeaveNothingFree : Obligations.WrittenInputsLeaveNothingFree := by
  intro i s d h
  refine ⟨_, _, exec_eq_finish i s, exec_eq_finish i (s.redraw d), ?_⟩
  rw [finishCommand, finishCommand, sourceCount_redraw, body_redraw h]
  exact settle_redraw _ d _

end Sys2Proof.Machine

/-! # The reset family: the reset input, idle or busy (O5)

A reset clears the block the same way in both cases; only the `BUSY_TIME` list of the host tells them apart. -/

namespace Sys2Proof.Machine

section
variable {s : State} {es : List Event}

theorem step_of_reset_idle (hb : s.busy = false) (he : s.host.events = .reset :: es) :
    step s = .next (resetBlock (popEvent s)) :=
  step_of_event hb he nofun

/-- A reset that ends a running command uses up that command's `BUSY_TIME` (R221, R230). -/
theorem step_of_reset_busy (hb : s.busy = true) (h0 : busyFor s ≠ 0) (he : s.host.events = .reset :: es) :
    step s = .next (popBusy (resetBlock (popEvent s))) := by
  rw [step_of_turn hb h0, busyTurn_of_cons he]
  rfl

/-- Idle or busy, the reset input clears the block, and a command in it leaves no result (R221). -/
theorem step_of_reset (hturn : s.busy = true → busyFor s ≠ 0) (he : s.host.events = .reset :: es) :
    ∃ ts, step s = .next ((resetBlock (popEvent s)).updHost fun h => { h with busyTime := ts }) := by
  cases hb : s.busy with
  | false => exact ⟨s.host.busyTime, step_of_reset_idle hb he⟩
  | true => exact ⟨s.host.busyTime.tail, step_of_reset_busy hb (hturn hb) he⟩

end

theorem busy_resetBlock (s : State) : (resetBlock s).busy = false :=
  busy_of_status (w := 0x00#8) rfl (by decide)

/-- Settles O5: by `step_of_reset` the step is `resetBlock`'s in both cases, whose memories list no element. -/
theorem resetInputClearsBlock : Obligations.ResetInputClearsBlock := by
  intro s es he hturn
  obtain ⟨ts, hstep⟩ := step_of_reset hturn he
  exact ⟨_, hstep, rfl, busy_resetBlock (popEvent s), rfl, fun _ => ⟨rfl, rfl, rfl, rfl⟩, events_popEvent he⟩

end Sys2Proof.Machine
